-- ==== Sys2Proof/Word.lean ====
section
/-!
DEFINITION. The byte, the only word of the block: an unsigned 8-bit value whose bit 7 is the most significant (00_scope.md R34).
-/

namespace Sys2Proof

/-- A byte (R34). Byte sequences are `List Byte`, index 0 first (R35). -/
abbrev Byte := BitVec 8

end Sys2Proof
end

