-- ==== Sys2Proof/Syntax.lean ====
section
/-!
DEFINITION. The host requests of 30_encoding.md R180, one constructor per row of spec/opcode_table.json, and the
operand types they carry: byte buffers whose bytes may be unwritten, PanelImages and Bit-Image Sources.
-/

namespace Sys2Proof

/-- The two views of a Bit-Image Source (R206), and the values of `P_COMPOSITE_VIEW` (R30). -/
inductive View where
  | normal
  | inverted
deriving DecidableEq, Repr, Inhabited

/-- One byte of a buffer. `written` has a bit set for every bit of `val` that has been written; a byte is written when
all eight are (R114). Bits that are not written are zero in `val` (log entry 13), so equal buffers are equal data. -/
structure BufByte where
  val : Byte
  written : Byte
deriving DecidableEq, Repr

/-- A byte buffer, offset 0 first (R110, R111). -/
abbrev Buffer := List BufByte

/-- A PanelImage: `16 + (w*h)/8` bytes, the header first (R112). -/
structure PanelImage where
  w : Nat
  h : Nat
  bytes : Buffer
deriving DecidableEq, Repr

/-- A Bit-Image Source: two views of `(w*h)/8` bytes each, no header (R113). -/
structure Bis where
  w : Nat
  h : Nat
  normal : List Byte
  inverted : List Byte
deriving DecidableEq, Repr

/-- The host requests (R180). Bytes are `Byte`, the other numbers are naturals; a Boolean `white` is true for white. -/
inductive Instr where
  -- command framer, simple commands (41_framer.md R231, R243, R244, R245)
  | erase (slot : Byte)
  | updFull (slot : Byte)
  | updFl (slot : Byte)
  | updFlinv (slot : Byte)
  -- command framer, parameterized commands (R235 to R238)
  | roiSet (slot : Byte) (x y w h : Nat)
  | fillVal (slot v : Byte)
  | copySlot (slot src : Byte)
  | dpReset (slot : Byte)
  -- command framer, image packet (R241)
  | imgPkt (init : Byte) (payload : List Byte)
  -- status response decoder (R272, R270)
  | statusRead
  | classify (b0 b1 : Byte)
  -- busy/timing state machine (R293, R295, R297)
  | isBusy
  | waitBusy (t : Nat)
  | waitFree
  -- bit-image data (R200, R203 to R206)
  | imgNew (w h : Nat)
  | imgClear (img : PanelImage) (white : Bool)
  | imgComposite (img : PanelImage) (bis : Bis) (x y : Nat)
  | bisNew (w h : Nat) (raw : List Byte)
  | bisView (bis : Bis) (which : View)
  -- packetizer, splitting (R320)
  | pktSplit (len plen : Nat)
  -- construction and teardown (R450, R453)
  | construct
  | teardown
  -- packetizer, transfers (R324, R325, R327)
  | sendImage (buf : Buffer) (len plen : Nat)
  | sendImagePi (img : PanelImage)
  | sendImageRoi (buf : Buffer) (x y w h retry : Nat)
  -- orchestrator sequences (R351 to R357)
  | fill (white : Bool)
  | fillRoi (x y w h : Nat) (white : Bool)
  | copyRoi (x y w h : Nat) (src : Option Byte)
  | eraseP
  | updateP
  | updateFlP
  | updateFlinvP
deriving DecidableEq, Repr

end Sys2Proof
end

