-- ==== Sys2Proof/Config.lean ====
section
/-!
DEFINITION. What an implementation fixes (the parameters of 00_scope.md section 4, R14 to R33) and the free values that
stand for the environment's draws (R43). A parameter the spec leaves OPEN is a field of `Params`; the hardware's own
parameters are `Config.params`, a constant with no body, so nothing can be proved of their values beyond the constraints
the spec states. The free values are constants with no body too.
-/

namespace Sys2Proof

/-- The busy pin's raw level (R291). -/
inductive Level where
  | low
  | high
deriving DecidableEq, Repr, Inhabited

/-- What `S.last_update` holds after construction (`P_TS_RESET`, R26). -/
inductive TsReset where
  | never
  | atReset
deriving DecidableEq, Repr, Inhabited

/-- How a transfer accumulates its packets' results (R32). -/
inductive Accum where
  | and
  | or
deriving DecidableEq, Repr

/-- The frame kinds that `P_SLOT` chooses a slot byte for (R20). -/
inductive SlotKind where
  | erase
  | update
  | roi
  | fill
  | copyDst
  | dpReset
deriving DecidableEq, Repr

/-- The open parameters of 00_scope.md section 4. The proof fields are the constraints that section states. -/
structure Params where
  /-- `P_PANEL_W` (R14) -/
  panelW : Nat := 0
  /-- `P_PANEL_H` (R14) -/
  panelH : Nat := 0
  /-- `P_ROI_CLAMP_H` (R15) -/
  roiClampH : Nat := 0
  /-- `P_DEFAULT_PACKET_LEN` (R16) -/
  defaultPacketLen : Nat := 1
  /-- `P_OP_UPD_FULL` (R17) -/
  opUpdFull : Byte := 0
  /-- `P_OP_UPD_FL` (R17) -/
  opUpdFl : Byte := 1
  /-- `P_OP_UPD_FLINV` (R17) -/
  opUpdFlinv : Byte := 2
  /-- `P_OP_PARAM` (R18) -/
  opParam : Byte := 0
  /-- `P_SLOT(k)`, one byte per kind (R20) -/
  slotErase : Byte := 0
  slotUpdate : Byte := 0
  slotRoi : Byte := 0
  slotFill : Byte := 0
  slotCopyDst : Byte := 0
  slotDpReset : Byte := 0
  /-- `P_COPY_DEFAULT_SRC` (R21) -/
  copyDefaultSrc : Byte := 0
  /-- `T_SHORT`, `T_MEDIUM`, `T_LONG` (R22) -/
  tShort : Nat := 0
  tMedium : Nat := 0
  tLong : Nat := 0
  /-- `T_GUARD` (R23) -/
  tGuard : Nat := 0
  /-- `T_CAP` (R24) -/
  tCap : Nat := 0
  /-- `T_POLL` (R25) -/
  tPoll : Nat := 1
  /-- `T_FREE_SLEEP` (R25) -/
  tFreeSleep : Nat := 1
  /-- `P_TS_RESET` (R26) -/
  tsReset : TsReset := .never
  /-- `P_BUSY_ACTIVE_HIGH` (R27) -/
  busyActiveHigh : Bool := true
  /-- `P_BUSY_PIN_USED` (R27); a sample is a draw whether or not it holds (R291) -/
  busyPinUsed : Bool := true
  /-- `P_ROI_INCLUSIVE` (R28) -/
  roiInclusive : Bool := true
  /-- `P_FILL_INVERT` (R29) -/
  fillInvert : Bool := true
  /-- `P_COMPOSITE_VIEW` (R30) -/
  compositeView : View := .normal
  /-- `P_HDR_X_OFF` (R31) -/
  hdrXOff : Nat := 0
  /-- `P_HDR_Y_OFF` (R31) -/
  hdrYOff : Nat := 2
  /-- the construction values, read by no rule of the block (R33) -/
  devicePath : String := ""
  bitRate : Nat := 0
  csPin : Int := 0
  busyPin : Int := 0
  enablePin : Int := 0
  panelW_lt : panelW < 65536 := by decide
  panelH_lt : panelH < 65536 := by decide
  roiClampH_lt : roiClampH < 65536 := by decide
  defaultPacketLen_pos : 1 ≤ defaultPacketLen := by decide
  defaultPacketLen_le : defaultPacketLen ≤ 255 := by decide
  opUpdFull_ne_fl : opUpdFull ≠ opUpdFl := by decide
  opUpdFull_ne_flinv : opUpdFull ≠ opUpdFlinv := by decide
  opUpdFl_ne_flinv : opUpdFl ≠ opUpdFlinv := by decide
  tShort_le_medium : tShort ≤ tMedium := by decide
  tMedium_le_long : tMedium ≤ tLong := by decide
  tPoll_pos : 1 ≤ tPoll := by decide
  tFreeSleep_pos : 1 ≤ tFreeSleep := by decide
  hdrX_in : hdrXOff + 1 ≤ 15 := by decide
  hdrY_in : hdrYOff + 1 ≤ 15 := by decide
  hdr_disjoint : hdrXOff + 1 < hdrYOff ∨ hdrYOff + 1 < hdrXOff := by decide
deriving DecidableEq, Repr, Inhabited

/-- `P_SLOT(k)` (R20). -/
def Params.slot (p : Params) : SlotKind → Byte
  | .erase => p.slotErase
  | .update => p.slotUpdate
  | .roi => p.slotRoi
  | .fill => p.slotFill
  | .copyDst => p.slotCopyDst
  | .dpReset => p.slotDpReset

/-- `P_INIT_BYTE_FIRST` (R19): 0x01 in this hardware (log entry 5). -/
def Config.initByteFirst : Byte := 0x01

/-- `P_IMAGE_ACCUM` (R32): `And` in this hardware (log entry 5). -/
def Config.imageAccum : Accum := .and

/-- `P_ROI_ACCUM` (R32): `Or` in this hardware (log entry 5). -/
def Config.roiAccum : Accum := .or

/-- This hardware's parameters: OPEN, so any value that meets the constraints (log entry 4). -/
opaque Config.params : Params

/-- The clock's reading at the construction that reset stands for, a draw (R432, R451; log entry 6). -/
opaque Config.clockAtReset : Nat

/-- The header bytes of a PanelImage of width `w` and height `h` outside its resolution fields: panel type, color depth,
pixel-format flag, reserved bytes, by offset (R31, R201; log entry 15). -/
opaque Config.headerRest : Nat → Nat → Nat → Byte

/-- The elapsed time at a clock reading before the last update's, which R292 gives no value (log entry 9). -/
opaque Config.elapsedBefore : Nat → Nat → Nat

/-- How far the clock has advanced when it is read for the n-th time past its script (R290 (c); log entry 3). -/
opaque Config.freeAdvance : Nat → Nat

/-- The busy pin's level at the n-th sample past its script (R291; log entry 3). -/
opaque Config.freeLevel : Nat → Level

/-- The n-th byte the panel answers past its script (R271; log entry 3). -/
opaque Config.freeByte : Nat → Byte

/-- Whether the n-th acquisition of a collaborator past its script succeeds (R450; log entry 3). -/
opaque Config.freeAcquire : Nat → Bool

end Sys2Proof
end

