-- ==== Sys2Proof/WellFormed.lean ====
section
/-!
DEFINITION. Which request values are requests of R180: an operand that is a PanelImage or a Bit-Image Source has the
shape that R112, R113 and R207 give those types, and a buffer holds no bits where nothing was written.
-/

namespace Sys2Proof

/-- Bits that were never written read as zero in the representation (log entry 13). -/
def BufByte.wf (b : BufByte) : Bool := b.val &&& ~~~b.written == 0

/-- All eight bits are written (R114). -/
def BufByte.isWritten (b : BufByte) : Bool := b.written == 0xFF

/-- A buffer in canonical form. -/
def bufferWf (buf : Buffer) : Bool := buf.all BufByte.wf

/-- A PanelImage as R112, R114 and R200 have it: the two resolutions fit 16 bits, the pixel count is a multiple of 8, the
length is `16 + (w*h)/8`, and the header bytes are written. -/
def PanelImage.wf (img : PanelImage) : Bool :=
  decide (img.w < 65536) && decide (img.h < 65536) && img.w * img.h % 8 == 0 &&
    img.bytes.length == 16 + img.w * img.h / 8 && (img.bytes.take 16).all BufByte.isWritten && bufferWf img.bytes

/-- A Bit-Image Source as R113 and R207 have it: two views of `(w*h)/8` bytes, exact complements of each other. -/
def Bis.wf (bis : Bis) : Bool :=
  bis.w * bis.h % 8 == 0 && bis.normal.length == bis.w * bis.h / 8 && bis.inverted == bis.normal.map (~~~·)

/-- The request's operands are values of the types of R180. Requests whose operands are bytes, naturals, Booleans and
byte sequences are always well formed: what the block refuses among them it refuses by a fault code (R412). -/
def Instr.wf : Instr → Bool
  | .imgClear img _ => img.wf
  | .imgComposite img bis _ _ => img.wf && bis.wf
  | .bisView bis _ => bis.wf
  | .sendImage buf _ _ => bufferWf buf
  | .sendImagePi img => img.wf
  | .sendImageRoi buf _ _ _ _ _ => bufferWf buf
  | .erase _ => true
  | .updFull _ => true
  | .updFl _ => true
  | .updFlinv _ => true
  | .roiSet _ _ _ _ _ => true
  | .fillVal _ _ => true
  | .copySlot _ _ => true
  | .dpReset _ => true
  | .imgPkt _ _ => true
  | .statusRead => true
  | .classify _ _ => true
  | .isBusy => true
  | .waitBusy _ => true
  | .waitFree => true
  | .imgNew _ _ => true
  | .bisNew _ _ _ => true
  | .pktSplit _ _ => true
  | .construct => true
  | .teardown => true
  | .fill _ => true
  | .fillRoi _ _ _ _ _ => true
  | .copyRoi _ _ _ _ _ => true
  | .eraseP => true
  | .updateP => true
  | .updateFlP => true
  | .updateFlinvP => true

end Sys2Proof
end

