-- ==== Sys2Proof/Decode.lean ====
section
/-!
DEFINITION. The frames of 30_encoding.md: how the block lays one out (R150 to R164), the decoder that reads a whole
chip-select-framed transaction back (R155, R158, R167), the encoder, and the opcode table's words (`decodeTableWord`).
The spec gives host requests no binary encoding (R180, D60), so the encoding of a request is its frame (R3); requests
with no frame of their own (format NONE or PSEUDO of the table) have no words.
-/

namespace Sys2Proof

/-- `BE16(v)`: the most significant byte first (R37). -/
def be16 (v : Nat) : List Byte := [BitVec.ofNat 8 (v / 256), BitVec.ofNat 8 (v % 256)]

/-- The value of a big-endian byte pair, the inverse of `be16`. -/
def ofBe16 (hi lo : Byte) : Nat := hi.toNat * 256 + lo.toNat

/-- Format `SIMPLE` (R151). -/
def simpleFrame (op sub slot : Byte) : List Byte := [op, sub, slot]

/-- Format `PARAM` (R152); the length byte holds the payload byte count (R156). -/
def paramFrame (op sub slot : Byte) (payload : List Byte) : List Byte :=
  [op, sub, slot, BitVec.ofNat 8 payload.length] ++ payload

/-- Format `IMAGE` (R153, R240). -/
def imageFrame (init : Byte) (payload : List Byte) : List Byte :=
  [0x20, init, 0x00, BitVec.ofNat 8 payload.length] ++ payload

/-- The bytes the block transmits in a `STATUS` exchange (R154). -/
def statusFrame : List Byte := [0x00, 0x00]

/-- `e` of R159. -/
def roiEnd (p : Params) : Nat := if p.roiInclusive then 1 else 0

/-- The four fields `(xMin, xMax, yMin, yMax)` of a window, or none where R159 refuses it with `F_RANGE`. -/
def roiFields (p : Params) (x y w h : Nat) : Option (Nat × Nat × Nat × Nat) :=
  if p.roiInclusive ∧ (w = 0 ∨ h = 0) then none
  else
    if x < 65536 ∧ x + w - roiEnd p < 65536 ∧ y < 65536 ∧ y + h - roiEnd p < 65536 then
      some (x, x + w - roiEnd p, y, y + h - roiEnd p)
    else none

/-- The 8-byte ROI payload (R159). -/
def roiPayload : Nat × Nat × Nat × Nat → List Byte
  | (xMin, xMax, yMin, yMax) => be16 xMin ++ be16 xMax ++ be16 yMin ++ be16 yMax

/-- The two fill payloads (R157, R160). -/
def isFillByte (v : Byte) : Bool := v == 0x00 || v == 0xFF

/-- Why a byte sequence is none of the block's frames (R158, R166 (a)). -/
inductive DecodeError where
  /-- no format has this many bytes -/
  | badWidth
  /-- a 2-byte exchange that does not transmit two zero bytes -/
  | badStatusPad
  /-- a 3-byte frame that is no simple command -/
  | unknownSimple
  /-- the length byte is not the payload's byte count -/
  | badLength
  /-- a longer frame that is neither a parameterized command nor an image packet -/
  | unknownLong
deriving DecidableEq, Repr

/-- A 3-byte frame (R158, R164). -/
def decodeSimple (p : Params) (op sub slot : Byte) : Except DecodeError Instr :=
  if op = 0x20 ∧ sub = 0x0E then .ok (.erase slot)
  else if sub = 0x01 then
    if op = p.opUpdFull then .ok (.updFull slot)
    else if op = p.opUpdFl then .ok (.updFl slot)
    else if op = p.opUpdFlinv then .ok (.updFlinv slot)
    else .error .unknownSimple
  else .error .unknownSimple

/-- The window of an 8-byte ROI payload: the inverse of `roiPayload` after `roiFields` (R159). -/
def decodeRoi (p : Params) (slot : Byte) : List Byte → Option Instr
  | [a, b, c, d, e, f, g, h] =>
    if ofBe16 a b ≤ ofBe16 c d ∧ ofBe16 e f ≤ ofBe16 g h then
      some (.roiSet slot (ofBe16 a b) (ofBe16 e f) (ofBe16 c d + roiEnd p - ofBe16 a b)
        (ofBe16 g h + roiEnd p - ofBe16 e f))
    else none
  | _ => none

/-- A parameterized command's subcode, slot and payload (R158 to R162). -/
def decodeParam (p : Params) (sub slot : Byte) (payload : List Byte) : Option Instr :=
  if sub = 0x0A then decodeRoi p slot payload
  else if sub = 0x0B then
    match payload with
    | [v] => if isFillByte v then some (.fillVal slot v) else none
    | _ => none
  else if sub = 0x0C then
    match payload with
    | [src] => some (.copySlot slot src)
    | _ => none
  else if sub = 0x0D then
    match payload with
    | [] => some (.dpReset slot)
    | _ => none
  else none

/-- A frame of four bytes or more whose length byte is right: a parameterized command, else an image packet. Where
`P_OP_PARAM` is 0x20 and an image packet's initByte is a parameterized subcode, the two formats can give one frame
(R167); it is then read as the parameterized command (log entry 16). -/
def decodeLong (p : Params) (op sub slot : Byte) (payload : List Byte) : Except DecodeError Instr :=
  match if op = p.opParam then decodeParam p sub slot payload else none with
  | some i => .ok i
  | none => if op = 0x20 ∧ slot = 0x00 then .ok (.imgPkt sub payload) else .error .unknownLong

/-- The instruction whose frame a whole transaction is (R155), total on every byte sequence. -/
def decode (p : Params) : List Byte → Except DecodeError Instr
  | [a, b] => if a = 0x00 ∧ b = 0x00 then .ok .statusRead else .error .badStatusPad
  | [op, sub, slot] => decodeSimple p op sub slot
  | op :: sub :: slot :: len :: payload =>
    if payload.length = len.toNat then decodeLong p op sub slot payload else .error .badLength
  | _ => .error .badWidth

/-- The frame of an instruction that has one of its own (R158): none for the other rows of the table, and none where the
operands are not encodable (R156, R159, R160). -/
def encode (p : Params) : Instr → Option (List Byte)
  | .erase slot => some (simpleFrame 0x20 0x0E slot)
  | .updFull slot => some (simpleFrame p.opUpdFull 0x01 slot)
  | .updFl slot => some (simpleFrame p.opUpdFl 0x01 slot)
  | .updFlinv slot => some (simpleFrame p.opUpdFlinv 0x01 slot)
  | .roiSet slot x y w h => (roiFields p x y w h).map fun f => paramFrame p.opParam 0x0A slot (roiPayload f)
  | .fillVal slot v => if isFillByte v then some (paramFrame p.opParam 0x0B slot [v]) else none
  | .copySlot slot src => some (paramFrame p.opParam 0x0C slot [src])
  | .dpReset slot => some (paramFrame p.opParam 0x0D slot [])
  | .imgPkt init payload => if payload.length ≤ 255 then some (imageFrame init payload) else none
  | .statusRead => some statusFrame
  | .classify _ _ | .isBusy | .waitBusy _ | .waitFree | .imgNew _ _ | .imgClear _ _ | .imgComposite _ _ _ _
  | .bisNew _ _ _ | .bisView _ _ | .pktSplit _ _ | .construct | .teardown => none
  | .sendImage _ _ _ | .sendImagePi _ | .sendImageRoi _ _ _ _ _ _ | .fill _ | .fillRoi _ _ _ _ _
  | .copyRoi _ _ _ _ _ | .eraseP | .updateP | .updateFlP | .updateFlinvP => none

/-- A row of spec/opcode_table.json that has a match and a mask: the bytes they cover, read as one big-endian number, and
how many bytes of zeros complete the frame. -/
structure TableRow where
  covered : Nat
  mask : Nat
  value : Nat
  operandBytes : Nat
deriving DecidableEq, Repr

/-- The rows' matches and masks, in the order they are tried (log entry 17). The three update rows have one match and mask in
the table. -/
def tableRows : List TableRow :=
  [⟨2, 0xFFFF, 0x0000, 0⟩,            -- STATUS_READ
   ⟨3, 0xFFFF00, 0x200E00, 0⟩,        -- ERASE slot
   ⟨4, 0x00FF00FF, 0x000A0008, 8⟩,    -- ROI_SET slot, x, y, w, h
   ⟨4, 0x00FF00FF, 0x000B0001, 1⟩,    -- FILL_VAL slot, v
   ⟨4, 0x00FF00FF, 0x000C0001, 1⟩,    -- COPY_SLOT slot, src
   ⟨4, 0x00FF00FF, 0x000D0000, 0⟩,    -- DP_RESET slot
   ⟨3, 0x00FF00, 0x000100, 0⟩,        -- UPD_FULL slot, UPD_FL slot, UPD_FLINV slot
   ⟨3, 0xFF00FF, 0x200000, 1⟩]        -- IMG_PKT init, payload (the length byte of an empty payload)

/-- `n` bytes of `w`, most significant first. -/
def wordBytes (w : Nat) : Nat → List Byte
  | 0 => []
  | n + 1 => BitVec.ofNat 8 (w / 256 ^ n) :: wordBytes w n

/-- The configuration the table's words are read under: the table leaves the open opcode bytes (R17, R18) no bits, so
they are zero in its words (log entry 17). -/
def tableParams : Params := {}

/-- What the decoder reads from a word of `nbits` bits as a word of row `r`: its bytes laid out in frame order, then the
row's operand bytes as zeros. A word that does not match the row, or is too short for its mask or too long for the bytes
it covers, is none of it. -/
def rowInstr (nbits w : Nat) (r : TableRow) : Option Instr :=
  if r.mask < 2 ^ nbits ∧ w < 256 ^ r.covered ∧ w &&& r.mask = r.value then
    (decode tableParams (wordBytes w r.covered ++ List.replicate r.operandBytes 0)).toOption
  else none

/-- The instruction the decoder reads from a word of the opcode table: the first row, in the order of `tableRows`, whose
frame the word decodes to. DESIGN CHOICE (log entry 17): the table's masks overlap, and it does not say which row such a
word is of. `ERASE` comes before `IMG_PKT` (0x200E00 is `ERASE`, not `IMG_PKT` with init 0x0E); a word of the update rows
whose opcode byte is no update opcode of `tableParams` goes on to `IMG_PKT` (0x200100 is `IMG_PKT` with init 0x01); the
opcode byte tells the three update rows apart, and the byte 0x00 that the table leaves there is `UPD_FULL`'s. -/
def decodeTableWord (nbits w : Nat) : Option Instr :=
  if w < 2 ^ nbits then tableRows.findSome? (rowInstr nbits w) else none

end Sys2Proof
end

