-- ==== Sys2Proof/Machine/State.lean ====
section
/-!
DEFINITION. The machine's state as plain data: the record `S` of 10_state.md R73, the parameters of the instance, the
host's port, the clock, and the feeds that stand for the environment's draws. Results, events and fault codes are here
too. `State.reset` is the reset state of 70_reset_and_hazards.md R451.
-/

namespace Sys2Proof.Machine

/-- `S.phase` (R74). -/
inductive Phase where
  | unconstructed
  | operational
  | failed
  | tornDown
deriving DecidableEq, Repr

/-- The model fault codes (R412). A code is recorded in `State.fault` and answered to the host; the machine goes on. -/
inductive FaultCode where
  | fState
  | fLen
  | fPlen
  | fRange
  | fValue
  | fGeometry
  | fOverrun
  | fUnwritten
deriving DecidableEq, Repr

/-- `S.last_update`: a time or `Never` (R76). -/
inductive Stamp where
  | never
  | time (t : Nat)
deriving DecidableEq, Repr

/-- `S.cs` (R77). -/
inductive ChipSelect where
  | deselected
  | selected
deriving DecidableEq, Repr

/-- The outcome of a wait (R295). `S.last_wait` is `none` before the first one (R78). -/
inductive WaitOutcome where
  | cleared
  | timedOut
deriving DecidableEq, Repr

/-- The raw class of a status pair (R165, R270). -/
inductive RawClass where
  | notReady
  | success
  | errA
  | errB
  | generic
deriving DecidableEq, Repr

/-- The result of a status read (R272): never not-ready. -/
inductive StatusClass where
  | success
  | errA
  | errB
  | generic
deriving DecidableEq, Repr

/-- The busy state that R292 derives. -/
inductive BusyState where
  | idle
  | softBlackout
  | hardwareBusy
deriving DecidableEq, Repr

/-- The kinds of a transaction (R80). -/
inductive TxnKind where
  | send
  | exchange
deriving DecidableEq, Repr

/-- The pins the block reads (R80): the busy pin only. -/
inductive Pin where
  | busy
deriving DecidableEq, Repr

/-- The log kinds (R80, R435). -/
inductive LogKind where
  | waitTimeout
  | statusFail
  | packetFail
  | dpResetFail
deriving DecidableEq, Repr

/-- The events of `S.trace` (R80). -/
inductive Event where
  | txn (kind : TxnKind) (tx rx : List Byte)
  | pinRead (pin : Pin) (level : Level)
  | slept (d : Nat)
  | log (k : LogKind)
deriving DecidableEq, Repr

/-- The responses of R181. -/
inductive Response where
  | unit
  | bool (b : Bool)
  | raw (c : RawClass)
  | status (c : StatusClass)
  | wait (o : WaitOutcome)
  | packets (l : List (Nat × Nat))
  | image (img : PanelImage)
  | bis (b : Bis)
  | bytes (l : List Byte)
  | fault (c : FaultCode)
deriving DecidableEq, Repr

/-- What the environment will answer: the scripted draws first, then the free values from the `taken`-th on. -/
structure Feed (α : Type) where
  script : List α
  taken : Nat
deriving DecidableEq, Repr

/-- The state. The first seven fields are the record `S` (R73); the others are what the spec names beside it
(INVENTORY.md, State). -/
structure State where
  phase : Phase
  fault : Option FaultCode
  initXfer : Bool
  lastUpdate : Stamp
  cs : ChipSelect
  lastWait : Option WaitOutcome
  trace : List Event
  /-- the parameters, fixed for the instance (R85, R451; log entry 4) -/
  cfg : Params
  /-- the clock (R8, R290) -/
  clock : Nat
  /-- how far the clock advances before each reading (R290 (c)) -/
  ticks : Feed Nat
  /-- the busy pin's level at each sample (R291) -/
  line : Feed Level
  /-- the bytes the panel answers (R271) -/
  panel : Feed Byte
  /-- whether each acquisition of a collaborator succeeds (R450) -/
  acquires : Feed Bool
  /-- the requests the host hands the block, in order (R6, R180) -/
  requests : List Instr
  /-- one response per request, in order (R84, R181) -/
  responses : List Response
  /-- the traces of the instances before this one (R455) -/
  history : List (List Event)
deriving DecidableEq, Repr

/-- Why a step stops with a fault. The fault codes of R412 are no reason: they are next states. -/
inductive Fault where
  /-- Raised by `step` when the value at the request port is no request of R180: a PanelImage or a Bit-Image Source
  operand that does not have that type's shape (`Instr.wf`). Safe: the host has no such value to hand over. -/
  | illFormedRequest
deriving DecidableEq, Repr

/-- Why a step is refused. -/
inductive Refusal where
  /-- Raised by `exec` for an instruction that has no meaning yet, by its mnemonic. Safe: the model stops. -/
  | notModelled (mnemonic : String)
deriving DecidableEq, Repr

/-- `S.last_update` after a construction at clock `t` (R76, R450). -/
def stampAtReset (p : Params) (t : Nat) : Stamp :=
  match p.tsReset with
  | .never => .never
  | .atReset => .time t

/-- The reset state: the state after a construction that succeeds (R451). No request is pending and none has been
answered (log entry 6); the parameters, the clock and every draw are free values. -/
def State.reset : State where
  phase := .operational
  fault := none
  initXfer := false
  lastUpdate := stampAtReset Config.params Config.clockAtReset
  cs := .deselected
  lastWait := none
  trace := []
  cfg := Config.params
  clock := Config.clockAtReset
  ticks := ⟨[], 0⟩
  line := ⟨[], 0⟩
  panel := ⟨[], 0⟩
  acquires := ⟨[], 0⟩
  requests := []
  responses := []
  history := []

/-- The state before the first construction (R74). The spec gives it a phase only (log entry 7). -/
def State.unconstructed : State := { State.reset with phase := .unconstructed, lastUpdate := .never }

end Sys2Proof.Machine
end

