-- ==== Sys2Proof/Machine/Ops.lean ====
section
/-!
DEFINITION. The named operations over the state: the port, clock and log primitives of 00_scope.md R40, the buffer
primitives of R41, the host's port, raising a fault (R42, R410) and the admission of a request (R413). An operation that
gives a value answers the pair of the value and the next state.
-/

namespace Sys2Proof.Machine

/-! ## Draws (R43) -/

/-- The feed's next draw: the script's head, else the next free value (log entry 3). -/
def pull {α : Type} (free : Nat → α) (f : Feed α) : α × Feed α :=
  match f.script with
  | a :: rest => (a, ⟨rest, f.taken⟩)
  | [] => (free f.taken, ⟨[], f.taken + 1⟩)

/-- `n` draws in order. -/
def pullMany {α : Type} (free : Nat → α) : Nat → Feed α → List α × Feed α
  | 0, f => ([], f)
  | n + 1, f =>
    let a := pull free f
    let rest := pullMany free n a.2
    (a.1 :: rest.1, rest.2)

/-! ## Events, chip select, port (R40, R431) -/

/-- Appends one event to `S.trace` (R40, R80). -/
def emit (e : Event) (s : State) : State := { s with trace := s.trace ++ [e] }

/-- `assertSelect()` (R431). -/
def assertSelect (s : State) : State := { s with cs := .selected }

/-- `deassertSelect()` (R431). -/
def deassertSelect (s : State) : State := { s with cs := .deselected }

/-- `Send(tx)`: one chip-select-framed write (R40, R431). -/
def send (tx : List Byte) (s : State) : State :=
  deassertSelect (emit (.txn .send tx []) (assertSelect s))

/-- `Exchange(tx)`: one chip-select-framed full-duplex exchange; the answer is a draw of the same length (R40, R431). -/
def exchange (tx : List Byte) (s : State) : List Byte × State :=
  let rx := pullMany Config.freeByte tx.length s.panel
  (rx.1, deassertSelect { emit (.txn .exchange tx rx.1) (assertSelect s) with panel := rx.2 })

/-- `Sample()`: one read of the busy pin, whose raw level is a draw (R40, R291). -/
def sample (s : State) : Level × State :=
  let l := pull Config.freeLevel s.line
  (l.1, { emit (.pinRead .busy l.1) s with line := l.2 })

/-- `Now()`: one reading of the clock, which may have advanced by any amount (R40, R290 (c); log entry 8). -/
def readClock (s : State) : Nat × State :=
  let d := pull Config.freeAdvance s.ticks
  (s.clock + d.1, { s with clock := s.clock + d.1, ticks := d.2 })

/-- `Sleep(d)`: the clock is at least `d` later at every reading after it (R40, R290 (b)). -/
def sleepFor (d : Nat) (s : State) : State := emit (.slept d) { s with clock := s.clock + d }

/-- `Log(k)` (R40, R435). -/
def logEvent (k : LogKind) (s : State) : State := emit (.log k) s

/-- One acquisition of a collaborator, which succeeds or not as a draw has it (R450). -/
def acquire (s : State) : Bool × State :=
  let a := pull Config.freeAcquire s.acquires
  (a.1, { s with acquires := a.2 })

/-! ## The host's port (R6, R84, R181) -/

/-- The response to a request. -/
def respond (r : Response) (s : State) : State := { s with responses := s.responses ++ [r] }

/-- The next request the host hands the block, and the state with it taken from the port; none while the host has none
(R6, R451). The block has no program counter and fetches no instructions (R71). -/
def fetch (s : State) : Option (Instr × State) :=
  match s.requests with
  | [] => none
  | i :: rest => some (i, { s with requests := rest })

/-- The block waits for the host's request: nothing happens (R451; log entry 2). -/
def idle (s : State) : State := s

/-- A request put at the head of the port, so that it is the next one the block takes. -/
def offer (i : Instr) (s : State) : State := { s with requests := i :: s.requests }

/-! ## Faults and admission (R42, R410, R413) -/

/-- `raise Fault(code)`: taking a model fault. The code is recorded and answered; nothing else of the state changes
(R42, R410, R421; log entry 11). The return from the faulted state is `TEARDOWN` then `CONSTRUCT` (R422). -/
def raise (c : FaultCode) (s : State) : State := respond (.fault c) { s with fault := some c }

/-- An operation's own checks: the first that fails raises its code before any effect (R410, R414). -/
def checked {α : Type} (check : Except FaultCode α) (run : α → State → State) (s : State) : State :=
  match check with
  | .error c => raise c s
  | .ok a => run a s

/-- Admission of every request but `CONSTRUCT` and `TEARDOWN` (R413): the phase, then the recorded fault, then the
operation itself. A request refused because a fault is recorded gets that code again and changes nothing of `S`. -/
def admitted (s : State) (body : State → State) : Host.Outcome State Fault Refusal :=
  .next
    (if s.phase = .operational then
      match s.fault with
      | some c => respond (.fault c) s
      | none => body s
    else raise .fState s)

/-! ## Buffers (R41, R114) -/

/-- The bytes `buf[off..off+n)`, fewer when the buffer ends before. -/
def slice {α : Type} (buf : List α) (off n : Nat) : List α := (buf.drop off).take n

/-- `MemRead(buf, off, n)`: the bound is checked first, then that every byte is written (R41, R114). -/
def memRead (buf : Buffer) (off n : Nat) : Except FaultCode (List Byte) :=
  if off + n > buf.length then .error .fOverrun
  else if (slice buf off n).all BufByte.isWritten then .ok ((slice buf off n).map BufByte.val)
  else .error .fUnwritten

/-- The buffer with the bytes at `off`, `off + 1`, … replaced by `v`. -/
def splice (buf : Buffer) (off : Nat) (v : Buffer) : Buffer :=
  buf.take off ++ v ++ buf.drop (off + v.length)

/-- `MemWrite(buf, off, n, v)`, for the `n` bytes of `v`, under the bound check of `MemRead` (R41). -/
def memWrite (buf : Buffer) (off : Nat) (v : Buffer) : Except FaultCode Buffer :=
  if off + v.length > buf.length then .error .fOverrun else .ok (splice buf off v)

end Sys2Proof.Machine
end

