-- ==== Sys2Proof/Machine/Operands.lean ====
section
/-!
DEFINITION. Operand forms: bits within bytes (00_scope.md R38, 20_memory.md R114, R117), PanelImage headers and pixel
locations (40_bit_image.md R201, R202), and the operand checks that raise a fault code before any effect (R412, R414).
-/

namespace Sys2Proof.Machine

/-- `rev8(b)`: bit `i` is bit `7 - i` of `b` (R38). -/
def rev8 (b : Byte) : Byte :=
  b.extractLsb' 0 1 ++ b.extractLsb' 1 1 ++ b.extractLsb' 2 1 ++ b.extractLsb' 3 1 ++
    b.extractLsb' 4 1 ++ b.extractLsb' 5 1 ++ b.extractLsb' 6 1 ++ b.extractLsb' 7 1

/-- `~b` (R38). -/
def notByte (b : Byte) : Byte := ~~~b

/-- A written byte. -/
def writtenByte (b : Byte) : BufByte := ⟨b, 0xFF⟩

/-- A byte never written (R114). -/
def unwrittenByte : BufByte := ⟨0, 0⟩

/-- Bit `k` written with `v`; the other bits keep their values and whether they are written (R114). -/
def writeBit (b : BufByte) (k : Nat) (v : Bool) : BufByte :=
  ⟨if v then b.val ||| BitVec.twoPow 8 k else b.val &&& ~~~BitVec.twoPow 8 k, b.written ||| BitVec.twoPow 8 k⟩

/-- `HEADER_LEN` (R157). -/
def headerLen : Nat := 16

/-- Byte `i` of `P_HEADER(w, h)`: the resolution fields are `BE16(w)` and `BE16(h)` at their offsets (R201 (b)); the other
bytes are open and depend on `w` and `h` only (R201 (c); log entry 15). -/
def headerByte (p : Params) (w h i : Nat) : Byte :=
  if i = p.hdrXOff then BitVec.ofNat 8 (w / 256)
  else if i = p.hdrXOff + 1 then BitVec.ofNat 8 (w % 256)
  else if i = p.hdrYOff then BitVec.ofNat 8 (h / 256)
  else if i = p.hdrYOff + 1 then BitVec.ofNat 8 (h % 256)
  else Config.headerRest w h i

/-- `P_HEADER(w, h)` (R31, R201). -/
def header (p : Params) (w h : Nat) : List Byte := (List.range headerLen).map (headerByte p w h)

/-- The pixel index of `(px, py)` in an image of width `w`: rows are not padded (R202). -/
def pixelIndex (w px py : Nat) : Nat := py * w + px

/-- The bit of a pixel byte that holds pixel index `i`: the first pixel of a byte is its most significant bit (R117). -/
def pixelBit (i : Nat) : Nat := 7 - i % 8

/-- Pixel `(px, py)` of an image set to `v` (R202). -/
def setPixel (img : PanelImage) (px py : Nat) (v : Bool) : PanelImage :=
  let i := pixelIndex img.w px py
  { img with bytes := img.bytes.modify (headerLen + i / 8) (fun b => writeBit b (pixelBit i) v) }

/-- Bit `j` of a view, as pixels are packed (R204). -/
def viewBit (v : List Byte) (j : Nat) : Bool := (v.getD (j / 8) 0).getLsbD (pixelBit j)

/-- The window check of R159, whose fields the ROI frame carries. -/
def roiCheck (p : Params) (x y w h : Nat) : Except FaultCode (Nat × Nat × Nat × Nat) :=
  match roiFields p x y w h with
  | some f => .ok f
  | none => .error .fRange

/-- `fillbyte(white)` (R350). -/
def fillByte (p : Params) (white : Bool) : Byte :=
  (if white then 0xFF else 0x00) ^^^ (if p.fillInvert then 0xFF else 0x00)

/-- The fill payload check (R160, R236). -/
def fillCheck (v : Byte) : Except FaultCode Byte := if isFillByte v then .ok v else .error .fValue

/-- The image packet's payload length check (R156, R241). -/
def payloadCheck (payload : List Byte) : Except FaultCode (List Byte) :=
  if payload.length > 255 then .error .fLen else .ok payload

/-- The checks of `IMG_NEW`, in their order (R200, R414). -/
def imgNewCheck (w h : Nat) : Except FaultCode Unit :=
  if w ≥ 65536 ∨ h ≥ 65536 then .error .fRange
  else if w * h % 8 ≠ 0 then .error .fGeometry
  else .ok ()

/-- The check of `IMG_COMPOSITE`: the source fits (R204). -/
def compositeCheck (img : PanelImage) (bis : Bis) (x y : Nat) : Except FaultCode Unit :=
  if x + bis.w > img.w ∨ y + bis.h > img.h then .error .fRange else .ok ()

/-- The checks of `BIS_NEW`, in their order (R205, R414). -/
def bisNewCheck (w h : Nat) (raw : List Byte) : Except FaultCode Unit :=
  if w * h % 8 ≠ 0 then .error .fGeometry
  else if raw.length < w * h / 8 then .error .fOverrun
  else .ok ()

/-- The checks of `SEND_IMAGE`, in their order (R324, R414); the bytes `buf[0..len)` that it then sends. -/
def sendImageCheck (buf : Buffer) (len plen : Nat) : Except FaultCode (List Byte) :=
  if plen = 0 then .error .fPlen
  else if plen > 255 then .error .fLen
  else memRead buf 0 len

/-- `RoiPlen(w)` (R326). -/
def roiPlen (w : Nat) : Nat := if w > 250 then w / 2 else w

/-- `h2` of R327: the clamped height, for `y` up to the bound. -/
def roiClamp (p : Params) (y h : Nat) : Nat := if y + h > p.roiClampH then p.roiClampH - y else h

/-- The checks of `SEND_IMAGE_ROI`, in their order (R327, R414); the ROI fields and the bytes that it then sends. -/
def sendRoiCheck (p : Params) (buf : Buffer) (x y w h : Nat) :
    Except FaultCode ((Nat × Nat × Nat × Nat) × List Byte) :=
  if y > p.roiClampH then .error .fRange
  else if roiPlen w = 0 then .error .fPlen
  else if roiPlen w > 255 then .error .fLen
  else
    match roiCheck p x y w (roiClamp p y h) with
    | .error c => .error c
    | .ok f =>
      match memRead buf 0 buf.length with
      | .error c => .error c
      | .ok data => .ok (f, data)

/-- The image's own length as the transfers count it (R112, R325). -/
def imageLen (img : PanelImage) : Nat := headerLen + img.w * img.h / 8

/-- A Bit-Image Source's declared length, its `length()`: it counts a header that the views do not have (R113, R208;
90_conflicts.md C7). A send of a view with it runs past the view's end (R472). -/
def bisLen (bis : Bis) : Nat := headerLen + bis.w * bis.h / 8

end Sys2Proof.Machine
end

