-- ==== Sys2Proof/Machine/BitImage.lean ====
section
/-!
DEFINITION. Bit-image data (40_bit_image.md): `IMG_NEW`, `IMG_CLEAR`, `IMG_COMPOSITE`, `BIS_NEW`, `BIS_VIEW`. They are
pure: each answers a new value and touches nothing of `S` but through admission and faults.
-/

namespace Sys2Proof.Machine

/-- The image `IMG_NEW` gives, past its checks (R200). -/
def newImage (p : Params) (w h : Nat) : PanelImage :=
  ⟨w, h, (header p w h).map writtenByte ++ List.replicate (w * h / 8) unwrittenByte⟩

/-- Every pixel byte 0xFF or 0x00, the header unchanged (R203). -/
def clearImage (img : PanelImage) (white : Bool) : PanelImage :=
  { img with
    bytes := splice img.bytes headerLen
      (List.replicate (img.w * img.h / 8) (writtenByte (if white then 0xFF else 0x00))) }

/-- The view `which` of a source (R206). -/
def bisViewOf (bis : Bis) : View → List Byte
  | .normal => bis.normal
  | .inverted => bis.inverted

/-- Row `sy` of the source written into the image (R204). -/
def compositeRow (v : List Byte) (bw x y sy : Nat) (img : PanelImage) : PanelImage :=
  (List.range bw).foldl (fun im sx => setPixel im (x + sx) (y + sy) (viewBit v (pixelIndex bw sx sy))) img

/-- Every pixel of the source written at the offset, row by row (R204). -/
def compositeImage (p : Params) (img : PanelImage) (bis : Bis) (x y : Nat) : PanelImage :=
  (List.range bis.h).foldl (fun im sy => compositeRow (bisViewOf bis p.compositeView) bis.w x y sy im) img

/-- The source `BIS_NEW` gives, past its checks: bits reversed within each byte, and the complement (R205). -/
def newBis (w h : Nat) (raw : List Byte) : Bis :=
  let bytes := raw.take (w * h / 8)
  ⟨w, h, bytes.map rev8, bytes.map fun b => notByte (rev8 b)⟩

/-- `IMG_NEW w, h` (R200). -/
def execImgNew (w h : Nat) (s : State) : Host.Outcome State Fault Refusal :=
  admitted s (checked (imgNewCheck w h) fun _ s => respond (.image (newImage s.cfg w h)) s)

/-- `IMG_CLEAR img, white` (R203). -/
def execImgClear (img : PanelImage) (white : Bool) (s : State) : Host.Outcome State Fault Refusal :=
  admitted s (respond (.image (clearImage img white)))

/-- `IMG_COMPOSITE img, bis, x, y` (R204). -/
def execImgComposite (img : PanelImage) (bis : Bis) (x y : Nat) (s : State) : Host.Outcome State Fault Refusal :=
  admitted s (checked (compositeCheck img bis x y) fun _ s => respond (.image (compositeImage s.cfg img bis x y)) s)

/-- `BIS_NEW w, h, raw` (R205). -/
def execBisNew (w h : Nat) (raw : List Byte) (s : State) : Host.Outcome State Fault Refusal :=
  admitted s (checked (bisNewCheck w h raw) fun _ s => respond (.bis (newBis w h raw)) s)

/-- `BIS_VIEW bis, which` (R206). -/
def execBisView (bis : Bis) (which : View) (s : State) : Host.Outcome State Fault Refusal :=
  admitted s (respond (.bytes (bisViewOf bis which)))

end Sys2Proof.Machine
end

