-- ==== Sys2Proof/Machine/Lifecycle.lean ====
section
/-!
DEFINITION. Construction and teardown (70_reset_and_hazards.md): `CONSTRUCT`, the block's only reset, and `TEARDOWN`.
-/

namespace Sys2Proof.Machine

/-- The traces of the instances so far: an instance's trace is its own history (R455). Before the first construction
there is no instance. -/
def archive (s : State) : List (List Event) :=
  if s.phase = .unconstructed then s.history else s.history ++ [s.trace]

/-- `S` replaced as a whole by a new instance's (R450). What is no field of `S` is untouched but for `history`. -/
def newInstance (phase : Phase) (lastUpdate : Stamp) (s : State) : State :=
  { s with
    phase := phase, fault := none, initXfer := false, lastUpdate := lastUpdate, cs := .deselected, lastWait := none,
    trace := [], history := archive s }

/-- A construction that acquired both collaborators: the state of R451. The clock is read only for `AtReset` (R450). -/
def constructed (s : State) : State :=
  match s.cfg.tsReset with
  | .never => newInstance .operational .never s
  | .atReset =>
    let t := readClock s
    newInstance .operational (.time t.1) t.2

/-- The acquisitions of a construction: pin control first, the transport only after it (R450). The power-up sequence
between them is opaque: no event, no state (D62). -/
def acquireBoth (s : State) : Bool × State :=
  let p := acquire s
  if p.1 then acquire p.2 else (false, p.2)

/-- The body of `CONSTRUCT`, in a phase that admits it (R450, R452). -/
def constructOp (s : State) : State :=
  let a := acquireBoth s
  if a.1 then respond (.bool true) (constructed a.2)
  else respond (.bool false) (newInstance .failed .never a.2)

/-- `CONSTRUCT` (R450): admitted in every phase but `Operational`, whatever `S.fault` holds. -/
def execConstruct (s : State) : Host.Outcome State Fault Refusal :=
  .next (if s.phase = .operational then raise .fState s else constructOp s)

/-- The body of `TEARDOWN` (R453). The power-down sequence is opaque: no event, no state (D62). -/
def teardownOp (s : State) : State := respond .unit { s with phase := .tornDown, cs := .deselected }

/-- `TEARDOWN` (R453): admitted in `Operational`, whether or not a fault is recorded. -/
def execTeardown (s : State) : Host.Outcome State Fault Refusal :=
  .next (if s.phase = .operational then teardownOp s else raise .fState s)

end Sys2Proof.Machine
end

