-- ==== Sys2Proof/Machine/Flags.lean ====
section
/-!
DEFINITION. The block has no condition codes (10_state.md R72); what an operation decides by is here: the class of a
status pair (42_status.md R270), the busy line and the elapsed time (43_busy_timing.md R292), and the accumulation of
packet results (00_scope.md R32).
-/

namespace Sys2Proof.Machine

/-- `Classify(b0, b1)` (R165, R270). -/
def classifyPair (b0 b1 : Byte) : RawClass :=
  if (b0 = 0x00 ∧ b1 = 0x00) ∨ (b0 = 0xFF ∧ b1 = 0xFF) then .notReady
  else if b0 = 0x90 ∧ b1 = 0x00 then .success
  else if b0 = 0x67 ∧ b1 = 0x00 then .errA
  else if b0 = 0x6A ∧ b1 = 0x00 then .errB
  else .generic

/-- The status class of an answer the panel has given; none while it is not ready (R272). -/
def answered : RawClass → Option StatusClass
  | .notReady => none
  | .success => some .success
  | .errA => some .errA
  | .errB => some .errB
  | .generic => some .generic

/-- `LineActive(level)` (R292). -/
def lineActive (p : Params) (l : Level) : Bool :=
  match l with
  | .high => p.busyActiveHigh
  | .low => !p.busyActiveHigh

/-- `Elapsed(t)`, none for infinity (R292). Where `t` lies before `S.last_update`, which no run reaches, the rule gives no
value and it is a free one (log entry 9). -/
def elapsed (lastUpdate : Stamp) (t : Nat) : Option Nat :=
  match lastUpdate with
  | .never => none
  | .time u => some (if u ≤ t then t - u else Config.elapsedBefore u t)

/-- `e < T`, false for an infinite `e` (R292). -/
def below (e : Option Nat) (bound : Nat) : Bool :=
  match e with
  | none => false
  | some e => decide (e < bound)

/-- `BusyState(t, level)` (R292). -/
def busyState (p : Params) (lastUpdate : Stamp) (t : Nat) (l : Level) : BusyState :=
  if below (elapsed lastUpdate t) p.tGuard then .softBlackout
  else if lineActive p l then .hardwareBusy
  else .idle

/-- The answer of `IS_BUSY` at clock `t` with line level `l` (R293). -/
def busyAnswer (p : Params) (lastUpdate : Stamp) (t : Nat) (l : Level) : Bool :=
  below (elapsed lastUpdate t) p.tGuard || (lineActive p l && below (elapsed lastUpdate t) p.tCap)

/-- What an accumulation starts from (R322). -/
def accumStart : Accum → Bool
  | .and => true
  | .or => false

/-- One packet's result accumulated (R322). -/
def accumulate (a : Accum) (res ok : Bool) : Bool :=
  match a with
  | .and => res && ok
  | .or => res || ok

end Sys2Proof.Machine
end

