-- ==== Sys2Proof/Machine/Busy.lean ====
section
/-!
DEFINITION. The busy/timing state machine (43_busy_timing.md): `IS_BUSY`, `WAIT_BUSY` and `WAIT_FREE`, and the bounded
wait that the framer uses after each frame.
-/

namespace Sys2Proof.Machine

/-- A wait's end that found the line inactive (R295). -/
def waitCleared (s : State) : State := { s with lastWait := some .cleared }

/-- A wait's end past its bound: recorded, then logged (R295). -/
def waitTimedOut (s : State) : State := logEvent .waitTimeout { s with lastWait := some .timedOut }

/-- The loop of `WaitForBusy(T)`: sample, then the deadline test, then the sleep (R295). Each iteration sleeps at least one
tick, so `T + 1` iterations always end it (R296; log entry 10). -/
def waitLoop (T start : Nat) : Nat → State → WaitOutcome × State
  | 0, s => (.timedOut, waitTimedOut s)
  | n + 1, s =>
    let l := sample s
    if lineActive s.cfg l.1 then
      let t := readClock l.2
      if t.1 - start ≥ T then (.timedOut, waitTimedOut t.2)
      else waitLoop T start n (sleepFor s.cfg.tPoll t.2)
    else (.cleared, waitCleared l.2)

/-- `WaitForBusy(T)` (R295). It reads the line only, never `S.last_update`. -/
def waitForBusy (T : Nat) (s : State) : WaitOutcome × State :=
  let start := readClock s
  waitLoop T start.1 (T + 1) start.2

/-- `IsBusy()`: the clock, then the pin, on every call (R293). -/
def isBusyQuery (s : State) : Bool × State :=
  let t := readClock s
  let l := sample t.2
  (busyAnswer s.cfg s.lastUpdate t.1 l.1, l.2)

/-- How many queries the loop of `WAIT_FREE` can need: every query at clock `last_update + max(T_GUARD, T_CAP)` or later
answers false, and each iteration sleeps at least one tick (R298; log entry 10). -/
def freeBound (s : State) : Nat :=
  match s.lastUpdate with
  | .never => 1
  | .time u => u + max s.cfg.tGuard s.cfg.tCap - s.clock + 1

/-- The loop of `WaitUntilFree()` (R297). -/
def freeLoop : Nat → State → State
  | 0, s => s
  | n + 1, s =>
    let q := isBusyQuery s
    if q.1 then freeLoop n (sleepFor s.cfg.tFreeSleep q.2) else q.2

/-- `WaitUntilFree()`: one bounded wait at `T_LONG`, whose outcome does not matter, then the loop (R297). -/
def waitUntilFree (s : State) : State :=
  let w := waitForBusy s.cfg.tLong s
  freeLoop (freeBound w.2) w.2

/-- `IS_BUSY` (R293). -/
def execIsBusy (s : State) : Host.Outcome State Fault Refusal :=
  admitted s fun s => let q := isBusyQuery s; respond (.bool q.1) q.2

/-- `WAIT_BUSY t` (R295). -/
def execWaitBusy (t : Nat) (s : State) : Host.Outcome State Fault Refusal :=
  admitted s fun s => let w := waitForBusy t s; respond (.wait w.1) w.2

/-- `WAIT_FREE` (R297). -/
def execWaitFree (s : State) : Host.Outcome State Fault Refusal :=
  admitted s fun s => respond .unit (waitUntilFree s)

end Sys2Proof.Machine
end

