-- ==== Sys2Proof/Machine/Status.lean ====
section
/-!
DEFINITION. The status response decoder (42_status.md): `CLASSIFY` and `STATUS_READ`, and the status read that the framer
makes after parameterized commands and image packets.
-/

namespace Sys2Proof.Machine

/-- The status read's end with an answer: a non-success is logged (R272). -/
def statusEnd (c : StatusClass) (s : State) : State := if c = .success then s else logEvent .statusFail s

/-- `StatusRead()` with `n` exchanges left: while the panel is not ready the read is retried, never the command (R272). -/
def statusLoop : Nat → State → StatusClass × State
  | 0, s => (.generic, logEvent .statusFail s)
  | n + 1, s =>
    let rx := exchange statusFrame s
    match answered (classifyPair (rx.1.getD 0 0) (rx.1.getD 1 0)) with
    | some c => (c, statusEnd c rx.2)
    | none => statusLoop n rx.2

/-- `StatusRead()`: at most 3 exchanges (R272). -/
def statusReadOp (s : State) : StatusClass × State := statusLoop 3 s

/-- `CLASSIFY b0, b1` (R270). -/
def execClassify (b0 b1 : Byte) (s : State) : Host.Outcome State Fault Refusal :=
  admitted s (respond (.raw (classifyPair b0 b1)))

/-- `STATUS_READ` (R272, R274). -/
def execStatusRead (s : State) : Host.Outcome State Fault Refusal :=
  admitted s fun s => let c := statusReadOp s; respond (.status c.1) c.2

end Sys2Proof.Machine
end

