-- ==== Sys2Proof/Machine/Framer.lean ====
section
/-!
DEFINITION. The command framer (41_framer.md): the simple, parameterized and image-packet transactions with their waits
and status reads, and the nine framer requests.
-/

namespace Sys2Proof.Machine

/-- `SimpleCmd(op, sub, slot)`: the frame, and no status read (R230). -/
def simpleCmd (op sub slot : Byte) (s : State) : State := send (simpleFrame op sub slot) s

/-- `ParamCmd(sub, slot, payload, T)`: the frame once, its wait, its status read (R234). Its length check cannot fail: the
block's payloads have at most 8 bytes. -/
def paramCmd (sub slot : Byte) (payload : List Byte) (T : Nat) (s : State) : StatusClass × State :=
  statusReadOp (waitForBusy T (send (paramFrame s.cfg.opParam sub slot payload) s)).2

/-- The body of `ERASE` (R231). -/
def eraseOp (slot : Byte) (s : State) : State := (waitForBusy s.cfg.tLong (simpleCmd 0x20 0x0E slot s)).2

/-- `S.last_update <- Now()` (R233). -/
def stampUpdate (s : State) : State :=
  let t := readClock s
  { t.2 with lastUpdate := .time t.1 }

/-- `UpdateCmd(op, slot)`: the frame, the timestamp, the bounded wait on the raw line (R233). -/
def updateCmd (op slot : Byte) (s : State) : State :=
  (waitForBusy s.cfg.tLong (stampUpdate (simpleCmd op 0x01 slot s))).2

/-- The body of `ROI_SET`, past its check (R235). -/
def roiSetOp (slot : Byte) (f : Nat × Nat × Nat × Nat) (s : State) : State :=
  (paramCmd 0x0A slot (roiPayload f) s.cfg.tMedium s).2

/-- The body of `FILL_VAL`, past its check (R236). -/
def fillValOp (slot v : Byte) (s : State) : State := (paramCmd 0x0B slot [v] s.cfg.tMedium s).2

/-- The body of `COPY_SLOT` (R237). -/
def copySlotOp (slot src : Byte) (s : State) : State := (paramCmd 0x0C slot [src] s.cfg.tMedium s).2

/-- One data-pointer reset frame with its wait and status read (R238, R323). -/
def dpResetOp (slot : Byte) (s : State) : StatusClass × State := paramCmd 0x0D slot [] s.cfg.tLong s

/-- `IMG_PKT` with `n` attempts left: the same frame again until a status read gives `Success` (R241). -/
def imgPktLoop (frame : List Byte) : Nat → State → Bool × State
  | 0, s => (false, logEvent .packetFail s)
  | n + 1, s =>
    let c := statusReadOp (waitForBusy s.cfg.tShort (send frame s)).2
    if c.1 = .success then (true, c.2) else imgPktLoop frame n c.2

/-- The body of `IMG_PKT`, past its check: at most 4 sends (R240, R241). -/
def imgPktOp (init : Byte) (payload : List Byte) (s : State) : Bool × State :=
  imgPktLoop (imageFrame init payload) 4 s

/-- `ERASE slot` (R231). -/
def execErase (slot : Byte) (s : State) : Host.Outcome State Fault Refusal :=
  admitted s fun s => respond .unit (eraseOp slot s)

/-- `UPD_FULL slot` (R243). -/
def execUpdFull (slot : Byte) (s : State) : Host.Outcome State Fault Refusal :=
  admitted s fun s => respond .unit (updateCmd s.cfg.opUpdFull slot s)

/-- `UPD_FL slot` (R244). -/
def execUpdFl (slot : Byte) (s : State) : Host.Outcome State Fault Refusal :=
  admitted s fun s => respond .unit (updateCmd s.cfg.opUpdFl slot s)

/-- `UPD_FLINV slot` (R245). -/
def execUpdFlinv (slot : Byte) (s : State) : Host.Outcome State Fault Refusal :=
  admitted s fun s => respond .unit (updateCmd s.cfg.opUpdFlinv slot s)

/-- `ROI_SET slot, x, y, w, h` (R235). -/
def execRoiSet (slot : Byte) (x y w h : Nat) (s : State) : Host.Outcome State Fault Refusal :=
  admitted s (checked (roiCheck s.cfg x y w h) fun f s => respond .unit (roiSetOp slot f s))

/-- `FILL_VAL slot, v` (R236). -/
def execFillVal (slot v : Byte) (s : State) : Host.Outcome State Fault Refusal :=
  admitted s (checked (fillCheck v) fun v s => respond .unit (fillValOp slot v s))

/-- `COPY_SLOT slot, src` (R237). -/
def execCopySlot (slot src : Byte) (s : State) : Host.Outcome State Fault Refusal :=
  admitted s fun s => respond .unit (copySlotOp slot src s)

/-- `DP_RESET slot`: sent once as a host request (R238). -/
def execDpReset (slot : Byte) (s : State) : Host.Outcome State Fault Refusal :=
  admitted s fun s => respond .unit (dpResetOp slot s).2

/-- `IMG_PKT init, payload` (R241). -/
def execImgPkt (init : Byte) (payload : List Byte) (s : State) : Host.Outcome State Fault Refusal :=
  admitted s (checked (payloadCheck payload) fun p s => let r := imgPktOp init p s; respond (.bool r.1) r.2)

end Sys2Proof.Machine
end

