-- ==== Sys2Proof/Machine/Packetizer.lean ====
section
/-!
DEFINITION. The packetizer and the image transfers (44_packetizer.md): `PKT_SPLIT`, `SEND_IMAGE`, `SEND_IMAGE_PI`,
`SEND_IMAGE_ROI`. Their checks come before the first port event, so the transfers themselves run on the bytes the checks
have read.
-/

namespace Sys2Proof.Machine

/-- `PktSplit(len, plen)` for `plen ≥ 1`: the full packets, then one final packet, which may be empty (R320). -/
def pktSplitList (len plen : Nat) : List (Nat × Nat) :=
  (List.range (len / plen)).map (fun k => (k * plen, plen)) ++ [(len / plen * plen, len % plen)]

/-- The check of `PKT_SPLIT` (R320). -/
def pktSplitCheck (len plen : Nat) : Except FaultCode (List (Nat × Nat)) :=
  if plen = 0 then .error .fPlen else .ok (pktSplitList len plen)

/-- The sub-opcode `ImgPktSeq` chooses (R321). -/
def nextInitByte (s : State) : Byte := if s.initXfer then 0x01 else Config.initByteFirst

/-- `ImgPktSeq(p)`: the flag is set after the packet whatever its result (R321). -/
def imgPktSeq (payload : List Byte) (s : State) : Bool × State :=
  let r := imgPktOp (nextInitByte s) payload s
  (r.1, { r.2 with initXfer := true })

/-- `SendPackets`, from the packets still to send and the result so far: every packet is sent (R322). -/
def sendPacketList (data : List Byte) (acc : Accum) : List (Nat × Nat) → Bool → State → Bool × State
  | [], res, s => (res, s)
  | (off, n) :: rest, res, s =>
    let r := imgPktSeq (slice data off n) s
    sendPacketList data acc rest (accumulate acc res r.1) r.2

/-- `SendPackets(buf, len, plen, acc)` on the `len` bytes of `data` (R322). -/
def sendPackets (data : List Byte) (plen : Nat) (acc : Accum) (s : State) : Bool × State :=
  sendPacketList data acc (pktSplitList data.length plen) (accumStart acc) s

/-- `DpResetSeq()` with `n` attempts left (R323). -/
def dpResetLoop : Nat → State → Bool × State
  | 0, s => (false, logEvent .dpResetFail s)
  | n + 1, s =>
    let c := dpResetOp (s.cfg.slot .dpReset) s
    if c.1 = .success then (true, c.2) else dpResetLoop n c.2

/-- `DpResetSeq()`: at most 3 data-pointer reset frames (R323). -/
def dpResetSeq (s : State) : Bool × State := dpResetLoop 3 s

/-- `SEND_IMAGE` past its checks: the reset sequence, whose result is only logged, then the packets (R324). -/
def sendImageOp (data : List Byte) (plen : Nat) (s : State) : Bool × State :=
  sendPackets data plen Config.imageAccum (dpResetSeq s).2

/-- One pass of `SEND_IMAGE_ROI`: the ROI frame, then every packet of the buffer (R327). -/
def roiPass (f : Nat × Nat × Nat × Nat) (data : List Byte) (plen : Nat) (s : State) : Bool × State :=
  sendPackets data plen Config.roiAccum (roiSetOp (s.cfg.slot .roi) f s)

/-- `SEND_IMAGE_ROI` past its checks: one pass, and a second in full when the first failed and `retry` is 0 (R327). -/
def sendRoiOp (f : Nat × Nat × Nat × Nat) (data : List Byte) (plen retry : Nat) (s : State) : Bool × State :=
  let first := roiPass f data plen s
  if first.1 = false ∧ retry = 0 then roiPass f data plen first.2 else first

/-- `SEND_IMAGE` with its checks (R324), for the request and for its expansion `SEND_IMAGE_PI` (R325). -/
def sendImageBody (buf : Buffer) (len plen : Nat) (s : State) : State :=
  checked (sendImageCheck buf len plen) (fun data s => let r := sendImageOp data plen s; respond (.bool r.1) r.2) s

/-- `PKT_SPLIT len, plen` (R320). -/
def execPktSplit (len plen : Nat) (s : State) : Host.Outcome State Fault Refusal :=
  admitted s (checked (pktSplitCheck len plen) fun l s => respond (.packets l) s)

/-- `SEND_IMAGE buf, len, plen` (R324). -/
def execSendImage (buf : Buffer) (len plen : Nat) (s : State) : Host.Outcome State Fault Refusal :=
  admitted s (sendImageBody buf len plen)

/-- `SEND_IMAGE_PI img` (R325). -/
def execSendImagePi (img : PanelImage) (s : State) : Host.Outcome State Fault Refusal :=
  admitted s fun s => sendImageBody img.bytes (imageLen img) s.cfg.defaultPacketLen s

/-- `SEND_IMAGE_ROI buf, x, y, w, h, retry` (R327). -/
def execSendImageRoi (buf : Buffer) (x y w h retry : Nat) (s : State) : Host.Outcome State Fault Refusal :=
  admitted s (checked (sendRoiCheck s.cfg buf x y w h) fun c s =>
    let r := sendRoiOp c.1 c.2 (roiPlen w) retry s
    respond (.bool r.1) r.2)

end Sys2Proof.Machine
end

