-- ==== Sys2Proof/Machine/Sequences.lean ====
section
/-!
DEFINITION. The orchestrator sequences (45_sequences.md): `FILL`, `FILL_ROI`, `COPY_ROI`, `ERASE_P`, `UPDATE_P`,
`UPDATE_FL_P`, `UPDATE_FLINV_P`, and the expansions of 30_encoding.md R183.
-/

namespace Sys2Proof.Machine

/-- The ROI frame, then the fill frame, whatever the first one's status (R351, R352, R358). -/
def fillSeq (f : Nat × Nat × Nat × Nat) (white : Bool) (s : State) : State :=
  fillValOp (s.cfg.slot .fill) (fillByte s.cfg white) (roiSetOp (s.cfg.slot .roi) f s)

/-- The ROI frame, then the copy frame, whatever the first one's status (R353, R358). -/
def copySeq (f : Nat × Nat × Nat × Nat) (src : Byte) (s : State) : State :=
  copySlotOp (s.cfg.slot .copyDst) src (roiSetOp (s.cfg.slot .roi) f s)

/-- `FILL white` (R351). -/
def execFill (white : Bool) (s : State) : Host.Outcome State Fault Refusal :=
  admitted s (checked (roiCheck s.cfg 0 0 s.cfg.panelW s.cfg.panelH) fun f s => respond .unit (fillSeq f white s))

/-- `FILL_ROI x, y, w, h, white` (R352). -/
def execFillRoi (x y w h : Nat) (white : Bool) (s : State) : Host.Outcome State Fault Refusal :=
  admitted s (checked (roiCheck s.cfg x y w h) fun f s => respond .unit (fillSeq f white s))

/-- `COPY_ROI x, y, w, h [, src]` (R353). -/
def execCopyRoi (x y w h : Nat) (src : Option Byte) (s : State) : Host.Outcome State Fault Refusal :=
  admitted s (checked (roiCheck s.cfg x y w h) fun f s => respond .unit (copySeq f (src.getD s.cfg.copyDefaultSrc) s))

/-- `ERASE_P` (R354). -/
def execEraseP (s : State) : Host.Outcome State Fault Refusal :=
  admitted s fun s => respond .unit (eraseOp (s.cfg.slot .erase) s)

/-- `UPDATE_P` (R355). -/
def execUpdateP (s : State) : Host.Outcome State Fault Refusal :=
  admitted s fun s => respond .unit (updateCmd s.cfg.opUpdFull (s.cfg.slot .update) s)

/-- `UPDATE_FL_P` (R356). -/
def execUpdateFlP (s : State) : Host.Outcome State Fault Refusal :=
  admitted s fun s => respond .unit (updateCmd s.cfg.opUpdFl (s.cfg.slot .update) s)

/-- `UPDATE_FLINV_P` (R357). -/
def execUpdateFlinvP (s : State) : Host.Outcome State Fault Refusal :=
  admitted s fun s => respond .unit (updateCmd s.cfg.opUpdFlinv (s.cfg.slot .update) s)

/-- The requests a pseudo-operation expands to (R183); none for a request that is no pseudo-operation of that rule. -/
def expand (p : Params) : Instr → Option (List Instr)
  | .eraseP => some [.erase (p.slot .erase)]
  | .updateP => some [.updFull (p.slot .update)]
  | .updateFlP => some [.updFl (p.slot .update)]
  | .updateFlinvP => some [.updFlinv (p.slot .update)]
  | .fill white =>
    some [.roiSet (p.slot .roi) 0 0 p.panelW p.panelH, .fillVal (p.slot .fill) (fillByte p white)]
  | .fillRoi x y w h white => some [.roiSet (p.slot .roi) x y w h, .fillVal (p.slot .fill) (fillByte p white)]
  | .copyRoi x y w h src =>
    some [.roiSet (p.slot .roi) x y w h, .copySlot (p.slot .copyDst) (src.getD p.copyDefaultSrc)]
  | .sendImagePi img => some [.sendImage img.bytes (imageLen img) p.defaultPacketLen]
  | .erase _ | .updFull _ | .updFl _ | .updFlinv _ | .roiSet _ _ _ _ _ | .fillVal _ _ | .copySlot _ _ | .dpReset _
  | .imgPkt _ _ | .statusRead | .classify _ _ | .isBusy | .waitBusy _ | .waitFree | .imgNew _ _ | .imgClear _ _
  | .imgComposite _ _ _ _ | .bisNew _ _ _ | .bisView _ _ | .pktSplit _ _ | .construct | .teardown
  | .sendImage _ _ _ | .sendImageRoi _ _ _ _ _ _ => none

end Sys2Proof.Machine
end

