-- ==== Sys2Proof/Machine/Dispatch.lean ====
section
/-!
DEFINITION. One arm per constructor of Instr: each calls its instruction's own meaning.
-/

namespace Sys2Proof.Machine

def exec (i : Instr) (s : State) : Host.Outcome State Fault Refusal :=
  match i with
  | .erase slot => Sys2Proof.Machine.execErase slot s
  | .updFull slot => Sys2Proof.Machine.execUpdFull slot s
  | .updFl slot => Sys2Proof.Machine.execUpdFl slot s
  | .updFlinv slot => Sys2Proof.Machine.execUpdFlinv slot s
  | .roiSet slot x y w h => Sys2Proof.Machine.execRoiSet slot x y w h s
  | .fillVal slot v => Sys2Proof.Machine.execFillVal slot v s
  | .copySlot slot src => Sys2Proof.Machine.execCopySlot slot src s
  | .dpReset slot => Sys2Proof.Machine.execDpReset slot s
  | .imgPkt init payload => Sys2Proof.Machine.execImgPkt init payload s
  | .statusRead => Sys2Proof.Machine.execStatusRead s
  | .classify b0 b1 => Sys2Proof.Machine.execClassify b0 b1 s
  | .isBusy => Sys2Proof.Machine.execIsBusy s
  | .waitBusy t => Sys2Proof.Machine.execWaitBusy t s
  | .waitFree => Sys2Proof.Machine.execWaitFree s
  | .imgNew w h => Sys2Proof.Machine.execImgNew w h s
  | .imgClear img white => Sys2Proof.Machine.execImgClear img white s
  | .imgComposite img bis x y => Sys2Proof.Machine.execImgComposite img bis x y s
  | .bisNew w h raw => Sys2Proof.Machine.execBisNew w h raw s
  | .bisView bis which => Sys2Proof.Machine.execBisView bis which s
  | .pktSplit len plen => Sys2Proof.Machine.execPktSplit len plen s
  | .construct => Sys2Proof.Machine.execConstruct s
  | .teardown => Sys2Proof.Machine.execTeardown s
  | .sendImage buf len plen => Sys2Proof.Machine.execSendImage buf len plen s
  | .sendImagePi img => Sys2Proof.Machine.execSendImagePi img s
  | .sendImageRoi buf x y w h retry => Sys2Proof.Machine.execSendImageRoi buf x y w h retry s
  | .fill white => Sys2Proof.Machine.execFill white s
  | .fillRoi x y w h white => Sys2Proof.Machine.execFillRoi x y w h white s
  | .copyRoi x y w h src => Sys2Proof.Machine.execCopyRoi x y w h src s
  | .eraseP => Sys2Proof.Machine.execEraseP s
  | .updateP => Sys2Proof.Machine.execUpdateP s
  | .updateFlP => Sys2Proof.Machine.execUpdateFlP s
  | .updateFlinvP => Sys2Proof.Machine.execUpdateFlinvP s

end Sys2Proof.Machine
end

