-- ==== Sys2Proof/Machine/Step.lean ====
section
/-!
DEFINITION. One step: the block takes the host's next request and runs it to completion (00_scope.md R5, R6; 10_state.md
R71). While the host has none, the block waits.
-/

namespace Sys2Proof.Machine

/-- One step of the machine. A request whose operands are no values of the types of R180 stops the run by name. -/
def step (s : State) : Host.Outcome State Fault Refusal :=
  match fetch s with
  | none => .next (idle s)
  | some (i, t) => if i.wf then exec i t else .fault .illFormedRequest

/-- `s` with the instruction of a table word handed to the block as its next request. Nothing else changes; a word the
decoder refuses leaves `s` as it is. -/
def State.withFetchWord (s : State) (nbits w : Nat) : State :=
  match decodeTableWord nbits w with
  | some i => offer i s
  | none => s

end Sys2Proof.Machine
end

