-- ==== Sys2Proof/Safety.lean ====
section
/-!
DEFINITION. The terms claims are stated in: when a request is admitted, what an operation does to the state beside its own
effect, the shapes of the event sequences that the rules of the spec give (a wait, a status read, a command, a retried
command, a list of packets), the frames of the opcode map, and the machine's invariant.
-/

namespace Sys2Proof.Machine

/-- A request is admitted (60_exceptions.md R413). -/
def Ready (s : State) : Prop := s.phase = .operational ∧ s.fault = none

/-- The requests that R413 admits: all but `CONSTRUCT` and `TEARDOWN`, which have rules of their own (R450, R453). -/
def isLifecycle : Instr → Bool
  | .construct | .teardown => true
  | _ => false

/-- From `s` to `t` the events `evs` were appended to the trace and the responses `rs` given, the clock did not go back,
and nothing changed of the phase, the fault, the parameters, the acquisitions, the pending requests and the past traces.
It leaves open `initXfer`, `lastUpdate`, `cs`, `lastWait` and the draws of the clock, the line and the panel. -/
structure Extends (s t : State) (evs : List Event) (rs : List Response) : Prop where
  trace : t.trace = s.trace ++ evs
  responses : t.responses = s.responses ++ rs
  phase : t.phase = s.phase
  fault : t.fault = s.fault
  cfg : t.cfg = s.cfg
  acquires : t.acquires = s.acquires
  requests : t.requests = s.requests
  history : t.history = s.history
  clock : s.clock ≤ t.clock

/-- The state after a request refused with code `c`: as before but for the recorded fault and the response (R410). -/
def refusedWith (c : FaultCode) (s : State) : State :=
  { s with fault := some c, responses := s.responses ++ [.fault c] }

/-- The state after a request that only answers. -/
def answeredWith (r : Response) (s : State) : State := { s with responses := s.responses ++ [r] }

/-- No image packet of the packetizer was sent and no update command: `initXfer` and `lastUpdate` are as before; the bus is
deselected (R77). -/
structure Quiet (s t : State) : Prop where
  initXfer : t.initXfer = s.initXfer
  lastUpdate : t.lastUpdate = s.lastUpdate
  cs : t.cs = .deselected

/-- Requests run one after the other, none pending in between; none where one of them does not end in a next state. -/
def runAll : List Instr → State → Option State
  | [], s => some s
  | i :: rest, s =>
    match exec i s with
    | .next t => runAll rest t
    | .fault _ => none
    | .refused _ => none

/-! ## Event sequences -/

/-- What a wait writes beside the trace: the clock and `S.last_wait` (R78, R295). The event sequences below run from one
mark to another, so that they also say how long each of their waits took and which outcome is the most recent one. -/
structure Mark where
  clock : Nat
  lastWait : Option WaitOutcome
deriving DecidableEq, Repr

/-- The mark of a state. -/
def State.mark (s : State) : Mark := ⟨s.clock, s.lastWait⟩

/-- The level that means busy (43_busy_timing.md R292). -/
def activeLevel (p : Params) : Level := if p.busyActiveHigh then .high else .low

/-- The level that does not. -/
def inactiveLevel (p : Params) : Level := if p.busyActiveHigh then .low else .high

/-- `n` polls that found the line active, each followed by its sleep (R295). -/
def polls (p : Params) : Nat → List Event
  | 0 => []
  | n + 1 => .pinRead .busy (activeLevel p) :: .slept p.tPoll :: polls p n

/-- The last sample of a wait, and its log when it timed out (R295). -/
def waitEnd (p : Params) : WaitOutcome → List Event
  | .cleared => [.pinRead .busy (inactiveLevel p)]
  | .timedOut => [.pinRead .busy (activeLevel p), .log .waitTimeout]

/-- The most sleeps `WaitForBusy(T)` takes, `ceil(T / T_POLL)` (R296). -/
def maxPolls (p : Params) (T : Nat) : Nat := (T + p.tPoll - 1) / p.tPoll

/-- One `WaitForBusy(T)` with outcome `o`, from mark `a` to mark `b` (R295, R296): the polls that found the line active and
the last sample; the clock is later by at least the polls' sleeps, and by at least `T` where the wait timed out; the outcome
is recorded. -/
def WaitTrace (p : Params) (T : Nat) (o : WaitOutcome) (a b : Mark) (evs : List Event) : Prop :=
  ∃ n, n ≤ maxPolls p T ∧ evs = polls p n ++ waitEnd p o ∧ a.clock + n * p.tPoll ≤ b.clock ∧
    (o = .timedOut → a.clock + T ≤ b.clock) ∧ b.lastWait = some o

/-- One status exchange that the panel answered with `q` (42_status.md R271). -/
def exchangeEvent (q : Byte × Byte) : Event := .txn .exchange [0x00, 0x00] [q.1, q.2]

/-- A non-success status is logged (R272). -/
def statusLog (c : StatusClass) : List Event := if c = .success then [] else [.log .statusFail]

/-- The events of one status read with result `c`: not-ready answers, then the answer that decides, or three not-ready
answers and `Generic` (R272). -/
def StatusTrace (c : StatusClass) (evs : List Event) : Prop :=
  ∃ qs : List (Byte × Byte), (∀ q ∈ qs, classifyPair q.1 q.2 = .notReady) ∧
    ((qs.length = 3 ∧ c = .generic ∧ evs = qs.map exchangeEvent ++ [.log .statusFail]) ∨
      (qs.length < 3 ∧ ∃ q : Byte × Byte, answered (classifyPair q.1 q.2) = some c ∧
        evs = qs.map exchangeEvent ++ exchangeEvent q :: statusLog c))

/-- One frame, its wait and its status read, which takes no clock reading and no wait (41_framer.md R234). -/
def CommandTrace (p : Params) (frame : List Byte) (T : Nat) (c : StatusClass) (a b : Mark) (evs : List Event) : Prop :=
  ∃ o w st, evs = .txn .send frame [] :: (w ++ st) ∧ WaitTrace p T o a b w ∧ StatusTrace c st

/-- A command sent again until a status read gives `Success`, at most `n` times; a failure of all is logged as `k`
(R241, 44_packetizer.md R323). Each attempt starts where the one before it ended. -/
def RetryTrace (p : Params) (frame : List Byte) (T : Nat) (k : LogKind) : Nat → Bool → Mark → Mark → List Event → Prop
  | 0, ok, a, b, evs => ok = false ∧ evs = [.log k] ∧ b = a
  | n + 1, ok, a, b, evs =>
    ∃ c m cmd rest, evs = cmd ++ rest ∧ CommandTrace p frame T c a m cmd ∧
      ((c = .success ∧ ok = true ∧ rest = [] ∧ b = m) ∨ (c ≠ .success ∧ RetryTrace p frame T k n ok m b rest))

/-- The image packets `frames` in order, each with its own retries, and their results (R322). -/
def PacketsTrace (p : Params) : List (List Byte) → List Bool → Mark → Mark → List Event → Prop
  | [], oks, a, b, evs => oks = [] ∧ evs = [] ∧ b = a
  | frame :: frames, oks, a, b, evs =>
    ∃ ok rest m e₁ e₂, oks = ok :: rest ∧ evs = e₁ ++ e₂ ∧ RetryTrace p frame p.tShort .packetFail 4 ok a m e₁ ∧
      PacketsTrace p frames rest m b e₂

/-- The image frames of `data` in packets of `plen` bytes: every one carries initByte 0x01 (R19, R320, R321). -/
def imageFrames (data : List Byte) (plen : Nat) : List (List Byte) :=
  (pktSplitList data.length plen).map fun c => imageFrame 0x01 (slice data c.1 c.2)

/-- One pass of an ROI transfer: the ROI frame, then every packet (R327). -/
def RoiPassTrace (p : Params) (f : Nat × Nat × Nat × Nat) (data : List Byte) (plen : Nat) (oks : List Bool)
    (a b : Mark) (evs : List Event) : Prop :=
  ∃ c m e₁ e₂, evs = e₁ ++ e₂ ∧
    CommandTrace p (paramFrame p.opParam 0x0A p.slotRoi (roiPayload f)) p.tMedium c a m e₁ ∧
    PacketsTrace p (imageFrames data plen) oks m b e₂

/-- The events of `WAIT_FREE`'s queries that did not end it, each followed by its sleep (R297). A query is the level it
sampled and the clock it read. -/
def freeQueries (p : Params) : List (Level × Nat) → List Event
  | [] => []
  | q :: rest => .pinRead .busy q.1 :: .slept p.tFreeSleep :: freeQueries p rest

/-- A query with level `q.1` at clock `q.2` answers true: there was an update, and the elapsed time is below `T_GUARD`, or
the line is active and it is below `T_CAP` (R293). -/
def BusyAt (p : Params) (lastUpdate : Stamp) (q : Level × Nat) : Prop :=
  ∃ u, lastUpdate = .time u ∧ (q.2 - u < p.tGuard ∨ (q.1 = activeLevel p ∧ q.2 - u < p.tCap))

/-! ## Pixels (40_bit_image.md R202) -/

/-- Pixel `(px, py)` of an image: none where it has not been written (20_memory.md R114). -/
def pixelAt (img : PanelImage) (px py : Nat) : Option Bool :=
  match img.bytes[headerLen + pixelIndex img.w px py / 8]? with
  | none => none
  | some b =>
    if b.written.getLsbD (pixelBit (pixelIndex img.w px py)) then
      some (b.val.getLsbD (pixelBit (pixelIndex img.w px py)))
    else none

/-! ## Counting (70_reset_and_hazards.md R480) -/

def isSend : Event → Bool
  | .txn .send _ _ => true
  | _ => false

def isExchange : Event → Bool
  | .txn .exchange _ _ => true
  | _ => false

/-- How many `Send`s. -/
def sends (evs : List Event) : Nat := evs.countP isSend

/-- How many `Exchange`s. -/
def exchanges (evs : List Event) : Nat := evs.countP isExchange

/-- The most `Send`s and `Exchange`s of an operation: the table of R480. -/
def maxTransactions (p : Params) : Instr → Nat × Nat
  | .erase _ | .updFull _ | .updFl _ | .updFlinv _ | .eraseP | .updateP | .updateFlP | .updateFlinvP => (1, 0)
  | .roiSet _ _ _ _ _ | .fillVal _ _ | .copySlot _ _ | .dpReset _ => (1, 3)
  | .fill _ | .fillRoi _ _ _ _ _ | .copyRoi _ _ _ _ _ => (2, 6)
  | .imgPkt _ _ => (4, 12)
  | .statusRead => (0, 3)
  | .sendImage _ len plen => (3 + 4 * (len / plen + 1), 9 + 12 * (len / plen + 1))
  | .sendImagePi img =>
    (3 + 4 * (imageLen img / p.defaultPacketLen + 1), 9 + 12 * (imageLen img / p.defaultPacketLen + 1))
  | .sendImageRoi buf _ _ w _ _ =>
    (2 * (1 + 4 * (buf.length / roiPlen w + 1)), 2 * (3 + 12 * (buf.length / roiPlen w + 1)))
  | .isBusy | .waitBusy _ | .waitFree | .classify _ _ | .imgNew _ _ | .imgClear _ _ | .imgComposite _ _ _ _
  | .bisNew _ _ _ | .bisView _ _ | .pktSplit _ _ | .construct | .teardown => (0, 0)

/-! ## Responses (30_encoding.md R181) -/

/-- The response is of the kind R181 gives the request, or a fault. -/
def fitsRequest : Instr → Response → Bool
  | _, .fault _ => true
  | .construct, .bool _ | .imgPkt _ _, .bool _ | .isBusy, .bool _ | .sendImage _ _ _, .bool _
  | .sendImagePi _, .bool _ | .sendImageRoi _ _ _ _ _ _, .bool _ => true
  | .classify _ _, .raw _ | .statusRead, .status _ | .waitBusy _, .wait _ | .pktSplit _ _, .packets _
  | .imgNew _ _, .image _ | .imgClear _ _, .image _ | .imgComposite _ _ _ _, .image _ | .bisNew _ _ _, .bis _
  | .bisView _ _, .bytes _ => true
  | .erase _, .unit | .updFull _, .unit | .updFl _, .unit | .updFlinv _, .unit | .roiSet _ _ _ _ _, .unit
  | .fillVal _ _, .unit | .copySlot _ _, .unit | .dpReset _, .unit | .waitFree, .unit | .fill _, .unit
  | .fillRoi _ _ _ _ _, .unit | .copyRoi _ _ _ _ _, .unit | .eraseP, .unit | .updateP, .unit | .updateFlP, .unit
  | .updateFlinvP, .unit | .teardown, .unit => true
  | _, _ => false

/-- The update family: the only requests that write `S.last_update` (10_state.md R76). -/
def isUpdate : Instr → Bool
  | .updFull _ | .updFl _ | .updFlinv _ | .updateP | .updateFlP | .updateFlinvP => true
  | _ => false

/-- The requests that may write `S.init_xfer` (R321): the packetizer's transfers. -/
def isTransfer : Instr → Bool
  | .sendImage _ _ _ | .sendImagePi _ | .sendImageRoi _ _ _ _ _ _ => true
  | _ => false

/-- The pure requests: no port event, no clock, no pin (40_bit_image.md, R270, R320). -/
def isPure : Instr → Bool
  | .classify _ _ | .pktSplit _ _ | .imgNew _ _ | .imgClear _ _ | .imgComposite _ _ _ _ | .bisNew _ _ _
  | .bisView _ _ => true
  | _ => false

/-! ## The opcode map and the invariant -/

/-- The frames of the opcode map that go out by `Send` (R158). -/
def OpcodeMap (p : Params) (tx : List Byte) : Prop :=
  (∃ slot, tx = [0x20, 0x0E, slot]) ∨
  (∃ op slot, (op = p.opUpdFull ∨ op = p.opUpdFl ∨ op = p.opUpdFlinv) ∧ tx = [op, 0x01, slot]) ∨
  (∃ slot xMin xMax yMin yMax, xMin < 65536 ∧ xMax < 65536 ∧ yMin < 65536 ∧ yMax < 65536 ∧
    tx = [p.opParam, 0x0A, slot, 0x08] ++ be16 xMin ++ be16 xMax ++ be16 yMin ++ be16 yMax) ∨
  (∃ slot v, (v = 0x00 ∨ v = 0xFF) ∧ tx = [p.opParam, 0x0B, slot, 0x01, v]) ∨
  (∃ slot src, tx = [p.opParam, 0x0C, slot, 0x01, src]) ∨
  (∃ slot, tx = [p.opParam, 0x0D, slot, 0x00]) ∨
  (∃ init payload, payload.length ≤ 255 ∧ tx = [0x20, init, 0x00, BitVec.ofNat 8 payload.length] ++ payload)

/-- An event the block may produce (10_state.md R80, R158, R431). -/
def LegalEvent (p : Params) : Event → Prop
  | .txn .send tx rx => OpcodeMap p tx ∧ rx = []
  | .txn .exchange tx rx => tx = [0x00, 0x00] ∧ rx.length = 2
  | .pinRead _ _ => True
  | .slept d => d = p.tPoll ∨ d = p.tFreeSleep
  | .log _ => True

/-- The machine's invariant: between operations the bus is deselected (R77), the last update is not in the future (R233,
R290), the trace holds events of the block only (R158), and an instance that was never built has produced none (R452). -/
structure Inv (s : State) : Prop where
  deselected : s.cs = .deselected
  stampPast : ∀ u, s.lastUpdate = .time u → u ≤ s.clock
  legal : ∀ e ∈ s.trace, LegalEvent s.cfg e
  unbuilt : s.phase = .unconstructed ∨ s.phase = .failed → s.trace = []

end Sys2Proof.Machine
end

