-- ==== Sys2Proof/Certificates/Slice0/Obligations.lean ====
section
/-!
DEFINITION. The statements for the provers. Each holds for every parameter value the spec allows and for every draw, since
both stand in the state. `Extends s t evs rs` carries most of a frame: the phase, the fault, the parameters, the
acquisitions, the pending requests and the past traces are unchanged, the clock does not go back, the trace grows by
exactly `evs` and the responses by exactly `rs`. Where a statement spells out a wait (`WaitTrace`), a status read
(`StatusTrace`) or a command (`CommandTrace`), that shape is 43_busy_timing.md section 2 (the spec's decision D21),
42_status.md (decision D20) and 41_framer.md section 1 (decisions D14 and D15), not the rule the statement cites. These run
from the mark of a state to the mark of another: from `s.mark` to `t.mark` they say that each wait that timed out took at
least its timeout class, and that `t.lastWait` is the outcome of the last of the waits (R78).
-/

open Sys2Proof Sys2Proof.Machine

/-! ## Encoding -/

/-- Every frame decodes to the request it encodes, whatever the operands (30_encoding.md, sections 1 to 4). The one
exception is the coincidence that follows from R167: where the parameterized opcode is 0x20, an image packet whose
initByte is a parameterized subcode can have a parameterized command's frame (log entry 16: the model's choice). -/
def Obligations.DecodeUndoesEncode : Prop :=
  ∀ (p : Params) (i : Instr) (f : List Byte), encode p i = some f →
    (∀ init payload, i = .imgPkt init payload → p.opParam = 0x20 →
      init ≠ 0x0A ∧ init ≠ 0x0B ∧ init ≠ 0x0C ∧ init ≠ 0x0D) →
    decode p f = .ok i

/-- A byte sequence that decodes is exactly the frame of what it decodes to, and every frame the encoder gives decodes to
a request with that frame: no bit is dropped and no form is shut out (30_encoding.md, sections 1 to 4). -/
def Obligations.EncodeUndoesDecode : Prop :=
  (∀ (p : Params) (f : List Byte) (i : Instr), decode p f = .ok i → encode p i = some f) ∧
    (∀ (p : Params) (i : Instr) (f : List Byte), encode p i = some f →
      ∃ j, decode p f = .ok j ∧ encode p j = some f)

/-- Words written out from the opcode map decode to the requests they stand for: V1.10, V2.20 to V2.39. -/
def Obligations.SpecWordsDecode : Prop :=
  ∀ p : Params,
    decode p [0x20, 0x0E, 0x05] = .ok (.erase 0x05) ∧
    decode p [p.opUpdFull, 0x01, 0x00] = .ok (.updFull 0x00) ∧
    decode p [p.opUpdFl, 0x01, 0x01] = .ok (.updFl 0x01) ∧
    decode p [p.opUpdFlinv, 0x01, 0x00] = .ok (.updFlinv 0x00) ∧
    (p.roiInclusive = false →
      decode p [p.opParam, 0x0A, 0x00, 0x08, 0x00, 0x0A, 0x00, 0x6E, 0x00, 0x14, 0x00, 0x46] =
        .ok (.roiSet 0x00 10 20 100 50)) ∧
    (p.roiInclusive = true →
      decode p [p.opParam, 0x0A, 0x00, 0x08, 0x00, 0x0A, 0x00, 0x6D, 0x00, 0x14, 0x00, 0x45] =
        .ok (.roiSet 0x00 10 20 100 50)) ∧
    decode p [p.opParam, 0x0B, 0x00, 0x01, 0xFF] = .ok (.fillVal 0x00 0xFF) ∧
    decode p [p.opParam, 0x0C, 0x01, 0x01, 0x00] = .ok (.copySlot 0x01 0x00) ∧
    decode p [p.opParam, 0x0D, 0x00, 0x00] = .ok (.dpReset 0x00) ∧
    decode p [0x20, 0x01, 0x00, 0x02, 0x11, 0x22] = .ok (.imgPkt 0x01 [0x11, 0x22]) ∧
    decode p [0x00, 0x00] = .ok .statusRead

/-! ## The step -/

/-- The block takes the host's next request and runs it: a step is `exec` of the request at the head of the port, with
the request taken from the port and nothing else around it (R5, R6, R71). A table word placed by `withFetchWord` runs as
what the decoder gives. -/
def Obligations.StepRunsTheHostsRequest : Prop :=
  (∀ (s : State) (i : Instr) (rest : List Instr), s.requests = i :: rest → i.wf = true →
    step s = exec i { s with requests := rest }) ∧
  (∀ (s : State) (nbits w : Nat) (i : Instr), decodeTableWord nbits w = some i → i.wf = true →
    step (s.withFetchWord nbits w) = exec i s)

/-- While the host has no request the block waits (R451), and a value that is no request of R180 stops the run by name
(log entries 2 and 14: the model's choices). -/
def Obligations.StepWithoutARequest : Prop :=
  (∀ s : State, s.requests = [] → step s = .next s) ∧
  (∀ (s : State) (i : Instr) (rest : List Instr), s.requests = i :: rest → i.wf = false →
    step s = .fault .illFormedRequest)

/-! ## Reset, construction, teardown -/

/-- The reset state holds what R451 gives each field of `S`. -/
def Obligations.ResetHoldsTheSpecsValues : Prop :=
  State.reset.phase = .operational ∧ State.reset.fault = none ∧ State.reset.initXfer = false ∧
    State.reset.lastUpdate =
      (if Config.params.tsReset = .never then .never else .time State.reset.clock) ∧
    State.reset.cs = .deselected ∧ State.reset.lastWait = none ∧ State.reset.trace = []

/-- The reset state meets the invariant. -/
def Obligations.ResetMeetsInvariant : Prop := Inv State.reset

/-- `CONSTRUCT` outside `Operational`, both collaborators acquired: every field of `S` at its reset value whatever it held
before, a recorded fault included, and the old instance's trace kept apart (70_reset_and_hazards.md, section 1; decisions
D19, D41, D42, D62). -/
def Obligations.ConstructBuildsAnInstance : Prop :=
  ∀ s : State, s.phase ≠ .operational → (acquire s).1 = true → (acquire (acquire s).2).1 = true →
    ∃ t, exec .construct s = .next t ∧ t.phase = .operational ∧ t.fault = none ∧ t.initXfer = false ∧
      t.lastUpdate = (if s.cfg.tsReset = .never then .never else .time t.clock) ∧ t.cs = .deselected ∧
      t.lastWait = none ∧ t.trace = [] ∧ t.responses = s.responses ++ [.bool true] ∧ t.cfg = s.cfg ∧
      s.clock ≤ t.clock ∧ t.requests = s.requests ∧
      t.history = (if s.phase = .unconstructed then s.history else s.history ++ [s.trace])

/-- `CONSTRUCT` when a collaborator cannot be acquired ends in `Failed` with nothing on the port; while `Operational` it is
refused with `F_STATE` (70_reset_and_hazards.md, section 1; decisions D41, D42). -/
def Obligations.ConstructFailsCleanly : Prop :=
  (∀ s : State, s.phase ≠ .operational →
    ((acquire s).1 = false ∨ (acquire (acquire s).2).1 = false) →
    ∃ t, exec .construct s = .next t ∧ t.phase = .failed ∧ t.fault = none ∧ t.initXfer = false ∧
      t.lastUpdate = .never ∧ t.cs = .deselected ∧ t.lastWait = none ∧ t.trace = [] ∧
      t.responses = s.responses ++ [.bool false] ∧ t.cfg = s.cfg ∧ t.clock = s.clock ∧ t.requests = s.requests) ∧
  (∀ s : State, s.phase = .operational → exec .construct s = .next (refusedWith .fState s))

/-- `TEARDOWN` is admitted in `Operational` whether or not a fault is recorded, changes the phase and deselects the bus;
in any other phase it is refused with `F_STATE` (70_reset_and_hazards.md, section 1; decisions D41, D62). -/
def Obligations.TeardownReleasesTheInstance : Prop :=
  (∀ s : State, s.phase = .operational →
    exec .teardown s =
      .next { s with phase := .tornDown, cs := .deselected, responses := s.responses ++ [.unit] }) ∧
  (∀ s : State, s.phase ≠ .operational → exec .teardown s = .next (refusedWith .fState s))

/-- A faulted block is released by `TEARDOWN` then `CONSTRUCT` (60_exceptions.md, R422, an inference the spec marks as its
own), and by nothing else: no request but `CONSTRUCT` clears a recorded fault (R81, R410; decision D40). -/
def Obligations.OnlyANewInstanceClearsAFault : Prop :=
  (∀ (i : Instr) (s t : State), exec i s = .next t → s.fault ≠ none → t.fault = none → i = .construct) ∧
  (∀ s t : State, s.phase = .operational → exec .teardown s = .next t → (acquire t).1 = true →
    (acquire (acquire t).2).1 = true → ∃ u, exec .construct t = .next u ∧ Ready u ∧ u.trace = [])

/-! ## Admission, responses, faults: every request -/

/-- A request in a phase that does not admit requests is refused with `F_STATE` and has no effect (60_exceptions.md, section 2;
decision D41). -/
def Obligations.WrongPhaseIsRefused : Prop :=
  ∀ (i : Instr) (s : State), isLifecycle i = false → s.phase ≠ .operational →
    exec i s = .next (refusedWith .fState s)

/-- While a fault is recorded every request but `CONSTRUCT` and `TEARDOWN` gets that code again and changes nothing else
(60_exceptions.md, section 2; decision D41). -/
def Obligations.RecordedFaultAnswersAgain : Prop :=
  ∀ (i : Instr) (s : State) (c : FaultCode), isLifecycle i = false → s.phase = .operational → s.fault = some c →
    exec i s = .next (answeredWith (.fault c) s)

/-- Each request gets exactly one response, of the kind R181 gives it or a fault, and every one of them ends in a next
state (R181, R481). -/
def Obligations.EachRequestGetsOneResponse : Prop :=
  ∀ (i : Instr) (s : State), ∃ t r, exec i s = .next t ∧ t.responses = s.responses ++ [r] ∧ fitsRequest i r = true

/-- Faults are precise: a request answered with a fault code leaves the state exactly as before except for the recorded
fault (60_exceptions.md, R410, R421; the spec marks the inference as its own). -/
def Obligations.FaultsLeaveTheStateAsBefore : Prop :=
  ∀ (i : Instr) (s t : State) (c : FaultCode), exec i s = .next t → t.responses = s.responses ++ [.fault c] →
    t = refusedWith c s

/-- Who writes what (10_state.md, section 3, the column "written by"): the phase only construction and teardown;
`last_update` only the update family and a construction; `init_xfer` only the packetizer, which sets it, and a
construction; the parameters nobody (R85); the trace only grows but in a new instance (R80). -/
def Obligations.FieldsHaveTheirWriters : Prop :=
  ∀ (i : Instr) (s t : State), exec i s = .next t →
    (t.phase ≠ s.phase → isLifecycle i = true) ∧
    (t.lastUpdate ≠ s.lastUpdate → isUpdate i = true ∨ i = .construct) ∧
    (t.initXfer ≠ s.initXfer → (isTransfer i = true ∧ t.initXfer = true) ∨ i = .construct) ∧
    t.cfg = s.cfg ∧ t.requests = s.requests ∧ s.clock ≤ t.clock ∧
    (i ≠ .construct → t.history = s.history ∧ ∃ evs, t.trace = s.trace ++ evs)

/-- The pure requests touch nothing of `S` but through admission and faults: the state after one is the state before with
a response, and with a fault code recorded when it was refused (40_bit_image.md, header; R270; R320). -/
def Obligations.PureRequestsOnlyAnswer : Prop :=
  ∀ (i : Instr) (s t : State), isPure i = true → exec i s = .next t →
    (∃ r, t = answeredWith r s) ∨ (∃ c, t = refusedWith c s)

/-- Nothing the block does depends on its trace or on the last wait's outcome: two runs of a request from states that
differ in these alone answer alike and end in states that differ in these alone, and both append the same events
(R78, R80; decisions D44, D51, D59). The past traces follow the trace in a new instance. -/
def Obligations.TraceAndLastWaitAreNeverRead : Prop :=
  ∀ (i : Instr) (s t : State) (lw : Option WaitOutcome) (tr : List Event), exec i s = .next t →
    ∃ t', exec i { s with lastWait := lw, trace := tr } = .next t' ∧
      t' = { t with lastWait := t'.lastWait, trace := t'.trace, history := t'.history } ∧
      (i ≠ .construct → t'.history = t.history ∧
        ∃ evs, t.trace = s.trace ++ evs ∧ t'.trace = tr ++ evs)

/-- The most sends and exchanges of each operation: the table of 70_reset_and_hazards.md, section 3, which the spec marks
as derived. It bounds the three levels of retries together (60_exceptions.md, R402). -/
def Obligations.TransactionsAreBounded : Prop :=
  ∀ (i : Instr) (s t : State), i ≠ .construct → exec i s = .next t →
    ∃ evs, t.trace = s.trace ++ evs ∧ sends evs ≤ (maxTransactions s.cfg i).1 ∧
      exchanges evs ≤ (maxTransactions s.cfg i).2

/-- Every step keeps the invariant: the bus is deselected between operations, the last update is not in the future, every
transaction in the trace is a frame of the opcode map or a 2-byte status exchange, every sleep is one of the two, and an
instance that was never built has produced nothing (R77, R120, R158, R290, R431, R452). -/
def Obligations.StepKeepsInvariant : Prop :=
  ∀ s t : State, Inv s → step s = .next t → Inv t

/-! ## Command framer, simple commands -/

/-- `ERASE`: its 3-byte frame once, then the wait at `T_LONG`, no status read; `Unit` whatever the wait's outcome; no
update timestamp; any slot byte (41_framer.md, section 2; the shape of the wait is decision
D21). -/
def Obligations.EraseSendsItsFrameAndWaits : Prop :=
  ∀ (s : State) (slot : Byte), Ready s →
    ∃ t o w, exec (.erase slot) s = .next t ∧ Extends s t (.txn .send [0x20, 0x0E, slot] [] :: w) [.unit] ∧
      WaitTrace s.cfg s.cfg.tLong o s.mark t.mark w ∧ Quiet s t ∧ t.panel = s.panel

/-- The three update operations: the frame with the operation's own transition opcode, the timestamp of the first clock
reading after the transaction, then the wait at `T_LONG`; no status read. It holds whatever `IS_BUSY` would answer and
whatever the last update was (41_framer.md, sections 1 and 2; the places of the timestamp and of the wait and its class are
the spec's decisions D15 to D17). -/
def Obligations.UpdatesSendStampAndWait : Prop :=
  ∀ (s : State) (slot : Byte), Ready s →
    ∀ i op, ((i = .updFull slot ∧ op = s.cfg.opUpdFull) ∨ (i = .updFl slot ∧ op = s.cfg.opUpdFl) ∨
        (i = .updFlinv slot ∧ op = s.cfg.opUpdFlinv)) →
      ∃ t o w, exec i s = .next t ∧ Extends s t (.txn .send [op, 0x01, slot] [] :: w) [.unit] ∧
        WaitTrace s.cfg s.cfg.tLong o ⟨(readClock s).1, s.lastWait⟩ t.mark w ∧ t.lastUpdate = .time (readClock s).1 ∧
        (readClock s).1 ≤ t.clock ∧ t.initXfer = s.initXfer ∧ t.cs = .deselected ∧ t.panel = s.panel

/-! ## Command framer, parameterized commands -/

/-- `ROI_SET`: the window's four fields as BE16 in one frame, its wait at `T_MEDIUM`, one status read whose class does not
matter; a field of 65536 or more, or an inclusive window of zero width or height, is refused with `F_RANGE` before any
event (41_framer.md, section 3; that a wait and a status read follow the frame is decision D14, the wait's class D15). -/
def Obligations.RoiSetSendsTheWindow : Prop :=
  ∀ (s : State) (slot : Byte) (x y w h : Nat), Ready s →
    (((s.cfg.roiInclusive = true → 0 < w ∧ 0 < h) ∧ x < 65536 ∧ x + w - roiEnd s.cfg < 65536 ∧ y < 65536 ∧
        y + h - roiEnd s.cfg < 65536) →
      ∃ t c evs, exec (.roiSet slot x y w h) s = .next t ∧ Extends s t evs [.unit] ∧
        CommandTrace s.cfg ([s.cfg.opParam, 0x0A, slot, 0x08] ++ be16 x ++ be16 (x + w - roiEnd s.cfg) ++ be16 y ++
          be16 (y + h - roiEnd s.cfg)) s.cfg.tMedium c s.mark t.mark evs ∧ Quiet s t) ∧
    (¬((s.cfg.roiInclusive = true → 0 < w ∧ 0 < h) ∧ x < 65536 ∧ x + w - roiEnd s.cfg < 65536 ∧ y < 65536 ∧
        y + h - roiEnd s.cfg < 65536) →
      exec (.roiSet slot x y w h) s = .next (refusedWith .fRange s))

/-- `FILL_VAL`: one frame with the payload 0x00 or 0xFF, its wait at `T_MEDIUM`, one status read; any other payload is
refused with `F_VALUE` before any event (41_framer.md, section 3; decisions D14, D15). -/
def Obligations.FillValSendsOneOfTwoValues : Prop :=
  ∀ (s : State) (slot v : Byte), Ready s →
    ((v = 0x00 ∨ v = 0xFF) →
      ∃ t c evs, exec (.fillVal slot v) s = .next t ∧ Extends s t evs [.unit] ∧
        CommandTrace s.cfg [s.cfg.opParam, 0x0B, slot, 0x01, v] s.cfg.tMedium c s.mark t.mark evs ∧ Quiet s t) ∧
    (¬(v = 0x00 ∨ v = 0xFF) → exec (.fillVal slot v) s = .next (refusedWith .fValue s))

/-- `COPY_SLOT`: one frame with the source slot as payload, its wait at `T_MEDIUM`, one status read; any two slots
(41_framer.md, section 3; decisions D14, D15). -/
def Obligations.CopySlotSendsBothSlots : Prop :=
  ∀ (s : State) (slot src : Byte), Ready s →
    ∃ t c evs, exec (.copySlot slot src) s = .next t ∧ Extends s t evs [.unit] ∧
      CommandTrace s.cfg [s.cfg.opParam, 0x0C, slot, 0x01, src] s.cfg.tMedium c s.mark t.mark evs ∧ Quiet s t

/-- `DP_RESET`: its 4-byte frame once, with no retry, its wait at `T_LONG`, one status read (41_framer.md, section 3;
decisions D14, D15). -/
def Obligations.DpResetSendsOnce : Prop :=
  ∀ (s : State) (slot : Byte), Ready s →
    ∃ t c evs, exec (.dpReset slot) s = .next t ∧ Extends s t evs [.unit] ∧
      CommandTrace s.cfg [s.cfg.opParam, 0x0D, slot, 0x00] s.cfg.tLong c s.mark t.mark evs ∧ Quiet s t

/-! ## Command framer, image packets -/

/-- `IMG_PKT`: the same frame up to 4 times, each with its wait at `T_SHORT` and its status read, until one read gives
`Success`; the result says whether one did; a payload of more than 255 bytes is refused with `F_LEN` before any event.
`init_xfer` is not written (41_framer.md, section 4; decisions D12, D20). -/
def Obligations.ImgPktRetriesUntilSuccess : Prop :=
  ∀ (s : State) (init : Byte) (payload : List Byte), Ready s →
    (payload.length ≤ 255 →
      ∃ t ok evs, exec (.imgPkt init payload) s = .next t ∧ Extends s t evs [.bool ok] ∧
        RetryTrace s.cfg ([0x20, init, 0x00, BitVec.ofNat 8 payload.length] ++ payload) s.cfg.tShort .packetFail 4 ok
          s.mark t.mark evs ∧ Quiet s t) ∧
    (255 < payload.length → exec (.imgPkt init payload) s = .next (refusedWith .fLen s))

/-- The end-to-end scenario 3 of the source (95_test_vectors.md V1.3): with the line inactive and the statuses `6A 00`,
`6A 00`, `90 00`, the frame goes out three times and the result is true. -/
def Obligations.ImgPktSucceedsAfterTwoRetries : Prop :=
  ∀ (s : State) (init : Byte) (payload : List Byte) (ls : List Level) (bs : List Byte), Ready s →
    payload.length ≤ 255 →
    s.line.script = inactiveLevel s.cfg :: inactiveLevel s.cfg :: inactiveLevel s.cfg :: ls →
    s.panel.script = 0x6A :: 0x00 :: 0x6A :: 0x00 :: 0x90 :: 0x00 :: bs →
    ∃ t, exec (.imgPkt init payload) s = .next t ∧ t.panel.script = bs ∧ t.line.script = ls ∧
      Extends s t
        [.txn .send (imageFrame init payload) [], .pinRead .busy (inactiveLevel s.cfg),
          .txn .exchange [0x00, 0x00] [0x6A, 0x00], .log .statusFail,
          .txn .send (imageFrame init payload) [], .pinRead .busy (inactiveLevel s.cfg),
          .txn .exchange [0x00, 0x00] [0x6A, 0x00], .log .statusFail,
          .txn .send (imageFrame init payload) [], .pinRead .busy (inactiveLevel s.cfg),
          .txn .exchange [0x00, 0x00] [0x90, 0x00]] [.bool true]

/-! ## Status response decoder -/

/-- `CLASSIFY`: the class of a status pair by the table, both bytes counting; nothing else changes (30_encoding.md R165,
42_status.md R270). -/
def Obligations.ClassifyFollowsTheTable : Prop :=
  ∀ (s : State) (b0 b1 : Byte), Ready s →
    exec (.classify b0 b1) s = .next (answeredWith (.raw
      (if (b0 = 0x00 ∧ b1 = 0x00) ∨ (b0 = 0xFF ∧ b1 = 0xFF) then .notReady
        else if b0 = 0x90 ∧ b1 = 0x00 then .success
        else if b0 = 0x67 ∧ b1 = 0x00 then .errA
        else if b0 = 0x6A ∧ b1 = 0x00 then .errB
        else .generic)) s)

/-- `STATUS_READ` as a request of its own: one to three exchanges and no frame, no wait; a not-ready answer is never the
result, and a result other than `Success` is logged once (42_status.md; decisions D18, D20, D48). -/
def Obligations.StatusReadRetriesTheReadOnly : Prop :=
  ∀ s : State, Ready s →
    ∃ t c evs, exec .statusRead s = .next t ∧ Extends s t evs [.status c] ∧ StatusTrace c evs ∧
      t.initXfer = s.initXfer ∧ t.lastUpdate = s.lastUpdate ∧ t.cs = .deselected ∧ t.lastWait = s.lastWait ∧
      t.clock = s.clock ∧ t.ticks = s.ticks ∧ t.line = s.line

/-- What the panel answers decides a status read: up to two not-ready pairs are read again and the first other pair gives
its class; three not-ready pairs, in any mix, give `Generic` (42_status.md; decision D20). -/
def Obligations.StatusReadFollowsThePanel : Prop :=
  ∀ (s : State) (qs : List (Byte × Byte)) (bs : List Byte), Ready s →
    (∀ q ∈ qs, classifyPair q.1 q.2 = .notReady) →
    (∀ (q : Byte × Byte) (c : StatusClass), qs.length < 3 → answered (classifyPair q.1 q.2) = some c →
      s.panel.script = qs.flatMap (fun a => [a.1, a.2]) ++ q.1 :: q.2 :: bs →
      ∃ t, exec .statusRead s = .next t ∧ t.panel.script = bs ∧
        Extends s t (qs.map exchangeEvent ++ exchangeEvent q :: statusLog c) [.status c]) ∧
    (qs.length = 3 → s.panel.script = qs.flatMap (fun a => [a.1, a.2]) ++ bs →
      ∃ t, exec .statusRead s = .next t ∧ t.panel.script = bs ∧
        Extends s t (qs.map exchangeEvent ++ [.log .statusFail]) [.status .generic])

/-! ## Busy/timing -/

/-- `IS_BUSY`: one sample on every call; true below `T_GUARD` whatever the line, true while the line is active below
`T_CAP`, else false; false after `Never` (43_busy_timing.md, section 2; decisions D24, D47). The premise is the
invariant's clause on `last_update`. -/
def Obligations.IsBusyFiltersTheLine : Prop :=
  ∀ s : State, Ready s → (∀ u, s.lastUpdate = .time u → u ≤ s.clock) →
    ∃ t l b, exec .isBusy s = .next t ∧ Extends s t [.pinRead .busy l] [.bool b] ∧
      (b = true ↔ ∃ u, s.lastUpdate = .time u ∧
        (t.clock - u < s.cfg.tGuard ∨ (l = activeLevel s.cfg ∧ t.clock - u < s.cfg.tCap))) ∧
      t.initXfer = s.initXfer ∧ t.lastUpdate = s.lastUpdate ∧ t.cs = s.cs ∧ t.lastWait = s.lastWait ∧
      t.panel = s.panel

/-- The source's property of the blackout (43_busy_timing.md, R294, which the spec marks as derived), over two requests: after
any update, a query read before the guard interval ends answers true whatever the line; one read after it with the line
inactive answers false; one read past the guard interval and the cap answers false whatever the line. -/
def Obligations.UpdateStartsTheBlackout : Prop :=
  ∀ (i : Instr) (s t v : State) (l : Level), Ready s → isUpdate i = true → exec i s = .next t →
    exec .isBusy t = .next v → v.trace = t.trace ++ [.pinRead .busy l] →
    ∃ u, t.lastUpdate = .time u ∧ s.clock ≤ u ∧ u ≤ v.clock ∧
      (v.clock < u + s.cfg.tGuard → v.responses = t.responses ++ [.bool true]) ∧
      (u + s.cfg.tGuard ≤ v.clock → l = inactiveLevel s.cfg → v.responses = t.responses ++ [.bool false]) ∧
      (u + max s.cfg.tGuard s.cfg.tCap ≤ v.clock → v.responses = t.responses ++ [.bool false])

/-- `WAIT_BUSY t`: polls that found the line active, each followed by a sleep of `T_POLL`, at most `ceil(t / T_POLL)` of
them, then an inactive sample (`Cleared`) or a last active one and the log (`TimedOut`), which takes at least `t` ticks;
the outcome is recorded and answered, and `last_update` plays no part (43_busy_timing.md, section 2; decisions D21, D46). -/
def Obligations.WaitBusyPollsUntilClearOrBound : Prop :=
  ∀ (s : State) (T : Nat), Ready s →
    ∃ t o w, exec (.waitBusy T) s = .next t ∧ Extends s t w [.wait o] ∧
      WaitTrace s.cfg T o s.mark t.mark w ∧ t.lastWait = some o ∧ (o = .timedOut → s.clock + T ≤ t.clock) ∧
      t.initXfer = s.initXfer ∧ t.lastUpdate = s.lastUpdate ∧ t.cs = s.cs ∧ t.panel = s.panel

/-- A wait clears at the first inactive sample, also at or past the deadline. First with any clock: `ds` are the advances
before the readings after the active samples, each of which came before the deadline. Then with a clock that only sleeps
advance: a line active for `k` samples, `k` at most `ceil(t / T_POLL)`, then inactive (43_busy_timing.md, section 2;
95_test_vectors.md V2.60; decision D21). -/
def Obligations.WaitBusyClearsWithTheLine : Prop :=
  (∀ (s : State) (T d : Nat) (ds ts : List Nat) (ls : List Level), Ready s →
    s.line.script = List.replicate ds.length (activeLevel s.cfg) ++ inactiveLevel s.cfg :: ls →
    s.ticks.script = d :: (ds ++ ts) →
    (∀ k, k < ds.length → (ds.take (k + 1)).sum + k * s.cfg.tPoll < T) →
    ∃ t, exec (.waitBusy T) s = .next t ∧
      Extends s t (polls s.cfg ds.length ++ [.pinRead .busy (inactiveLevel s.cfg)]) [.wait .cleared] ∧
      t.lastWait = some .cleared ∧ t.clock = s.clock + d + ds.sum + ds.length * s.cfg.tPoll) ∧
  (∀ (s : State) (T k : Nat) (ls : List Level) (ts : List Nat), Ready s → k ≤ (T + s.cfg.tPoll - 1) / s.cfg.tPoll →
    s.line.script = List.replicate k (activeLevel s.cfg) ++ inactiveLevel s.cfg :: ls →
    s.ticks.script = List.replicate (k + 1) 0 ++ ts →
    ∃ t, exec (.waitBusy T) s = .next t ∧
      Extends s t (polls s.cfg k ++ [.pinRead .busy (inactiveLevel s.cfg)]) [.wait .cleared] ∧
      t.lastWait = some .cleared ∧ t.clock = s.clock + k * s.cfg.tPoll)

/-- A wait on a line that stays active times out at the first clock reading at or past its deadline. First with any clock:
`ds` are the advances before the readings that came before the deadline, `e` the advance before the one that did not; the
sleeps are as many as `ds`, however fast the clock goes. Then with a clock that only sleeps advance: after `ceil(t / T_POLL)`
sleeps; `t = 0` takes one sample and no sleep (43_busy_timing.md, section 2; 95_test_vectors.md V2.57 to V2.59; decisions
D21, D46). -/
def Obligations.WaitBusyTimesOutAtItsBound : Prop :=
  (∀ (s : State) (T d e : Nat) (ds ts : List Nat) (ls : List Level), Ready s →
    s.line.script = List.replicate (ds.length + 1) (activeLevel s.cfg) ++ ls →
    s.ticks.script = d :: (ds ++ e :: ts) →
    (∀ k, k < ds.length → (ds.take (k + 1)).sum + k * s.cfg.tPoll < T) →
    T ≤ ds.sum + e + ds.length * s.cfg.tPoll →
    ∃ t, exec (.waitBusy T) s = .next t ∧
      Extends s t (polls s.cfg ds.length ++ [.pinRead .busy (activeLevel s.cfg), .log .waitTimeout])
        [.wait .timedOut] ∧
      t.lastWait = some .timedOut ∧ t.clock = s.clock + d + ds.sum + e + ds.length * s.cfg.tPoll) ∧
  (∀ (s : State) (T m : Nat) (ls : List Level) (ts : List Nat), Ready s → m = (T + s.cfg.tPoll - 1) / s.cfg.tPoll →
    s.line.script = List.replicate (m + 1) (activeLevel s.cfg) ++ ls →
    s.ticks.script = List.replicate (m + 2) 0 ++ ts →
    ∃ t, exec (.waitBusy T) s = .next t ∧
      Extends s t (polls s.cfg m ++ [.pinRead .busy (activeLevel s.cfg), .log .waitTimeout]) [.wait .timedOut] ∧
      t.lastWait = some .timedOut ∧ t.clock = s.clock + m * s.cfg.tPoll)

/-- `WAIT_FREE`: one wait at `T_LONG` whose outcome does not matter, then queries of `IS_BUSY`, a level and a clock reading
each: every query but the last answered true and was followed by a sleep of `T_FREE_SLEEP`, and the last one, at the clock
at which the request ends, answers false. It ends for every draw, after one query when there was no update and after at most
`ceil(max(T_GUARD, T_CAP) / T_FREE_SLEEP) + 1` (43_busy_timing.md, section 2; R298 the spec marks as derived; decision D23).
The premise is the invariant's clause on `last_update`. -/
def Obligations.WaitFreeEndsWhenNotBusy : Prop :=
  ∀ s : State, Ready s → (∀ u, s.lastUpdate = .time u → u ≤ s.clock) →
    ∃ t o m w qs q, exec .waitFree s = .next t ∧
      Extends s t (w ++ freeQueries s.cfg qs ++ [.pinRead .busy q.1]) [.unit] ∧
      WaitTrace s.cfg s.cfg.tLong o s.mark m w ∧ t.lastWait = some o ∧
      (∀ r ∈ qs, BusyAt s.cfg s.lastUpdate r) ∧ ¬BusyAt s.cfg s.lastUpdate q ∧ q.2 = t.clock ∧
      (∀ r ∈ qs ++ [q], m.clock ≤ r.2) ∧ (qs ++ [q]).Pairwise (fun a b => a.2 + s.cfg.tFreeSleep ≤ b.2) ∧
      (s.lastUpdate = .never → qs = []) ∧
      qs.length ≤ (max s.cfg.tGuard s.cfg.tCap + s.cfg.tFreeSleep - 1) / s.cfg.tFreeSleep ∧
      t.initXfer = s.initXfer ∧ t.lastUpdate = s.lastUpdate ∧ t.cs = s.cs ∧ t.panel = s.panel

/-! ## Bit-image data -/

/-- `IMG_NEW`: the header, then `(w*h)/8` unwritten bytes; the header's resolution fields are the image's own width and
height, big-endian; `F_RANGE` is checked before `F_GEOMETRY` (40_bit_image.md, section 1; decisions D32 to D34). -/
def Obligations.ImgNewGivesAHeaderAndUnwrittenPixels : Prop :=
  ∀ (s : State) (w h : Nat), Ready s →
    ((w ≥ 65536 ∨ h ≥ 65536) → exec (.imgNew w h) s = .next (refusedWith .fRange s)) ∧
    (w < 65536 → h < 65536 → w * h % 8 ≠ 0 → exec (.imgNew w h) s = .next (refusedWith .fGeometry s)) ∧
    (w < 65536 → h < 65536 → w * h % 8 = 0 →
      ∃ img, exec (.imgNew w h) s = .next (answeredWith (.image img) s) ∧ img.w = w ∧ img.h = h ∧
        img.bytes.length = 16 + w * h / 8 ∧
        (∀ k, 16 ≤ k → k < img.bytes.length → img.bytes[k]? = some ⟨0, 0⟩) ∧
        ∃ hdr : List Byte, hdr.length = 16 ∧ img.bytes.take 16 = hdr.map (fun b => ⟨b, 0xFF⟩) ∧
          ofBe16 (hdr.getD s.cfg.hdrXOff 0) (hdr.getD (s.cfg.hdrXOff + 1) 0) = w ∧
          ofBe16 (hdr.getD s.cfg.hdrYOff 0) (hdr.getD (s.cfg.hdrYOff + 1) 0) = h)

/-- `IMG_CLEAR`: every pixel byte 0xFF for white and 0x00 for black, written; the header unchanged (40_bit_image.md, section
1; decision D35). -/
def Obligations.ImgClearSetsEveryPixelByte : Prop :=
  ∀ (s : State) (img : PanelImage) (white : Bool), Ready s → img.wf = true →
    ∃ img', exec (.imgClear img white) s = .next (answeredWith (.image img') s) ∧ img'.w = img.w ∧ img'.h = img.h ∧
      img'.bytes.length = img.bytes.length ∧ (∀ k, k < 16 → img'.bytes[k]? = img.bytes[k]?) ∧
      (∀ k, 16 ≤ k → k < img.bytes.length → img'.bytes[k]? = some ⟨if white then 0xFF else 0x00, 0xFF⟩)

/-- `IMG_COMPOSITE`: inside the source's rectangle every pixel is the source's, written; outside it every pixel keeps its
value and whether it is written; the header and the image's shape are unchanged; a source that does not fit is refused with
`F_RANGE` (40_bit_image.md, section 1; decisions D33, D38). -/
def Obligations.ImgCompositeOverwritesTheRectangle : Prop :=
  ∀ (s : State) (img : PanelImage) (bis : Bis) (x y : Nat), Ready s →
    ((x + bis.w > img.w ∨ y + bis.h > img.h) → exec (.imgComposite img bis x y) s = .next (refusedWith .fRange s)) ∧
    (img.wf = true → bis.wf = true → x + bis.w ≤ img.w → y + bis.h ≤ img.h →
      ∃ img' v, exec (.imgComposite img bis x y) s = .next (answeredWith (.image img') s) ∧
        v = (if s.cfg.compositeView = .normal then bis.normal else bis.inverted) ∧
        img'.w = img.w ∧ img'.h = img.h ∧ img'.wf = true ∧ (∀ k, k < 16 → img'.bytes[k]? = img.bytes[k]?) ∧
        ∀ px py, px < img.w → py < img.h →
          pixelAt img' px py =
            if x ≤ px ∧ px < x + bis.w ∧ y ≤ py ∧ py < y + bis.h then
              some ((v.getD (((py - y) * bis.w + (px - x)) / 8) 0).getLsbD (7 - ((py - y) * bis.w + (px - x)) % 8))
            else pixelAt img px py)

/-- `BIS_NEW`: the normal view reverses the bits within each byte and keeps the bytes' order, the inverted view is its
complement, bytes past the bitmap are ignored; `F_GEOMETRY` is checked before `F_OVERRUN` (40_bit_image.md, section 2;
decisions D36, D37; R207 the spec marks as derived). -/
def Obligations.BisNewReversesAndComplements : Prop :=
  ∀ (s : State) (w h : Nat) (raw : List Byte), Ready s →
    (w * h % 8 ≠ 0 → exec (.bisNew w h raw) s = .next (refusedWith .fGeometry s)) ∧
    (w * h % 8 = 0 → raw.length < w * h / 8 → exec (.bisNew w h raw) s = .next (refusedWith .fOverrun s)) ∧
    (w * h % 8 = 0 → w * h / 8 ≤ raw.length →
      ∃ b, exec (.bisNew w h raw) s = .next (answeredWith (.bis b) s) ∧ b.w = w ∧ b.h = h ∧
        b.normal.length = w * h / 8 ∧ b.inverted.length = w * h / 8 ∧
        ∀ i k, i < w * h / 8 → k < 8 →
          (b.normal.getD i 0).getLsbD k = (raw.getD i 0).getLsbD (7 - k) ∧
          (b.inverted.getD i 0).getLsbD k = !(raw.getD i 0).getLsbD (7 - k))

/-- `BIS_VIEW`: the view asked for, of `(w*h)/8` bytes; nothing else changes (40_bit_image.md R206). -/
def Obligations.BisViewGivesTheView : Prop :=
  ∀ (s : State) (bis : Bis) (which : View), Ready s → bis.wf = true →
    ∃ v, exec (.bisView bis which) s = .next (answeredWith (.bytes v) s) ∧ v.length = bis.w * bis.h / 8 ∧
      v = (match which with | .normal => bis.normal | .inverted => bis.inverted)

/-! ## Packetizer -/

/-- `PKT_SPLIT`: `len / plen` full packets and one final packet of `len % plen` bytes, empty at an exact multiple, in
increasing order; `plen = 0` is refused with `F_PLEN` (44_packetizer.md, section 1; decision D26; 90_conflicts.md C1). -/
def Obligations.PktSplitCountsAndPlacesPackets : Prop :=
  ∀ (s : State) (len plen : Nat), Ready s →
    (plen = 0 → exec (.pktSplit len plen) s = .next (refusedWith .fPlen s)) ∧
    (0 < plen →
      ∃ l, exec (.pktSplit len plen) s = .next (answeredWith (.packets l) s) ∧ l.length = len / plen + 1 ∧
        (∀ k, k < len / plen → l[k]? = some (k * plen, plen)) ∧
        l[len / plen]? = some (len / plen * plen, len % plen))

/-- The packets of a transfer tile its bytes: the payloads of its image frames, in order, are exactly the bytes
(44_packetizer.md, section 1, which the spec marks as derived). -/
def Obligations.PacketsTileTheBuffer : Prop :=
  ∀ (data : List Byte) (plen : Nat), 0 < plen →
    ((imageFrames data plen).map (fun f => f.drop 4)).flatten = data

/-- `SEND_IMAGE`: the data-pointer reset sequence, whose result does not enter, then every packet with initByte 0x01 and its
own retries; the result is the AND of the packets' results; refused in the order `F_PLEN`, `F_LEN`, `F_OVERRUN`,
`F_UNWRITTEN` before any event (44_packetizer.md, sections 2 and 3; decisions D22, D26, D40, D54). -/
def Obligations.SendImageIsAllOrNothing : Prop :=
  ∀ (s : State) (buf : Buffer) (len plen : Nat), Ready s →
    (plen = 0 → exec (.sendImage buf len plen) s = .next (refusedWith .fPlen s)) ∧
    (255 < plen → exec (.sendImage buf len plen) s = .next (refusedWith .fLen s)) ∧
    (0 < plen → plen ≤ 255 → buf.length < len → exec (.sendImage buf len plen) s = .next (refusedWith .fOverrun s)) ∧
    (0 < plen → plen ≤ 255 → len ≤ buf.length → (∃ b ∈ buf.take len, b.isWritten = false) →
      exec (.sendImage buf len plen) s = .next (refusedWith .fUnwritten s)) ∧
    (0 < plen → plen ≤ 255 → len ≤ buf.length → (∀ b ∈ buf.take len, b.isWritten = true) →
      ∃ t okR oks m e₁ e₂, exec (.sendImage buf len plen) s = .next t ∧ Extends s t (e₁ ++ e₂) [.bool (oks.all id)] ∧
        RetryTrace s.cfg [s.cfg.opParam, 0x0D, s.cfg.slot .dpReset, 0x00] s.cfg.tLong .dpResetFail 3 okR
          s.mark m e₁ ∧
        PacketsTrace s.cfg (imageFrames ((buf.take len).map BufByte.val) plen) oks m t.mark e₂ ∧
        t.initXfer = true ∧ t.lastUpdate = s.lastUpdate ∧ t.cs = .deselected ∧ t.lastWait ≠ none)

/-- A Bit-Image Source declares 16 bytes more than either of its views holds: a send of a view with the declared length is
refused with `F_OVERRUN` before any event, and one with the view's own length sends all of it (20_memory.md, section 1;
40_bit_image.md, section 2; 70_reset_and_hazards.md, section 2; decision D39; 90_conflicts.md C7). -/
def Obligations.BisDeclaredLengthOverrunsItsViews : Prop :=
  ∀ (s : State) (bis : Bis) (which : View) (v : List Byte) (plen : Nat), Ready s → bis.wf = true → 0 < plen →
    plen ≤ 255 → exec (.bisView bis which) s = .next (answeredWith (.bytes v) s) →
    bisLen bis = 16 + bis.w * bis.h / 8 ∧ bisLen bis = v.length + 16 ∧
    exec (.sendImage (v.map fun b => ⟨b, 0xFF⟩) (bisLen bis) plen) s = .next (refusedWith .fOverrun s) ∧
    ∃ t okR oks m e₁ e₂, exec (.sendImage (v.map fun b => ⟨b, 0xFF⟩) v.length plen) s = .next t ∧
      Extends s t (e₁ ++ e₂) [.bool (oks.all id)] ∧
      RetryTrace s.cfg [s.cfg.opParam, 0x0D, s.cfg.slot .dpReset, 0x00] s.cfg.tLong .dpResetFail 3 okR s.mark m e₁ ∧
      PacketsTrace s.cfg (imageFrames v plen) oks m t.mark e₂

/-- `SEND_IMAGE_PI`: the whole buffer, header included, in packets of the default length; an image with an unwritten byte
is refused with `F_UNWRITTEN` before any event (44_packetizer.md, section 3; decision D52). -/
def Obligations.SendImagePiSendsTheWholeImage : Prop :=
  ∀ (s : State) (img : PanelImage), Ready s → img.wf = true →
    ((∀ b ∈ img.bytes, b.isWritten = true) →
      ∃ t okR oks m e₁ e₂, exec (.sendImagePi img) s = .next t ∧ Extends s t (e₁ ++ e₂) [.bool (oks.all id)] ∧
        RetryTrace s.cfg [s.cfg.opParam, 0x0D, s.cfg.slot .dpReset, 0x00] s.cfg.tLong .dpResetFail 3 okR
          s.mark m e₁ ∧
        PacketsTrace s.cfg (imageFrames (img.bytes.map BufByte.val) s.cfg.defaultPacketLen) oks m t.mark e₂ ∧
        t.initXfer = true ∧ t.lastUpdate = s.lastUpdate ∧ t.cs = .deselected ∧ t.lastWait ≠ none) ∧
    ((∃ b ∈ img.bytes, b.isWritten = false) → exec (.sendImagePi img) s = .next (refusedWith .fUnwritten s))

/-- `SEND_IMAGE_ROI`: the ROI frame of the clamped window, then every packet of the whole buffer; the result is the OR of
the packets' results; a pass that failed is repeated once in full when `retry` is 0, and at most once (44_packetizer.md,
section 3; decisions D28, D55, D56, D58). -/
def Obligations.SendImageRoiIsAnySuccess : Prop :=
  ∀ (s : State) (buf : Buffer) (x y w h retry : Nat) (f : Nat × Nat × Nat × Nat), Ready s →
    y ≤ s.cfg.roiClampH → 0 < w → w < 512 →
    roiFields s.cfg x y w (if y + h > s.cfg.roiClampH then s.cfg.roiClampH - y else h) = some f →
    (∀ b ∈ buf, b.isWritten = true) →
    ∃ t ok evs, exec (.sendImageRoi buf x y w h retry) s = .next t ∧ Extends s t evs [.bool ok] ∧
      t.initXfer = true ∧ t.lastUpdate = s.lastUpdate ∧ t.cs = .deselected ∧ t.lastWait ≠ none ∧
      ((∃ oks, RoiPassTrace s.cfg f (buf.map BufByte.val) (if w > 250 then w / 2 else w) oks s.mark t.mark evs ∧
          ok = oks.any id ∧ (ok = true ∨ retry ≠ 0)) ∨
        (retry = 0 ∧ ∃ oks₁ oks₂ m e₁ e₂, evs = e₁ ++ e₂ ∧
          RoiPassTrace s.cfg f (buf.map BufByte.val) (if w > 250 then w / 2 else w) oks₁ s.mark m e₁ ∧
          oks₁.any id = false ∧
          RoiPassTrace s.cfg f (buf.map BufByte.val) (if w > 250 then w / 2 else w) oks₂ m t.mark e₂ ∧
          ok = oks₂.any id))

/-- The refusals of `SEND_IMAGE_ROI`, in their order, before any event: a start past the clamp bound, a width of 0, a width
of 512 or more, a window R159 refuses, an unwritten byte (44_packetizer.md, section 3; 60_exceptions.md, section 2; R473 the
spec marks as derived). -/
def Obligations.SendImageRoiRefusesInOrder : Prop :=
  ∀ (s : State) (buf : Buffer) (x y w h retry : Nat), Ready s →
    (s.cfg.roiClampH < y → exec (.sendImageRoi buf x y w h retry) s = .next (refusedWith .fRange s)) ∧
    (y ≤ s.cfg.roiClampH → w = 0 → exec (.sendImageRoi buf x y w h retry) s = .next (refusedWith .fPlen s)) ∧
    (y ≤ s.cfg.roiClampH → 512 ≤ w → exec (.sendImageRoi buf x y w h retry) s = .next (refusedWith .fLen s)) ∧
    (y ≤ s.cfg.roiClampH → 0 < w → w < 512 →
      roiFields s.cfg x y w (if y + h > s.cfg.roiClampH then s.cfg.roiClampH - y else h) = none →
      exec (.sendImageRoi buf x y w h retry) s = .next (refusedWith .fRange s)) ∧
    (y ≤ s.cfg.roiClampH → 0 < w → w < 512 →
      (roiFields s.cfg x y w (if y + h > s.cfg.roiClampH then s.cfg.roiClampH - y else h)).isSome →
      (∃ b ∈ buf, b.isWritten = false) →
      exec (.sendImageRoi buf x y w h retry) s = .next (refusedWith .fUnwritten s))

/-- The clamp: whatever the operands, every ROI frame that `SEND_IMAGE_ROI` puts on the port has a Y-max field of at most
`P_ROI_CLAMP_H`, one less when the field is inclusive (44_packetizer.md, R328, which the spec marks as derived;
90_conflicts.md C2). -/
def Obligations.RoiTransferNeverPassesTheClamp : Prop :=
  ∀ (s t : State) (buf : Buffer) (x y w h retry : Nat) (evs : List Event) (tx rx : List Byte),
    exec (.sendImageRoi buf x y w h retry) s = .next t → t.trace = s.trace ++ evs →
    .txn .send tx rx ∈ evs → tx.getD 1 0 = 0x0A →
    ofBe16 (tx.getD 10 0) (tx.getD 11 0) + roiEnd s.cfg ≤ s.cfg.roiClampH

/-! ## Orchestrator sequences -/

/-- `FILL` and `FILL_ROI`: the ROI frame, then the fill frame whatever the first one's status, each once with its wait and
status read; the payload is 0xFF for white and 0x00 for black, the other way round under `P_FILL_INVERT`; the window is
sent as given, or refused with `F_RANGE` before any event (45_sequences.md; decisions D28 to D30, D35, D40). -/
def Obligations.FillSetsTheWindowThenFills : Prop :=
  ∀ (s : State) (x y w h : Nat) (white : Bool) (v : Byte), Ready s →
    v = (if white = s.cfg.fillInvert then 0x00 else 0xFF) →
    ∀ i, (i = .fillRoi x y w h white ∨
        (i = .fill white ∧ x = 0 ∧ y = 0 ∧ w = s.cfg.panelW ∧ h = s.cfg.panelH)) →
      (∀ f, roiFields s.cfg x y w h = some f →
        ∃ t m c₁ e₁ c₂ e₂, exec i s = .next t ∧ Extends s t (e₁ ++ e₂) [.unit] ∧
          CommandTrace s.cfg ([s.cfg.opParam, 0x0A, s.cfg.slot .roi, 0x08] ++ be16 f.1 ++ be16 f.2.1 ++ be16 f.2.2.1 ++
            be16 f.2.2.2) s.cfg.tMedium c₁ s.mark m e₁ ∧
          CommandTrace s.cfg [s.cfg.opParam, 0x0B, s.cfg.slot .fill, 0x01, v] s.cfg.tMedium c₂ m t.mark e₂ ∧
          Quiet s t) ∧
      (roiFields s.cfg x y w h = none → exec i s = .next (refusedWith .fRange s))

/-- `COPY_ROI`: the ROI frame, then the copy frame with the given source slot, or `P_COPY_DEFAULT_SRC` when none is given
(45_sequences.md; decisions D8, D31, D40). -/
def Obligations.CopyRoiSetsTheWindowThenCopies : Prop :=
  ∀ (s : State) (x y w h : Nat) (src : Option Byte) (b : Byte), Ready s →
    (src = some b ∨ (src = none ∧ b = s.cfg.copyDefaultSrc)) →
      (∀ f, roiFields s.cfg x y w h = some f →
        ∃ t m c₁ e₁ c₂ e₂, exec (.copyRoi x y w h src) s = .next t ∧ Extends s t (e₁ ++ e₂) [.unit] ∧
          CommandTrace s.cfg ([s.cfg.opParam, 0x0A, s.cfg.slot .roi, 0x08] ++ be16 f.1 ++ be16 f.2.1 ++ be16 f.2.2.1 ++
            be16 f.2.2.2) s.cfg.tMedium c₁ s.mark m e₁ ∧
          CommandTrace s.cfg [s.cfg.opParam, 0x0C, s.cfg.slot .copyDst, 0x01, b] s.cfg.tMedium c₂ m t.mark e₂ ∧
          Quiet s t) ∧
      (roiFields s.cfg x y w h = none → exec (.copyRoi x y w h src) s = .next (refusedWith .fRange s))

/-- `ERASE_P`: the erase frame with the parameter's slot, once, then the wait at `T_LONG` (45_sequences.md;
decision D21). -/
def Obligations.ErasePSendsTheEraseFrame : Prop :=
  ∀ s : State, Ready s →
    ∃ t o w, exec .eraseP s = .next t ∧ Extends s t (.txn .send [0x20, 0x0E, s.cfg.slot .erase] [] :: w) [.unit] ∧
      WaitTrace s.cfg s.cfg.tLong o s.mark t.mark w ∧ Quiet s t ∧ t.panel = s.panel

/-- The three update pseudo-operations: the update frame with the parameter's slot, once, the timestamp, the wait at
`T_LONG`; none waits for the refresh (45_sequences.md; decisions D15 to D17). -/
def Obligations.UpdatePseudoOperationsSendTheirFrames : Prop :=
  ∀ s : State, Ready s →
    ∀ i op, ((i = .updateP ∧ op = s.cfg.opUpdFull) ∨ (i = .updateFlP ∧ op = s.cfg.opUpdFl) ∨
        (i = .updateFlinvP ∧ op = s.cfg.opUpdFlinv)) →
      ∃ t o w, exec i s = .next t ∧ Extends s t (.txn .send [op, 0x01, s.cfg.slot .update] [] :: w) [.unit] ∧
        WaitTrace s.cfg s.cfg.tLong o ⟨(readClock s).1, s.lastWait⟩ t.mark w ∧ t.lastUpdate = .time (readClock s).1 ∧
        (readClock s).1 ≤ t.clock ∧ t.initXfer = s.initXfer ∧ t.cs = .deselected ∧ t.panel = s.panel

/-- A pseudo-operation has the effect of the requests it expands to, in order, in every state: the same end state but for
the responses, one for the pseudo-operation and one for each request of the expansion; where the expansion is one request
the response is the same too (30_encoding.md R183). -/
def Obligations.PseudoOperationsAreTheirExpansions : Prop :=
  ∀ (i : Instr) (js : List Instr) (s : State), expand s.cfg i = some js →
    ∃ t v, exec i s = .next t ∧ runAll js s = some v ∧ t = { v with responses := t.responses } ∧
      v.responses.length = s.responses.length + js.length ∧ (js.length = 1 → t = v)
end

