-- ==== Sys2Proof/Laws/State.lean ====
section
/-!
SUPPORT. What each update of the state leaves in each field, one lemma per field per update.
-/

namespace Sys2Proof.Machine

@[simp] theorem emit_phase (e : Event) (s : State) : (emit e s).phase = s.phase := rfl
@[simp] theorem emit_fault (e : Event) (s : State) : (emit e s).fault = s.fault := rfl
@[simp] theorem emit_initXfer (e : Event) (s : State) : (emit e s).initXfer = s.initXfer := rfl
@[simp] theorem emit_lastUpdate (e : Event) (s : State) : (emit e s).lastUpdate = s.lastUpdate := rfl
@[simp] theorem emit_cs (e : Event) (s : State) : (emit e s).cs = s.cs := rfl
@[simp] theorem emit_lastWait (e : Event) (s : State) : (emit e s).lastWait = s.lastWait := rfl
@[simp] theorem emit_trace (e : Event) (s : State) : (emit e s).trace = s.trace ++ [e] := rfl
@[simp] theorem emit_cfg (e : Event) (s : State) : (emit e s).cfg = s.cfg := rfl
@[simp] theorem emit_clock (e : Event) (s : State) : (emit e s).clock = s.clock := rfl
@[simp] theorem emit_ticks (e : Event) (s : State) : (emit e s).ticks = s.ticks := rfl
@[simp] theorem emit_line (e : Event) (s : State) : (emit e s).line = s.line := rfl
@[simp] theorem emit_panel (e : Event) (s : State) : (emit e s).panel = s.panel := rfl
@[simp] theorem emit_acquires (e : Event) (s : State) : (emit e s).acquires = s.acquires := rfl
@[simp] theorem emit_requests (e : Event) (s : State) : (emit e s).requests = s.requests := rfl
@[simp] theorem emit_responses (e : Event) (s : State) : (emit e s).responses = s.responses := rfl
@[simp] theorem emit_history (e : Event) (s : State) : (emit e s).history = s.history := rfl

@[simp] theorem send_phase (tx : List Byte) (s : State) : (send tx s).phase = s.phase := rfl
@[simp] theorem send_fault (tx : List Byte) (s : State) : (send tx s).fault = s.fault := rfl
@[simp] theorem send_initXfer (tx : List Byte) (s : State) : (send tx s).initXfer = s.initXfer := rfl
@[simp] theorem send_lastUpdate (tx : List Byte) (s : State) : (send tx s).lastUpdate = s.lastUpdate := rfl
@[simp] theorem send_cs (tx : List Byte) (s : State) : (send tx s).cs = .deselected := rfl
@[simp] theorem send_lastWait (tx : List Byte) (s : State) : (send tx s).lastWait = s.lastWait := rfl
@[simp] theorem send_trace (tx : List Byte) (s : State) : (send tx s).trace = s.trace ++ [.txn .send tx []] := rfl
@[simp] theorem send_cfg (tx : List Byte) (s : State) : (send tx s).cfg = s.cfg := rfl
@[simp] theorem send_clock (tx : List Byte) (s : State) : (send tx s).clock = s.clock := rfl
@[simp] theorem send_ticks (tx : List Byte) (s : State) : (send tx s).ticks = s.ticks := rfl
@[simp] theorem send_line (tx : List Byte) (s : State) : (send tx s).line = s.line := rfl
@[simp] theorem send_panel (tx : List Byte) (s : State) : (send tx s).panel = s.panel := rfl
@[simp] theorem send_acquires (tx : List Byte) (s : State) : (send tx s).acquires = s.acquires := rfl
@[simp] theorem send_requests (tx : List Byte) (s : State) : (send tx s).requests = s.requests := rfl
@[simp] theorem send_responses (tx : List Byte) (s : State) : (send tx s).responses = s.responses := rfl
@[simp] theorem send_history (tx : List Byte) (s : State) : (send tx s).history = s.history := rfl

@[simp] theorem exchange_phase (tx : List Byte) (s : State) : ((exchange tx s).2).phase = s.phase := rfl
@[simp] theorem exchange_fault (tx : List Byte) (s : State) : ((exchange tx s).2).fault = s.fault := rfl
@[simp] theorem exchange_initXfer (tx : List Byte) (s : State) : ((exchange tx s).2).initXfer = s.initXfer := rfl
@[simp] theorem exchange_lastUpdate (tx : List Byte) (s : State) : ((exchange tx s).2).lastUpdate = s.lastUpdate := rfl
@[simp] theorem exchange_cs (tx : List Byte) (s : State) : ((exchange tx s).2).cs = .deselected := rfl
@[simp] theorem exchange_lastWait (tx : List Byte) (s : State) : ((exchange tx s).2).lastWait = s.lastWait := rfl
@[simp] theorem exchange_trace (tx : List Byte) (s : State) : ((exchange tx s).2).trace = s.trace ++ [.txn .exchange tx (exchange tx s).1] := rfl
@[simp] theorem exchange_cfg (tx : List Byte) (s : State) : ((exchange tx s).2).cfg = s.cfg := rfl
@[simp] theorem exchange_clock (tx : List Byte) (s : State) : ((exchange tx s).2).clock = s.clock := rfl
@[simp] theorem exchange_ticks (tx : List Byte) (s : State) : ((exchange tx s).2).ticks = s.ticks := rfl
@[simp] theorem exchange_line (tx : List Byte) (s : State) : ((exchange tx s).2).line = s.line := rfl
@[simp] theorem exchange_panel (tx : List Byte) (s : State) : ((exchange tx s).2).panel = (pullMany Config.freeByte tx.length s.panel).2 := rfl
@[simp] theorem exchange_acquires (tx : List Byte) (s : State) : ((exchange tx s).2).acquires = s.acquires := rfl
@[simp] theorem exchange_requests (tx : List Byte) (s : State) : ((exchange tx s).2).requests = s.requests := rfl
@[simp] theorem exchange_responses (tx : List Byte) (s : State) : ((exchange tx s).2).responses = s.responses := rfl
@[simp] theorem exchange_history (tx : List Byte) (s : State) : ((exchange tx s).2).history = s.history := rfl

@[simp] theorem sample_phase (s : State) : ((sample s).2).phase = s.phase := rfl
@[simp] theorem sample_fault (s : State) : ((sample s).2).fault = s.fault := rfl
@[simp] theorem sample_initXfer (s : State) : ((sample s).2).initXfer = s.initXfer := rfl
@[simp] theorem sample_lastUpdate (s : State) : ((sample s).2).lastUpdate = s.lastUpdate := rfl
@[simp] theorem sample_cs (s : State) : ((sample s).2).cs = s.cs := rfl
@[simp] theorem sample_lastWait (s : State) : ((sample s).2).lastWait = s.lastWait := rfl
@[simp] theorem sample_trace (s : State) : ((sample s).2).trace = s.trace ++ [.pinRead .busy (sample s).1] := rfl
@[simp] theorem sample_cfg (s : State) : ((sample s).2).cfg = s.cfg := rfl
@[simp] theorem sample_clock (s : State) : ((sample s).2).clock = s.clock := rfl
@[simp] theorem sample_ticks (s : State) : ((sample s).2).ticks = s.ticks := rfl
@[simp] theorem sample_line (s : State) : ((sample s).2).line = (pull Config.freeLevel s.line).2 := rfl
@[simp] theorem sample_panel (s : State) : ((sample s).2).panel = s.panel := rfl
@[simp] theorem sample_acquires (s : State) : ((sample s).2).acquires = s.acquires := rfl
@[simp] theorem sample_requests (s : State) : ((sample s).2).requests = s.requests := rfl
@[simp] theorem sample_responses (s : State) : ((sample s).2).responses = s.responses := rfl
@[simp] theorem sample_history (s : State) : ((sample s).2).history = s.history := rfl

@[simp] theorem readClock_phase (s : State) : ((readClock s).2).phase = s.phase := rfl
@[simp] theorem readClock_fault (s : State) : ((readClock s).2).fault = s.fault := rfl
@[simp] theorem readClock_initXfer (s : State) : ((readClock s).2).initXfer = s.initXfer := rfl
@[simp] theorem readClock_lastUpdate (s : State) : ((readClock s).2).lastUpdate = s.lastUpdate := rfl
@[simp] theorem readClock_cs (s : State) : ((readClock s).2).cs = s.cs := rfl
@[simp] theorem readClock_lastWait (s : State) : ((readClock s).2).lastWait = s.lastWait := rfl
@[simp] theorem readClock_trace (s : State) : ((readClock s).2).trace = s.trace := rfl
@[simp] theorem readClock_cfg (s : State) : ((readClock s).2).cfg = s.cfg := rfl
@[simp] theorem readClock_clock (s : State) : ((readClock s).2).clock = (readClock s).1 := rfl
@[simp] theorem readClock_ticks (s : State) : ((readClock s).2).ticks = (pull Config.freeAdvance s.ticks).2 := rfl
@[simp] theorem readClock_line (s : State) : ((readClock s).2).line = s.line := rfl
@[simp] theorem readClock_panel (s : State) : ((readClock s).2).panel = s.panel := rfl
@[simp] theorem readClock_acquires (s : State) : ((readClock s).2).acquires = s.acquires := rfl
@[simp] theorem readClock_requests (s : State) : ((readClock s).2).requests = s.requests := rfl
@[simp] theorem readClock_responses (s : State) : ((readClock s).2).responses = s.responses := rfl
@[simp] theorem readClock_history (s : State) : ((readClock s).2).history = s.history := rfl

@[simp] theorem sleepFor_phase (d : Nat) (s : State) : (sleepFor d s).phase = s.phase := rfl
@[simp] theorem sleepFor_fault (d : Nat) (s : State) : (sleepFor d s).fault = s.fault := rfl
@[simp] theorem sleepFor_initXfer (d : Nat) (s : State) : (sleepFor d s).initXfer = s.initXfer := rfl
@[simp] theorem sleepFor_lastUpdate (d : Nat) (s : State) : (sleepFor d s).lastUpdate = s.lastUpdate := rfl
@[simp] theorem sleepFor_cs (d : Nat) (s : State) : (sleepFor d s).cs = s.cs := rfl
@[simp] theorem sleepFor_lastWait (d : Nat) (s : State) : (sleepFor d s).lastWait = s.lastWait := rfl
@[simp] theorem sleepFor_trace (d : Nat) (s : State) : (sleepFor d s).trace = s.trace ++ [.slept d] := rfl
@[simp] theorem sleepFor_cfg (d : Nat) (s : State) : (sleepFor d s).cfg = s.cfg := rfl
@[simp] theorem sleepFor_clock (d : Nat) (s : State) : (sleepFor d s).clock = s.clock + d := rfl
@[simp] theorem sleepFor_ticks (d : Nat) (s : State) : (sleepFor d s).ticks = s.ticks := rfl
@[simp] theorem sleepFor_line (d : Nat) (s : State) : (sleepFor d s).line = s.line := rfl
@[simp] theorem sleepFor_panel (d : Nat) (s : State) : (sleepFor d s).panel = s.panel := rfl
@[simp] theorem sleepFor_acquires (d : Nat) (s : State) : (sleepFor d s).acquires = s.acquires := rfl
@[simp] theorem sleepFor_requests (d : Nat) (s : State) : (sleepFor d s).requests = s.requests := rfl
@[simp] theorem sleepFor_responses (d : Nat) (s : State) : (sleepFor d s).responses = s.responses := rfl
@[simp] theorem sleepFor_history (d : Nat) (s : State) : (sleepFor d s).history = s.history := rfl

@[simp] theorem logEvent_phase (k : LogKind) (s : State) : (logEvent k s).phase = s.phase := rfl
@[simp] theorem logEvent_fault (k : LogKind) (s : State) : (logEvent k s).fault = s.fault := rfl
@[simp] theorem logEvent_initXfer (k : LogKind) (s : State) : (logEvent k s).initXfer = s.initXfer := rfl
@[simp] theorem logEvent_lastUpdate (k : LogKind) (s : State) : (logEvent k s).lastUpdate = s.lastUpdate := rfl
@[simp] theorem logEvent_cs (k : LogKind) (s : State) : (logEvent k s).cs = s.cs := rfl
@[simp] theorem logEvent_lastWait (k : LogKind) (s : State) : (logEvent k s).lastWait = s.lastWait := rfl
@[simp] theorem logEvent_trace (k : LogKind) (s : State) : (logEvent k s).trace = s.trace ++ [.log k] := rfl
@[simp] theorem logEvent_cfg (k : LogKind) (s : State) : (logEvent k s).cfg = s.cfg := rfl
@[simp] theorem logEvent_clock (k : LogKind) (s : State) : (logEvent k s).clock = s.clock := rfl
@[simp] theorem logEvent_ticks (k : LogKind) (s : State) : (logEvent k s).ticks = s.ticks := rfl
@[simp] theorem logEvent_line (k : LogKind) (s : State) : (logEvent k s).line = s.line := rfl
@[simp] theorem logEvent_panel (k : LogKind) (s : State) : (logEvent k s).panel = s.panel := rfl
@[simp] theorem logEvent_acquires (k : LogKind) (s : State) : (logEvent k s).acquires = s.acquires := rfl
@[simp] theorem logEvent_requests (k : LogKind) (s : State) : (logEvent k s).requests = s.requests := rfl
@[simp] theorem logEvent_responses (k : LogKind) (s : State) : (logEvent k s).responses = s.responses := rfl
@[simp] theorem logEvent_history (k : LogKind) (s : State) : (logEvent k s).history = s.history := rfl

@[simp] theorem acquire_phase (s : State) : ((acquire s).2).phase = s.phase := rfl
@[simp] theorem acquire_fault (s : State) : ((acquire s).2).fault = s.fault := rfl
@[simp] theorem acquire_initXfer (s : State) : ((acquire s).2).initXfer = s.initXfer := rfl
@[simp] theorem acquire_lastUpdate (s : State) : ((acquire s).2).lastUpdate = s.lastUpdate := rfl
@[simp] theorem acquire_cs (s : State) : ((acquire s).2).cs = s.cs := rfl
@[simp] theorem acquire_lastWait (s : State) : ((acquire s).2).lastWait = s.lastWait := rfl
@[simp] theorem acquire_trace (s : State) : ((acquire s).2).trace = s.trace := rfl
@[simp] theorem acquire_cfg (s : State) : ((acquire s).2).cfg = s.cfg := rfl
@[simp] theorem acquire_clock (s : State) : ((acquire s).2).clock = s.clock := rfl
@[simp] theorem acquire_ticks (s : State) : ((acquire s).2).ticks = s.ticks := rfl
@[simp] theorem acquire_line (s : State) : ((acquire s).2).line = s.line := rfl
@[simp] theorem acquire_panel (s : State) : ((acquire s).2).panel = s.panel := rfl
@[simp] theorem acquire_acquires (s : State) : ((acquire s).2).acquires = (pull Config.freeAcquire s.acquires).2 := rfl
@[simp] theorem acquire_requests (s : State) : ((acquire s).2).requests = s.requests := rfl
@[simp] theorem acquire_responses (s : State) : ((acquire s).2).responses = s.responses := rfl
@[simp] theorem acquire_history (s : State) : ((acquire s).2).history = s.history := rfl

@[simp] theorem respond_phase (r : Response) (s : State) : (respond r s).phase = s.phase := rfl
@[simp] theorem respond_fault (r : Response) (s : State) : (respond r s).fault = s.fault := rfl
@[simp] theorem respond_initXfer (r : Response) (s : State) : (respond r s).initXfer = s.initXfer := rfl
@[simp] theorem respond_lastUpdate (r : Response) (s : State) : (respond r s).lastUpdate = s.lastUpdate := rfl
@[simp] theorem respond_cs (r : Response) (s : State) : (respond r s).cs = s.cs := rfl
@[simp] theorem respond_lastWait (r : Response) (s : State) : (respond r s).lastWait = s.lastWait := rfl
@[simp] theorem respond_trace (r : Response) (s : State) : (respond r s).trace = s.trace := rfl
@[simp] theorem respond_cfg (r : Response) (s : State) : (respond r s).cfg = s.cfg := rfl
@[simp] theorem respond_clock (r : Response) (s : State) : (respond r s).clock = s.clock := rfl
@[simp] theorem respond_ticks (r : Response) (s : State) : (respond r s).ticks = s.ticks := rfl
@[simp] theorem respond_line (r : Response) (s : State) : (respond r s).line = s.line := rfl
@[simp] theorem respond_panel (r : Response) (s : State) : (respond r s).panel = s.panel := rfl
@[simp] theorem respond_acquires (r : Response) (s : State) : (respond r s).acquires = s.acquires := rfl
@[simp] theorem respond_requests (r : Response) (s : State) : (respond r s).requests = s.requests := rfl
@[simp] theorem respond_responses (r : Response) (s : State) : (respond r s).responses = s.responses ++ [r] := rfl
@[simp] theorem respond_history (r : Response) (s : State) : (respond r s).history = s.history := rfl

@[simp] theorem raise_phase (c : FaultCode) (s : State) : (raise c s).phase = s.phase := rfl
@[simp] theorem raise_fault (c : FaultCode) (s : State) : (raise c s).fault = some c := rfl
@[simp] theorem raise_initXfer (c : FaultCode) (s : State) : (raise c s).initXfer = s.initXfer := rfl
@[simp] theorem raise_lastUpdate (c : FaultCode) (s : State) : (raise c s).lastUpdate = s.lastUpdate := rfl
@[simp] theorem raise_cs (c : FaultCode) (s : State) : (raise c s).cs = s.cs := rfl
@[simp] theorem raise_lastWait (c : FaultCode) (s : State) : (raise c s).lastWait = s.lastWait := rfl
@[simp] theorem raise_trace (c : FaultCode) (s : State) : (raise c s).trace = s.trace := rfl
@[simp] theorem raise_cfg (c : FaultCode) (s : State) : (raise c s).cfg = s.cfg := rfl
@[simp] theorem raise_clock (c : FaultCode) (s : State) : (raise c s).clock = s.clock := rfl
@[simp] theorem raise_ticks (c : FaultCode) (s : State) : (raise c s).ticks = s.ticks := rfl
@[simp] theorem raise_line (c : FaultCode) (s : State) : (raise c s).line = s.line := rfl
@[simp] theorem raise_panel (c : FaultCode) (s : State) : (raise c s).panel = s.panel := rfl
@[simp] theorem raise_acquires (c : FaultCode) (s : State) : (raise c s).acquires = s.acquires := rfl
@[simp] theorem raise_requests (c : FaultCode) (s : State) : (raise c s).requests = s.requests := rfl
@[simp] theorem raise_responses (c : FaultCode) (s : State) : (raise c s).responses = s.responses ++ [.fault c] := rfl
@[simp] theorem raise_history (c : FaultCode) (s : State) : (raise c s).history = s.history := rfl

@[simp] theorem offer_phase (i : Instr) (s : State) : (offer i s).phase = s.phase := rfl
@[simp] theorem offer_fault (i : Instr) (s : State) : (offer i s).fault = s.fault := rfl
@[simp] theorem offer_initXfer (i : Instr) (s : State) : (offer i s).initXfer = s.initXfer := rfl
@[simp] theorem offer_lastUpdate (i : Instr) (s : State) : (offer i s).lastUpdate = s.lastUpdate := rfl
@[simp] theorem offer_cs (i : Instr) (s : State) : (offer i s).cs = s.cs := rfl
@[simp] theorem offer_lastWait (i : Instr) (s : State) : (offer i s).lastWait = s.lastWait := rfl
@[simp] theorem offer_trace (i : Instr) (s : State) : (offer i s).trace = s.trace := rfl
@[simp] theorem offer_cfg (i : Instr) (s : State) : (offer i s).cfg = s.cfg := rfl
@[simp] theorem offer_clock (i : Instr) (s : State) : (offer i s).clock = s.clock := rfl
@[simp] theorem offer_ticks (i : Instr) (s : State) : (offer i s).ticks = s.ticks := rfl
@[simp] theorem offer_line (i : Instr) (s : State) : (offer i s).line = s.line := rfl
@[simp] theorem offer_panel (i : Instr) (s : State) : (offer i s).panel = s.panel := rfl
@[simp] theorem offer_acquires (i : Instr) (s : State) : (offer i s).acquires = s.acquires := rfl
@[simp] theorem offer_requests (i : Instr) (s : State) : (offer i s).requests = i :: s.requests := rfl
@[simp] theorem offer_responses (i : Instr) (s : State) : (offer i s).responses = s.responses := rfl
@[simp] theorem offer_history (i : Instr) (s : State) : (offer i s).history = s.history := rfl

@[simp] theorem waitCleared_phase (s : State) : (waitCleared s).phase = s.phase := rfl
@[simp] theorem waitCleared_fault (s : State) : (waitCleared s).fault = s.fault := rfl
@[simp] theorem waitCleared_initXfer (s : State) : (waitCleared s).initXfer = s.initXfer := rfl
@[simp] theorem waitCleared_lastUpdate (s : State) : (waitCleared s).lastUpdate = s.lastUpdate := rfl
@[simp] theorem waitCleared_cs (s : State) : (waitCleared s).cs = s.cs := rfl
@[simp] theorem waitCleared_lastWait (s : State) : (waitCleared s).lastWait = some .cleared := rfl
@[simp] theorem waitCleared_trace (s : State) : (waitCleared s).trace = s.trace := rfl
@[simp] theorem waitCleared_cfg (s : State) : (waitCleared s).cfg = s.cfg := rfl
@[simp] theorem waitCleared_clock (s : State) : (waitCleared s).clock = s.clock := rfl
@[simp] theorem waitCleared_ticks (s : State) : (waitCleared s).ticks = s.ticks := rfl
@[simp] theorem waitCleared_line (s : State) : (waitCleared s).line = s.line := rfl
@[simp] theorem waitCleared_panel (s : State) : (waitCleared s).panel = s.panel := rfl
@[simp] theorem waitCleared_acquires (s : State) : (waitCleared s).acquires = s.acquires := rfl
@[simp] theorem waitCleared_requests (s : State) : (waitCleared s).requests = s.requests := rfl
@[simp] theorem waitCleared_responses (s : State) : (waitCleared s).responses = s.responses := rfl
@[simp] theorem waitCleared_history (s : State) : (waitCleared s).history = s.history := rfl

@[simp] theorem waitTimedOut_phase (s : State) : (waitTimedOut s).phase = s.phase := rfl
@[simp] theorem waitTimedOut_fault (s : State) : (waitTimedOut s).fault = s.fault := rfl
@[simp] theorem waitTimedOut_initXfer (s : State) : (waitTimedOut s).initXfer = s.initXfer := rfl
@[simp] theorem waitTimedOut_lastUpdate (s : State) : (waitTimedOut s).lastUpdate = s.lastUpdate := rfl
@[simp] theorem waitTimedOut_cs (s : State) : (waitTimedOut s).cs = s.cs := rfl
@[simp] theorem waitTimedOut_lastWait (s : State) : (waitTimedOut s).lastWait = some .timedOut := rfl
@[simp] theorem waitTimedOut_trace (s : State) : (waitTimedOut s).trace = s.trace ++ [.log .waitTimeout] := rfl
@[simp] theorem waitTimedOut_cfg (s : State) : (waitTimedOut s).cfg = s.cfg := rfl
@[simp] theorem waitTimedOut_clock (s : State) : (waitTimedOut s).clock = s.clock := rfl
@[simp] theorem waitTimedOut_ticks (s : State) : (waitTimedOut s).ticks = s.ticks := rfl
@[simp] theorem waitTimedOut_line (s : State) : (waitTimedOut s).line = s.line := rfl
@[simp] theorem waitTimedOut_panel (s : State) : (waitTimedOut s).panel = s.panel := rfl
@[simp] theorem waitTimedOut_acquires (s : State) : (waitTimedOut s).acquires = s.acquires := rfl
@[simp] theorem waitTimedOut_requests (s : State) : (waitTimedOut s).requests = s.requests := rfl
@[simp] theorem waitTimedOut_responses (s : State) : (waitTimedOut s).responses = s.responses := rfl
@[simp] theorem waitTimedOut_history (s : State) : (waitTimedOut s).history = s.history := rfl

@[simp] theorem stampUpdate_phase (s : State) : (stampUpdate s).phase = s.phase := rfl
@[simp] theorem stampUpdate_fault (s : State) : (stampUpdate s).fault = s.fault := rfl
@[simp] theorem stampUpdate_initXfer (s : State) : (stampUpdate s).initXfer = s.initXfer := rfl
@[simp] theorem stampUpdate_lastUpdate (s : State) : (stampUpdate s).lastUpdate = .time (readClock s).1 := rfl
@[simp] theorem stampUpdate_cs (s : State) : (stampUpdate s).cs = s.cs := rfl
@[simp] theorem stampUpdate_lastWait (s : State) : (stampUpdate s).lastWait = s.lastWait := rfl
@[simp] theorem stampUpdate_trace (s : State) : (stampUpdate s).trace = s.trace := rfl
@[simp] theorem stampUpdate_cfg (s : State) : (stampUpdate s).cfg = s.cfg := rfl
@[simp] theorem stampUpdate_clock (s : State) : (stampUpdate s).clock = (readClock s).1 := rfl
@[simp] theorem stampUpdate_ticks (s : State) : (stampUpdate s).ticks = (pull Config.freeAdvance s.ticks).2 := rfl
@[simp] theorem stampUpdate_line (s : State) : (stampUpdate s).line = s.line := rfl
@[simp] theorem stampUpdate_panel (s : State) : (stampUpdate s).panel = s.panel := rfl
@[simp] theorem stampUpdate_acquires (s : State) : (stampUpdate s).acquires = s.acquires := rfl
@[simp] theorem stampUpdate_requests (s : State) : (stampUpdate s).requests = s.requests := rfl
@[simp] theorem stampUpdate_responses (s : State) : (stampUpdate s).responses = s.responses := rfl
@[simp] theorem stampUpdate_history (s : State) : (stampUpdate s).history = s.history := rfl

end Sys2Proof.Machine
end

