-- ==== Sys2Proof/Laws/Ops.lean ====
section
/-!
SUPPORT. What the shared operations can do, once each: the port primitives, the waits, the status read, commands and
retried commands.
-/

namespace Sys2Proof.Machine

/-! ## Extends -/

theorem extends_refl (s : State) : Extends s s [] [] :=
  ⟨by simp, by simp, rfl, rfl, rfl, rfl, rfl, rfl, Nat.le_refl _⟩

theorem Extends.trans {s t u : State} {e₁ e₂ : List Event} {r₁ r₂ : List Response} (h : Extends s t e₁ r₁)
    (k : Extends t u e₂ r₂) : Extends s u (e₁ ++ e₂) (r₁ ++ r₂) :=
  ⟨by rw [k.trace, h.trace, List.append_assoc], by rw [k.responses, h.responses, List.append_assoc],
    k.phase.trans h.phase, k.fault.trans h.fault, k.cfg.trans h.cfg, k.acquires.trans h.acquires,
    k.requests.trans h.requests, k.history.trans h.history, h.clock.trans k.clock⟩

/-- An operation that answers nothing, after another one. -/
theorem Extends.andThen {s t u : State} {e₁ e₂ : List Event} (h : Extends s t e₁ []) (k : Extends t u e₂ []) :
    Extends s u (e₁ ++ e₂) [] := h.trans k

theorem Extends.andRespond {s t : State} {evs : List Event} (h : Extends s t evs []) (r : Response) :
    Extends s (respond r t) evs [r] := by
  refine ⟨h.trace, by simp [h.responses], h.phase, h.fault, h.cfg, h.acquires, h.requests, h.history, h.clock⟩

theorem le_readClock (s : State) : s.clock ≤ (readClock s).1 := Nat.le_add_right _ _

theorem extends_send (tx : List Byte) (s : State) : Extends s (send tx s) [.txn .send tx []] [] :=
  ⟨rfl, by simp, rfl, rfl, rfl, rfl, rfl, rfl, Nat.le_refl _⟩

theorem extends_exchange (tx : List Byte) (s : State) :
    Extends s (exchange tx s).2 [.txn .exchange tx (exchange tx s).1] [] :=
  ⟨rfl, by simp, rfl, rfl, rfl, rfl, rfl, rfl, Nat.le_refl _⟩

theorem extends_sample (s : State) : Extends s (sample s).2 [.pinRead .busy (sample s).1] [] :=
  ⟨rfl, by simp, rfl, rfl, rfl, rfl, rfl, rfl, Nat.le_refl _⟩

theorem extends_readClock (s : State) : Extends s (readClock s).2 [] [] :=
  ⟨by simp, by simp, rfl, rfl, rfl, rfl, rfl, rfl, le_readClock s⟩

theorem extends_sleepFor (d : Nat) (s : State) : Extends s (sleepFor d s) [.slept d] [] :=
  ⟨rfl, by simp, rfl, rfl, rfl, rfl, rfl, rfl, Nat.le_add_right _ _⟩

theorem extends_logEvent (k : LogKind) (s : State) : Extends s (logEvent k s) [.log k] [] :=
  ⟨rfl, by simp, rfl, rfl, rfl, rfl, rfl, rfl, Nat.le_refl _⟩

/-! ## Draws -/

theorem pullMany_length {α : Type} (free : Nat → α) (n : Nat) (f : Feed α) : (pullMany free n f).1.length = n := by
  induction n generalizing f with
  | zero => rfl
  | succ n ih => simp [pullMany, ih]

/-- An exchange brings in as many bytes as it sends out (R431). -/
theorem exchange_length (tx : List Byte) (s : State) : (exchange tx s).1.length = tx.length := pullMany_length _ _ _

theorem lineActive_eq (p : Params) (l : Level) (h : lineActive p l = true) : l = activeLevel p := by
  cases l <;> simp_all [lineActive, activeLevel]

theorem lineInactive_eq (p : Params) (l : Level) (h : lineActive p l = false) : l = inactiveLevel p := by
  cases l <;> simp_all [lineActive, inactiveLevel]

/-! ## Marks -/

@[simp] theorem mark_clock (s : State) : s.mark.clock = s.clock := rfl
@[simp] theorem mark_lastWait (s : State) : s.mark.lastWait = s.lastWait := rfl
@[simp] theorem respond_mark (r : Response) (s : State) : (respond r s).mark = s.mark := rfl
@[simp] theorem send_mark (tx : List Byte) (s : State) : (send tx s).mark = s.mark := rfl
@[simp] theorem logEvent_mark (k : LogKind) (s : State) : (logEvent k s).mark = s.mark := rfl

/-! ## Waits (R295, R296) -/

/-- What a wait leaves unchanged beside what `Extends` says, and what it records. -/
structure Waited (s t : State) (o : WaitOutcome) (evs : List Event) : Prop where
  ext : Extends s t evs []
  lastWait : t.lastWait = some o
  initXfer : t.initXfer = s.initXfer
  lastUpdate : t.lastUpdate = s.lastUpdate
  cs : t.cs = s.cs
  panel : t.panel = s.panel

theorem Waited.prepend {s t u : State} {o : WaitOutcome} {e₁ e₂ : List Event} (h : Extends s t e₁ [])
    (hi : t.initXfer = s.initXfer) (hu : t.lastUpdate = s.lastUpdate) (hc : t.cs = s.cs) (hp : t.panel = s.panel)
    (w : Waited t u o e₂) : Waited s u o (e₁ ++ e₂) :=
  ⟨h.andThen w.ext, w.lastWait, w.initXfer.trans hi, w.lastUpdate.trans hu, w.cs.trans hc, w.panel.trans hp⟩

/-- How many sleeps may still follow when `k` have been taken. -/
theorem poll_bound {p T k : Nat} (hp : 1 ≤ p) (h : k * p < T) : k + 1 ≤ (T + p - 1) / p := by
  rw [Nat.le_div_iff_mul_le hp, Nat.add_mul]
  omega

/-- The loop of a wait, from a state where `k` sleeps have been taken since `start`. -/
theorem waitLoop_spec (T start : Nat) : ∀ (n k : Nat) (s : State), T + 1 ≤ n + k → start + k * s.cfg.tPoll ≤ s.clock →
    k ≤ maxPolls s.cfg T →
    ∃ m o t, waitLoop T start n s = (o, t) ∧ k + m ≤ maxPolls s.cfg T ∧
      Waited s t o (polls s.cfg m ++ waitEnd s.cfg o) ∧ s.clock + m * s.cfg.tPoll ≤ t.clock ∧
      (o = .timedOut → start + T ≤ t.clock) := by
  intro n
  induction n with
  | zero =>
    intro k s hn hc hk
    have hk' : k ≤ maxPolls s.cfg T := hk
    rw [maxPolls, Nat.le_div_iff_mul_le s.cfg.tPoll_pos] at hk'
    have hp := s.cfg.tPoll_pos
    have : k * s.cfg.tPoll ≥ k * 1 := Nat.mul_le_mul_left _ hp
    have h2 : (T + 1) * s.cfg.tPoll ≤ k * s.cfg.tPoll := Nat.mul_le_mul_right _ (by omega)
    have h3 : T * 1 ≤ T * s.cfg.tPoll := Nat.mul_le_mul_left _ hp
    rw [Nat.add_mul] at h2
    omega
  | succ n ih =>
    intro k s hn hc hk
    by_cases hl : lineActive s.cfg (sample s).1 = true
    · have hlev := lineActive_eq _ _ hl
      by_cases ht : (readClock (sample s).2).1 - start ≥ T
      · refine ⟨0, .timedOut, waitTimedOut (readClock (sample s).2).2, ?_, by simpa using hk, ?_, ?_, ?_⟩
        · simp [waitLoop, hl, ht]
        · have e := ((extends_sample s).andThen (extends_readClock _)).andThen
            (extends_logEvent .waitTimeout (readClock (sample s).2).2)
          refine ⟨⟨?_, e.responses, e.phase, e.fault, e.cfg, e.acquires, e.requests, e.history, e.clock⟩, rfl, rfl, rfl,
            rfl, rfl⟩
          simp [polls, waitEnd, hlev]
        · simpa using le_readClock (sample s).2
        · intro _
          have := le_readClock (sample s).2
          simp only [sample_clock] at this
          show start + T ≤ (readClock (sample s).2).1
          omega
      · have hcl := le_readClock (sample s).2
        simp only [sample_clock] at hcl
        have hlt : k * s.cfg.tPoll < T := by omega
        have hk1 : k + 1 ≤ maxPolls s.cfg T := poll_bound s.cfg.tPoll_pos hlt
        obtain ⟨m, o, t, h1, h2, h3, h4, h5⟩ := ih (k + 1) (sleepFor s.cfg.tPoll (readClock (sample s).2).2) (by omega)
          (by simp [Nat.add_mul]; omega) (by simpa using hk1)
        refine ⟨m + 1, o, t, ?_, ?_, ?_, ?_, h5⟩
        · simpa [waitLoop, hl, ht] using h1
        · simp at h2
          omega
        · have e := ((extends_sample s).andThen (extends_readClock _)).andThen
            (extends_sleepFor s.cfg.tPoll (readClock (sample s).2).2)
          have := Waited.prepend e rfl rfl rfl rfl h3
          simpa [polls, hlev] using this
        · simp only [sleepFor_clock, sleepFor_cfg, readClock_cfg, sample_cfg, readClock_clock] at h4
          rw [Nat.add_mul]
          omega
    · have hl' : lineActive s.cfg (sample s).1 = false := by simpa using hl
      refine ⟨0, .cleared, waitCleared (sample s).2, ?_, by simpa using hk, ?_, by simp, by simp⟩
      · simp [waitLoop, hl']
      · have e := extends_sample s
        refine ⟨⟨?_, e.responses, e.phase, e.fault, e.cfg, e.acquires, e.requests, e.history, e.clock⟩, rfl, rfl, rfl,
          rfl, rfl⟩
        simp [polls, waitEnd, lineInactive_eq _ _ hl']

/-- Everything a bounded wait can do (R295, R296): its outcome is one of two, its events and its time are those of a wait,
and a wait that timed out took at least its bound. -/
theorem waitForBusy_spec (T : Nat) (s : State) :
    ∃ o t w, waitForBusy T s = (o, t) ∧ WaitTrace s.cfg T o s.mark t.mark w ∧ Waited s t o w ∧
      (o = .timedOut → s.clock + T ≤ t.clock) := by
  obtain ⟨m, o, t, h1, h2, h3, h4, h5⟩ := waitLoop_spec T (readClock s).1 (T + 1) 0 (readClock s).2 (by omega) (by simp)
    (by simp)
  have hc := le_readClock s
  have hT : o = .timedOut → s.clock + T ≤ t.clock := fun ho => by have := h5 ho; omega
  refine ⟨o, t, _, h1, ⟨m, by simpa using h2, rfl, ?_, hT, h3.lastWait⟩, ?_, hT⟩
  · simp only [readClock_clock, readClock_cfg] at h4
    simp only [State.mark]
    omega
  · simpa using Waited.prepend (extends_readClock s) rfl rfl rfl rfl h3

/-! ## Status reads (R272) -/

theorem list_of_length_two {α : Type} {l : List α} (h : l.length = 2) (d : α) : l = [l.getD 0 d, l.getD 1 d] := by
  match l, h with
  | [a, b], _ => rfl

/-- The two bytes of one status exchange. -/
def statusPair (s : State) : Byte × Byte := ((exchange statusFrame s).1.getD 0 0, (exchange statusFrame s).1.getD 1 0)

theorem extends_status (s : State) : Extends s (exchange statusFrame s).2 [exchangeEvent (statusPair s)] [] := by
  have h := extends_exchange statusFrame s
  have hl : (exchange statusFrame s).1.length = 2 := exchange_length _ _
  rw [list_of_length_two hl 0] at h
  exact h

/-- What a status read leaves unchanged beside what `Extends` says: no wait took place. -/
structure Unwaited (s t : State) : Prop where
  initXfer : t.initXfer = s.initXfer
  lastUpdate : t.lastUpdate = s.lastUpdate
  cs : t.cs = .deselected
  lastWait : t.lastWait = s.lastWait
  clock : t.clock = s.clock
  ticks : t.ticks = s.ticks
  line : t.line = s.line

theorem Unwaited.mark {s t : State} (h : Unwaited s t) : t.mark = s.mark := by
  simp only [State.mark, h.clock, h.lastWait]

theorem statusLoop_spec : ∀ (n : Nat) (qs : List (Byte × Byte)) (s : State), n + qs.length = 3 → n ≠ 0 →
    (∀ q ∈ qs, classifyPair q.1 q.2 = .notReady) →
    ∃ c t evs, statusLoop n s = (c, t) ∧ StatusTrace c (qs.map exchangeEvent ++ evs) ∧ Extends s t evs [] ∧
      Unwaited s t := by
  intro n
  induction n with
  | zero => intro qs s _ h; exact absurd rfl h
  | succ n ih =>
    intro qs s hn _ hq
    have e := extends_status s
    cases ha : answered (classifyPair (statusPair s).1 (statusPair s).2) with
    | some c =>
      refine ⟨c, statusEnd c (exchange statusFrame s).2, exchangeEvent (statusPair s) :: statusLog c, ?_, ?_, ?_, ?_⟩
      · have : answered (classifyPair ((exchange statusFrame s).1.getD 0 0) ((exchange statusFrame s).1.getD 1 0)) =
          some c := ha
        simp only [statusLoop, this]
      · exact ⟨qs, hq, .inr ⟨by omega, _, ha, rfl⟩⟩
      · by_cases hc : c = .success
        · simpa [statusEnd, statusLog, hc] using e
        · simpa [statusEnd, statusLog, hc] using e.andThen (extends_logEvent .statusFail _)
      · by_cases hc : c = .success <;> simp only [statusEnd, hc, if_true, if_false] <;>
          exact ⟨rfl, rfl, rfl, rfl, rfl, rfl, rfl⟩
    | none =>
      have hnr : classifyPair (statusPair s).1 (statusPair s).2 = .notReady := by
        cases hx : classifyPair (statusPair s).1 (statusPair s).2 <;> simp_all [answered]
      have hq' : ∀ q ∈ qs ++ [statusPair s], classifyPair q.1 q.2 = .notReady := by
        intro q hm
        rcases List.mem_append.1 hm with h | h
        · exact hq q h
        · rw [List.mem_singleton.1 h, hnr]
      have hstep : statusLoop (n + 1) s = statusLoop n (exchange statusFrame s).2 := by
        have : answered (classifyPair ((exchange statusFrame s).1.getD 0 0) ((exchange statusFrame s).1.getD 1 0)) =
          none := ha
        simp only [statusLoop, this]
      by_cases hz : n = 0
      · subst hz
        refine ⟨.generic, logEvent .statusFail (exchange statusFrame s).2,
          [exchangeEvent (statusPair s), .log .statusFail], hstep, ?_, e.andThen (extends_logEvent _ _),
          ⟨rfl, rfl, rfl, rfl, rfl, rfl, rfl⟩⟩
        exact ⟨qs ++ [statusPair s], hq', .inl ⟨by simp; omega, rfl, by simp⟩⟩
      · obtain ⟨c, t, evs, h1, h2, h3, h4⟩ := ih (qs ++ [statusPair s]) (exchange statusFrame s).2
          (by simp; omega) hz hq'
        refine ⟨c, t, exchangeEvent (statusPair s) :: evs, hstep.trans h1, by simpa using h2, e.andThen h3, ?_⟩
        exact ⟨h4.initXfer, h4.lastUpdate, h4.cs, h4.lastWait, h4.clock, h4.ticks, h4.line⟩

/-- Everything a status read can do (R272). -/
theorem statusReadOp_spec (s : State) :
    ∃ c t evs, statusReadOp s = (c, t) ∧ StatusTrace c evs ∧ Extends s t evs [] ∧ Unwaited s t := by
  obtain ⟨c, t, evs, h1, h2, h3, h4⟩ := statusLoop_spec 3 [] s rfl (by decide) (by simp)
  exact ⟨c, t, evs, h1, h2, h3, h4⟩

/-! ## Commands (R230, R234, R241, R323) -/

/-- A frame, its wait and its status read. -/
theorem command_spec (frame : List Byte) (T : Nat) (s : State) :
    ∃ c t evs, statusReadOp (waitForBusy T (send frame s)).2 = (c, t) ∧
      CommandTrace s.cfg frame T c s.mark t.mark evs ∧ Extends s t evs [] ∧ Quiet s t ∧ t.lastWait ≠ none := by
  obtain ⟨o, u, w, h1, h2, h3, -⟩ := waitForBusy_spec T (send frame s)
  obtain ⟨c, t, st, k1, k2, k3, k4⟩ := statusReadOp_spec u
  refine ⟨c, t, _, by rw [h1, k1], ⟨o, w, st, rfl, k4.mark ▸ h2, k2⟩, ?_, ?_, ?_⟩
  · simpa using ((extends_send frame s).andThen h3.ext).andThen k3
  · exact ⟨k4.initXfer.trans h3.initXfer, k4.lastUpdate.trans h3.lastUpdate, k4.cs⟩
  · rw [k4.lastWait, h3.lastWait]
    simp

/-- A retry loop of the block: the same command up to `n` times, then a log. `imgPktLoop` and `dpResetLoop` are its two
uses. -/
def retryLoop (frame : List Byte) (T : Nat) (k : LogKind) : Nat → State → Bool × State
  | 0, s => (false, logEvent k s)
  | n + 1, s =>
    let c := statusReadOp (waitForBusy T (send frame s)).2
    if c.1 = .success then (true, c.2) else retryLoop frame T k n c.2

/-- What a retry loop leaves: the last wait's outcome is recorded once a wait took place. -/
theorem retryLoop_spec (frame : List Byte) (T : Nat) (k : LogKind) : ∀ (n : Nat) (s : State),
    ∃ ok t evs, retryLoop frame T k n s = (ok, t) ∧ RetryTrace s.cfg frame T k n ok s.mark t.mark evs ∧
      Extends s t evs [] ∧ t.initXfer = s.initXfer ∧ t.lastUpdate = s.lastUpdate ∧ (n ≠ 0 → t.cs = .deselected ∧ t.lastWait ≠ none) ∧
      (n = 0 → t.cs = s.cs ∧ t.lastWait = s.lastWait) := by
  intro n
  induction n with
  | zero =>
    intro s
    exact ⟨false, logEvent k s, [.log k], rfl, ⟨rfl, rfl, rfl⟩, extends_logEvent k s, rfl, rfl, by simp, by simp⟩
  | succ n ih =>
    intro s
    obtain ⟨c, t, evs, h1, h2, h3, h4, h5⟩ := command_spec frame T s
    by_cases hc : c = .success
    · refine ⟨true, t, evs, by simp [retryLoop, h1, hc],
        ⟨c, t.mark, evs, [], by simp, h2, .inl ⟨hc, rfl, rfl, rfl⟩⟩, h3, h4.initXfer, h4.lastUpdate,
        fun _ => ⟨h4.cs, h5⟩, by simp⟩
    · obtain ⟨ok, u, rest, k1, k2, k3, k4, k5, k6, k7⟩ := ih t
      rw [h3.cfg] at k2
      refine ⟨ok, u, evs ++ rest, by simp [retryLoop, h1, hc, k1],
        ⟨c, t.mark, evs, rest, rfl, h2, .inr ⟨hc, k2⟩⟩, h3.andThen k3, k4.trans h4.initXfer, k5.trans h4.lastUpdate, ?_, by simp⟩
      intro _
      by_cases hn : n = 0
      · rw [(k7 hn).1, (k7 hn).2]
        exact ⟨h4.cs, h5⟩
      · exact k6 hn

theorem imgPktLoop_eq (frame : List Byte) (s₀ : State) : ∀ (n : Nat) (s : State), s.cfg = s₀.cfg →
    imgPktLoop frame n s = retryLoop frame s₀.cfg.tShort .packetFail n s := by
  intro n
  induction n with
  | zero => intro s _; rfl
  | succ n ih =>
    intro s hs
    obtain ⟨c, t, evs, h1, -, h3, -⟩ := command_spec frame s₀.cfg.tShort s
    simp only [imgPktLoop, retryLoop, hs, h1]
    split
    · rfl
    · exact ih t (h3.cfg.trans hs)

theorem dpResetLoop_eq (s₀ : State) : ∀ (n : Nat) (s : State), s.cfg = s₀.cfg →
    dpResetLoop n s =
      retryLoop (paramFrame s₀.cfg.opParam 0x0D s₀.cfg.slotDpReset []) s₀.cfg.tLong .dpResetFail n s := by
  intro n
  induction n with
  | zero => intro s _; rfl
  | succ n ih =>
    intro s hs
    obtain ⟨c, t, evs, h1, -, h3, -⟩ :=
      command_spec (paramFrame s₀.cfg.opParam 0x0D s₀.cfg.slotDpReset []) s₀.cfg.tLong s
    simp only [dpResetLoop, retryLoop, dpResetOp, paramCmd, Params.slot, hs, h1]
    split
    · rfl
    · exact ih t (h3.cfg.trans hs)

/-- What a sequence of commands leaves beside what `Extends` says. -/
structure Settled (s t : State) : Prop where
  lastUpdate : t.lastUpdate = s.lastUpdate
  cs : t.cs = .deselected
  lastWait : t.lastWait ≠ none

/-- Everything an image packet can do (R241): at most 4 sends of one frame. -/
theorem imgPktOp_spec (init : Byte) (payload : List Byte) (s : State) :
    ∃ ok t evs, imgPktOp init payload s = (ok, t) ∧
      RetryTrace s.cfg (imageFrame init payload) s.cfg.tShort .packetFail 4 ok s.mark t.mark evs ∧
      Extends s t evs [] ∧ t.initXfer = s.initXfer ∧ Settled s t := by
  obtain ⟨ok, t, evs, h1, h2, h3, h4, h5, h6, -⟩ :=
    retryLoop_spec (imageFrame init payload) s.cfg.tShort .packetFail 4 s
  exact ⟨ok, t, evs, by rw [imgPktOp, imgPktLoop_eq _ s 4 s rfl, h1], h2, h3, h4,
    ⟨h5, (h6 (by decide)).1, (h6 (by decide)).2⟩⟩

/-- Everything the data-pointer reset sequence can do (R323): at most 3 frames. -/
theorem dpResetSeq_spec (s : State) :
    ∃ ok t evs, dpResetSeq s = (ok, t) ∧
      RetryTrace s.cfg (paramFrame s.cfg.opParam 0x0D s.cfg.slotDpReset []) s.cfg.tLong .dpResetFail 3 ok
        s.mark t.mark evs ∧ Extends s t evs [] ∧ t.initXfer = s.initXfer ∧ Settled s t := by
  obtain ⟨ok, t, evs, h1, h2, h3, h4, h5, h6, -⟩ :=
    retryLoop_spec (paramFrame s.cfg.opParam 0x0D s.cfg.slotDpReset []) s.cfg.tLong .dpResetFail 3 s
  exact ⟨ok, t, evs, by rw [dpResetSeq, dpResetLoop_eq s 3 s rfl, h1], h2, h3, h4,
    ⟨h5, (h6 (by decide)).1, (h6 (by decide)).2⟩⟩

/-! ## Packets (R321, R322) -/

/-- One packet of the packetizer: every packet of this hardware carries initByte 0x01 (R19, R321). -/
theorem imgPktSeq_spec (payload : List Byte) (s : State) :
    ∃ ok t evs, imgPktSeq payload s = (ok, t) ∧
      RetryTrace s.cfg (imageFrame 0x01 payload) s.cfg.tShort .packetFail 4 ok s.mark t.mark evs ∧
      Extends s t evs [] ∧ t.initXfer = true ∧ Settled s t := by
  have hi : nextInitByte s = 0x01 := by unfold nextInitByte Config.initByteFirst; split <;> rfl
  obtain ⟨ok, t, evs, h1, h2, h3, -, h5⟩ := imgPktOp_spec 0x01 payload s
  refine ⟨ok, { t with initXfer := true }, evs, by rw [imgPktSeq, hi, h1], h2, ?_, rfl, ?_⟩
  · exact ⟨h3.trace, h3.responses, h3.phase, h3.fault, h3.cfg, h3.acquires, h3.requests, h3.history, h3.clock⟩
  · exact ⟨h5.lastUpdate, h5.cs, h5.lastWait⟩

/-- Every packet of the list is sent, and the result accumulates theirs (R322). -/
theorem sendPacketList_spec (data : List Byte) (acc : Accum) : ∀ (l : List (Nat × Nat)) (res : Bool) (s : State),
    ∃ oks t evs, sendPacketList data acc l res s = (oks.foldl (accumulate acc) res, t) ∧
      PacketsTrace s.cfg (l.map fun c => imageFrame 0x01 (slice data c.1 c.2)) oks s.mark t.mark evs ∧ Extends s t evs [] ∧
      (l ≠ [] → t.initXfer = true ∧ Settled s t) ∧ (l = [] → t = s) := by
  intro l
  induction l with
  | nil =>
    intro res s
    exact ⟨[], s, [], rfl, ⟨rfl, rfl, rfl⟩, extends_refl s, by simp, by simp⟩
  | cons c rest ih =>
    intro res s
    obtain ⟨ok, t, e₁, h1, h2, h3, h4, h5⟩ := imgPktSeq_spec (slice data c.1 c.2) s
    obtain ⟨oks, u, e₂, k1, k2, k3, k4, k5⟩ := ih (accumulate acc res ok) t
    rw [h3.cfg] at k2
    refine ⟨ok :: oks, u, e₁ ++ e₂, by simp [sendPacketList, h1, k1],
      ⟨ok, oks, t.mark, e₁, e₂, rfl, rfl, h2, k2⟩, h3.andThen k3, fun _ => ?_, by simp⟩
    by_cases hr : rest = []
    · rw [k5 hr]
      exact ⟨h4, h5⟩
    · obtain ⟨ki, kS⟩ := k4 hr
      exact ⟨ki, ⟨kS.lastUpdate.trans h5.lastUpdate, kS.cs, kS.lastWait⟩⟩

theorem foldl_and (oks : List Bool) : ∀ b, oks.foldl (accumulate .and) b = (b && oks.all id) := by
  induction oks with
  | nil => simp
  | cons a l ih => intro b; simp [ih, accumulate, Bool.and_assoc]

theorem foldl_or (oks : List Bool) : ∀ b, oks.foldl (accumulate .or) b = (b || oks.any id) := by
  induction oks with
  | nil => simp
  | cons a l ih => intro b; simp [ih, accumulate, Bool.or_assoc]

/-- The result of a list of packets (R322): all of them under `And`, any of them under `Or`. -/
def combine : Accum → List Bool → Bool
  | .and, oks => oks.all id
  | .or, oks => oks.any id

theorem pktSplitList_ne_nil (len plen : Nat) : pktSplitList len plen ≠ [] := by simp [pktSplitList]

/-- Everything `SendPackets` can do (R322). -/
theorem sendPackets_spec (data : List Byte) (plen : Nat) (acc : Accum) (s : State) :
    ∃ oks t evs, sendPackets data plen acc s = (combine acc oks, t) ∧
      PacketsTrace s.cfg (imageFrames data plen) oks s.mark t.mark evs ∧ Extends s t evs [] ∧ t.initXfer = true ∧ Settled s t := by
  obtain ⟨oks, t, evs, h1, h2, h3, h4, -⟩ :=
    sendPacketList_spec data acc (pktSplitList data.length plen) (accumStart acc) s
  obtain ⟨hi, hS⟩ := h4 (pktSplitList_ne_nil _ _)
  refine ⟨oks, t, evs, ?_, h2, h3, hi, hS⟩
  rw [sendPackets, h1]
  cases acc <;> simp [accumStart, combine, foldl_and, foldl_or]

/-- Everything `SEND_IMAGE` past its checks can do (R324). -/
theorem sendImageOp_spec (data : List Byte) (plen : Nat) (s : State) :
    ∃ okR oks m t e₁ e₂, sendImageOp data plen s = (oks.all id, t) ∧
      RetryTrace s.cfg (paramFrame s.cfg.opParam 0x0D s.cfg.slotDpReset []) s.cfg.tLong .dpResetFail 3 okR s.mark m e₁ ∧
      PacketsTrace s.cfg (imageFrames data plen) oks m t.mark e₂ ∧ Extends s t (e₁ ++ e₂) [] ∧ t.initXfer = true ∧
      Settled s t := by
  obtain ⟨okR, u, e₁, h1, h2, h3, -, h5⟩ := dpResetSeq_spec s
  obtain ⟨oks, t, e₂, k1, k2, k3, k4, k5⟩ := sendPackets_spec data plen Config.imageAccum u
  rw [h3.cfg] at k2
  refine ⟨okR, oks, u.mark, t, e₁, e₂, by rw [sendImageOp, h1, k1]; rfl, h2, k2, h3.andThen k3, k4, ?_⟩
  exact ⟨k5.lastUpdate.trans h5.lastUpdate, k5.cs, k5.lastWait⟩

/-- Everything one pass of an ROI transfer can do (R327). -/
theorem roiPass_spec (f : Nat × Nat × Nat × Nat) (data : List Byte) (plen : Nat) (s : State) :
    ∃ oks t evs, roiPass f data plen s = (oks.any id, t) ∧ RoiPassTrace s.cfg f data plen oks s.mark t.mark evs ∧
      Extends s t evs [] ∧ t.initXfer = true ∧ Settled s t := by
  obtain ⟨c, u, e₁, h1, h2, h3, h4, -⟩ :=
    command_spec (paramFrame s.cfg.opParam 0x0A s.cfg.slotRoi (roiPayload f)) s.cfg.tMedium s
  obtain ⟨oks, t, e₂, k1, k2, k3, k4, k5⟩ := sendPackets_spec data plen Config.roiAccum u
  rw [h3.cfg] at k2
  refine ⟨oks, t, e₁ ++ e₂, ?_, ⟨c, u.mark, e₁, e₂, rfl, h2, k2⟩, h3.andThen k3, k4,
    ⟨k5.lastUpdate.trans h4.lastUpdate, k5.cs, k5.lastWait⟩⟩
  simp only [roiPass, roiSetOp, paramCmd, Params.slot, h1, k1]
  rfl

/-! ## The loop of WAIT_FREE (R293, R297, R298) -/

/-- What one query leaves: the answer is R293's on one reading and one sample. -/
theorem isBusyQuery_spec (s : State) :
    ∃ t l u, isBusyQuery s = (busyAnswer s.cfg s.lastUpdate t l, u) ∧ t = (readClock s).1 ∧ u.clock = t ∧ s.clock ≤ t ∧
      Extends s u [.pinRead .busy l] [] ∧ u.initXfer = s.initXfer ∧ u.lastUpdate = s.lastUpdate ∧ u.cs = s.cs ∧
      u.lastWait = s.lastWait ∧ u.panel = s.panel ∧ l = (sample s).1 :=
  ⟨(readClock s).1, (sample (readClock s).2).1, (sample (readClock s).2).2, rfl, rfl, rfl, le_readClock s,
    by simpa using (extends_readClock s).andThen (extends_sample _), rfl, rfl, rfl, rfl, rfl, rfl⟩

/-- The elapsed time at a reading not before the last update (R292). -/
theorem elapsed_time {u t : Nat} (h : u ≤ t) : elapsed (.time u) t = some (t - u) := by simp [elapsed, h]

/-- A query late enough answers false whatever the line (R298). -/
theorem busyAnswer_late (p : Params) (u t : Nat) (l : Level) (h : u + max p.tGuard p.tCap ≤ t) :
    busyAnswer p (.time u) t l = false := by
  have h1 : ¬ t - u < p.tGuard := by omega
  have h2 : ¬ t - u < p.tCap := by omega
  simp [busyAnswer, elapsed_time (show u ≤ t by omega), below, h1, h2]

theorem busyAnswer_never (p : Params) (t : Nat) (l : Level) : busyAnswer p .never t l = false := by
  simp [busyAnswer, elapsed, below]

/-- The answer of a query that reads the clock at or after the last update, as R293 gives it. -/
theorem busyAnswer_iff {p : Params} {lastUpdate : Stamp} {q : Level × Nat}
    (h : ∀ u, lastUpdate = .time u → u ≤ q.2) : busyAnswer p lastUpdate q.2 q.1 = true ↔ BusyAt p lastUpdate q := by
  have hL : lineActive p q.1 = true ↔ q.1 = activeLevel p :=
    ⟨lineActive_eq _ _, fun h => by rw [h]; unfold lineActive activeLevel; cases p.busyActiveHigh <;> rfl⟩
  cases lastUpdate with
  | never => simp [busyAnswer_never, BusyAt]
  | time u => simp [busyAnswer, elapsed_time (h u rfl), below, BusyAt, hL]

/-- The loop of `WAIT_FREE` ends at the first query that answers false (R297): the queries before it, in order, with the
level and the clock reading of each. Each of those came at a time at which the answer could still be true, which is the
bound of R298. -/
theorem freeLoop_spec : ∀ (n : Nat) (s : State), freeBound s ≤ n →
    ∃ qs q t, freeLoop n s = t ∧ Extends s t (freeQueries s.cfg qs ++ [.pinRead .busy q.1]) [] ∧
      (∀ r ∈ qs, busyAnswer s.cfg s.lastUpdate r.2 r.1 = true) ∧ busyAnswer s.cfg s.lastUpdate q.2 q.1 = false ∧
      q.2 = t.clock ∧ (∀ r ∈ qs ++ [q], s.clock ≤ r.2) ∧
      (qs ++ [q]).Pairwise (fun a b => a.2 + s.cfg.tFreeSleep ≤ b.2) ∧
      (qs ≠ [] → ∃ u, s.lastUpdate = .time u ∧
        s.clock + (qs.length - 1) * s.cfg.tFreeSleep < u + max s.cfg.tGuard s.cfg.tCap) ∧
      t.initXfer = s.initXfer ∧ t.lastUpdate = s.lastUpdate ∧ t.cs = s.cs ∧ t.lastWait = s.lastWait ∧
      t.panel = s.panel := by
  intro n
  induction n with
  | zero =>
    intro s h
    exfalso
    revert h
    unfold freeBound
    cases s.lastUpdate <;> simp
  | succ n ih =>
    intro s h
    obtain ⟨t, l, u, h1, -, h2, h3, h4, h5, h6, h7, h8, h9, -⟩ := isBusyQuery_spec s
    cases hb : busyAnswer s.cfg s.lastUpdate t l with
    | false =>
      exact ⟨[], (l, t), u, by simp [freeLoop, h1, hb], by simpa [freeQueries] using h4, by simp, hb, h2.symm,
        by simpa using h3, by simp, by simp, h5, h6, h7, h8, h9⟩
    | true =>
      have hu : ∃ v, s.lastUpdate = .time v := by
        cases hv : s.lastUpdate with
        | never => rw [hv, busyAnswer_never] at hb; exact absurd hb (by decide)
        | time v => exact ⟨v, rfl⟩
      obtain ⟨v, hv⟩ := hu
      have hlt : t < v + max s.cfg.tGuard s.cfg.tCap := by
        by_contra hcon
        rw [hv, busyAnswer_late _ _ _ _ (by omega)] at hb
        exact absurd hb (by decide)
      have hfs := s.cfg.tFreeSleep_pos
      have hcfg := h4.cfg
      have hbound : freeBound (sleepFor s.cfg.tFreeSleep u) + 1 ≤ freeBound s := by
        simp only [freeBound, sleepFor_lastUpdate, h6, hv, sleepFor_cfg, hcfg, sleepFor_clock, h2]
        omega
      obtain ⟨qs, q, t', k1, k2, k3, k4, k5, k6, k7, k8, k9, k10, k11, k12, k13⟩ :=
        ih (sleepFor s.cfg.tFreeSleep u) (by omega)
      simp only [sleepFor_lastUpdate, sleepFor_cfg, sleepFor_clock, hcfg, h6, h2] at k2 k3 k4 k6 k7 k8
      refine ⟨(l, t) :: qs, q, t', ?_, ?_, ?_, k4, k5, ?_, ?_, ?_, k9.trans h5, k10.trans h6, k11.trans h7,
        k12.trans h8, k13.trans h9⟩
      · simpa [freeLoop, h1, hb] using k1
      · simpa [freeQueries] using (h4.andThen (extends_sleepFor s.cfg.tFreeSleep u)).andThen k2
      · intro r hr
        rcases List.mem_cons.1 hr with rfl | hr
        · exact hb
        · exact k3 r hr
      · intro r hr
        rcases List.mem_cons.1 hr with rfl | hr
        · exact h3
        · have := k6 r hr
          omega
      · exact List.pairwise_cons.2 ⟨fun r hr => k6 r hr, k7⟩
      · intro _
        refine ⟨v, hv, ?_⟩
        cases qs with
        | nil => simp; omega
        | cons r qs =>
          obtain ⟨v', hv', hk⟩ := k8 (by simp)
          rw [hv, Stamp.time.injEq] at hv'
          have : ((l, t) :: r :: qs).length - 1 = (r :: qs).length - 1 + 1 := by simp
          rw [this, Nat.add_mul]
          omega

/-- Everything `WaitUntilFree` can do (R297, R298). -/
theorem waitUntilFree_spec (s : State) :
    ∃ o m w qs q t, waitUntilFree s = t ∧ WaitTrace s.cfg s.cfg.tLong o s.mark m w ∧ t.lastWait = some o ∧
      Extends s t (w ++ freeQueries s.cfg qs ++ [.pinRead .busy q.1]) [] ∧
      (∀ r ∈ qs, busyAnswer s.cfg s.lastUpdate r.2 r.1 = true) ∧ busyAnswer s.cfg s.lastUpdate q.2 q.1 = false ∧
      q.2 = t.clock ∧ (∀ r ∈ qs ++ [q], m.clock ≤ r.2) ∧ s.clock ≤ m.clock ∧
      (qs ++ [q]).Pairwise (fun a b => a.2 + s.cfg.tFreeSleep ≤ b.2) ∧
      (qs ≠ [] → ∃ u, s.lastUpdate = .time u ∧
        s.clock + (qs.length - 1) * s.cfg.tFreeSleep < u + max s.cfg.tGuard s.cfg.tCap) ∧
      t.initXfer = s.initXfer ∧ t.lastUpdate = s.lastUpdate ∧ t.cs = s.cs ∧ t.panel = s.panel := by
  obtain ⟨o, v, w, h1, h2, h3, -⟩ := waitForBusy_spec s.cfg.tLong s
  obtain ⟨qs, q, t, k1, k2, k3, k4, k5, k6, k7, k8, k9, k10, k11, k12, k13⟩ :=
    freeLoop_spec (freeBound v) v (Nat.le_refl _)
  have hc := h3.ext.clock
  rw [h3.ext.cfg] at k2 k7
  rw [h3.ext.cfg, h3.lastUpdate] at k3 k4 k8
  refine ⟨o, v.mark, w, qs, q, t, by rw [waitUntilFree, h1]; exact k1, h2, k12.trans h3.lastWait, ?_, k3, k4, k5, k6, hc,
    k7, ?_, k9.trans h3.initXfer, k10.trans h3.lastUpdate, k11.trans h3.cs, k13.trans h3.panel⟩
  · simpa using h3.ext.andThen k2
  · intro hq
    obtain ⟨u, hu, hb⟩ := k8 hq
    exact ⟨u, hu, by omega⟩

/-! ## Admission and checks (R410, R413) -/

theorem admit_ready {s : State} (h : Ready s) (body : State → State) : admitted s body = .next (body s) := by
  simp [admitted, h.1, h.2]

theorem admit_recorded {s : State} {c : FaultCode} (hp : s.phase = .operational) (hf : s.fault = some c)
    (body : State → State) : admitted s body = .next (respond (.fault c) s) := by
  simp [admitted, hp, hf]

theorem admit_wrongPhase {s : State} (hp : s.phase ≠ .operational) (body : State → State) :
    admitted s body = .next (raise .fState s) := by
  simp [admitted, hp]

/-- Everything admission can do (R413). -/
theorem admit_cases (s : State) (body : State → State) :
    (Ready s ∧ admitted s body = .next (body s)) ∨
      (∃ c, s.phase = .operational ∧ s.fault = some c ∧ admitted s body = .next (respond (.fault c) s)) ∨
      (s.phase ≠ .operational ∧ admitted s body = .next (raise .fState s)) := by
  by_cases hp : s.phase = .operational
  · cases hf : s.fault with
    | none => exact .inl ⟨⟨hp, hf⟩, admit_ready ⟨hp, hf⟩ body⟩
    | some c => exact .inr (.inl ⟨c, hp, rfl, admit_recorded hp hf body⟩)
  · exact .inr (.inr ⟨hp, admit_wrongPhase hp body⟩)

theorem checked_ok {α : Type} {check : Except FaultCode α} {a : α} (h : check = .ok a) (run : α → State → State)
    (s : State) : checked check run s = run a s := by
  simp [checked, h]

theorem checked_error {α : Type} {check : Except FaultCode α} {c : FaultCode} (h : check = .error c)
    (run : α → State → State) (s : State) : checked check run s = raise c s := by
  simp [checked, h]

end Sys2Proof.Machine
end

