-- ==== Sys2Proof/Laws/Events.lean ====
section
/-!
SUPPORT. The event sequences of Safety: which events they hold (the frames of the opcode map only), and how many sends and
exchanges.
-/

namespace Sys2Proof.Machine

/-- Every event is one the block may produce. -/
abbrev LegalEvents (p : Params) (evs : List Event) : Prop := ∀ e ∈ evs, LegalEvent p e

theorem legal_append {p : Params} {a b : List Event} (ha : LegalEvents p a) (hb : LegalEvents p b) :
    LegalEvents p (a ++ b) := by
  intro e he
  rcases List.mem_append.1 he with h | h
  · exact ha e h
  · exact hb e h

theorem legal_cons {p : Params} {a : Event} {b : List Event} (ha : LegalEvent p a) (hb : LegalEvents p b) :
    LegalEvents p (a :: b) := by
  intro e he
  rcases List.mem_cons.1 he with h | h
  · exact h ▸ ha
  · exact hb e h

theorem legal_nil (p : Params) : LegalEvents p [] := fun _ h => absurd h (by simp)

@[simp] theorem sends_nil : sends [] = 0 := rfl
@[simp] theorem exchanges_nil : exchanges [] = 0 := rfl
@[simp] theorem sends_append (a b : List Event) : sends (a ++ b) = sends a + sends b := List.countP_append
@[simp] theorem exchanges_append (a b : List Event) : exchanges (a ++ b) = exchanges a + exchanges b := List.countP_append
@[simp] theorem sends_cons (a : Event) (b : List Event) : sends (a :: b) = sends b + if isSend a then 1 else 0 :=
  List.countP_cons
@[simp] theorem exchanges_cons (a : Event) (b : List Event) :
    exchanges (a :: b) = exchanges b + if isExchange a then 1 else 0 := List.countP_cons

/-! ## Waits -/

theorem polls_legal (p : Params) (n : Nat) : LegalEvents p (polls p n) := by
  induction n with
  | zero => exact legal_nil p
  | succ n ih => exact legal_cons trivial (legal_cons (.inl rfl) ih)

theorem polls_counts (p : Params) (n : Nat) : sends (polls p n) = 0 ∧ exchanges (polls p n) = 0 := by
  induction n with
  | zero => exact ⟨rfl, rfl⟩
  | succ n ih => simp [polls, ih, isSend, isExchange]

theorem waitTrace_legal {p : Params} {T : Nat} {o : WaitOutcome} {a b : Mark} {w : List Event} (h : WaitTrace p T o a b w) :
    LegalEvents p w := by
  obtain ⟨n, -, rfl, -⟩ := h
  refine legal_append (polls_legal p n) ?_
  cases o
  · exact legal_cons trivial (legal_nil p)
  · exact legal_cons trivial (legal_cons trivial (legal_nil p))

/-- A wait puts nothing on the port. -/
theorem waitTrace_counts {p : Params} {T : Nat} {o : WaitOutcome} {a b : Mark} {w : List Event} (h : WaitTrace p T o a b w) :
    sends w = 0 ∧ exchanges w = 0 := by
  obtain ⟨n, -, rfl, -⟩ := h
  cases o <;> simp [polls_counts, waitEnd, isSend, isExchange]

/-! ## Status reads -/

theorem exchangeEvents_legal (p : Params) (qs : List (Byte × Byte)) : LegalEvents p (qs.map exchangeEvent) := by
  intro e he
  obtain ⟨q, -, rfl⟩ := List.mem_map.1 he
  exact ⟨rfl, rfl⟩

theorem exchangeEvents_counts (qs : List (Byte × Byte)) :
    sends (qs.map exchangeEvent) = 0 ∧ exchanges (qs.map exchangeEvent) = qs.length := by
  induction qs with
  | nil => exact ⟨rfl, rfl⟩
  | cons q qs ih => simp [ih, exchangeEvent, isSend, isExchange]

theorem statusLog_legal (p : Params) (c : StatusClass) : LegalEvents p (statusLog c) := by
  unfold statusLog
  split
  · exact legal_nil p
  · exact legal_cons trivial (legal_nil p)

theorem statusLog_counts (c : StatusClass) : sends (statusLog c) = 0 ∧ exchanges (statusLog c) = 0 := by
  unfold statusLog
  split <;> simp [isSend, isExchange]

theorem statusTrace_legal {p : Params} {c : StatusClass} {st : List Event} (h : StatusTrace c st) : LegalEvents p st := by
  obtain ⟨qs, -, ⟨-, -, rfl⟩ | ⟨-, q, -, rfl⟩⟩ := h
  · exact legal_append (exchangeEvents_legal p qs) (legal_cons trivial (legal_nil p))
  · exact legal_append (exchangeEvents_legal p qs) (legal_cons ⟨rfl, rfl⟩ (statusLog_legal p c))

/-- A status read sends nothing and makes at most 3 exchanges (R272). -/
theorem statusTrace_counts {c : StatusClass} {st : List Event} (h : StatusTrace c st) :
    sends st = 0 ∧ exchanges st ≤ 3 := by
  obtain ⟨qs, -, ⟨hl, -, rfl⟩ | ⟨hl, q, -, rfl⟩⟩ := h
  · simp [exchangeEvents_counts, isSend, isExchange, hl]
  · simp [exchangeEvents_counts, statusLog_counts, isSend, isExchange, exchangeEvent]
    omega

/-! ## Commands -/

theorem commandTrace_legal {p : Params} {frame : List Byte} {T : Nat} {c : StatusClass} {a b : Mark}
    {evs : List Event} (hf : OpcodeMap p frame) (h : CommandTrace p frame T c a b evs) : LegalEvents p evs := by
  obtain ⟨o, w, st, rfl, hw, hst⟩ := h
  exact legal_cons ⟨hf, rfl⟩ (legal_append (waitTrace_legal hw) (statusTrace_legal hst))

/-- A command sends its frame once and makes at most 3 exchanges. -/
theorem commandTrace_counts {p : Params} {frame : List Byte} {T : Nat} {c : StatusClass} {a b : Mark}
    {evs : List Event} (h : CommandTrace p frame T c a b evs) : sends evs = 1 ∧ exchanges evs ≤ 3 := by
  obtain ⟨o, w, st, rfl, hw, hst⟩ := h
  have h1 := waitTrace_counts hw
  have h2 := statusTrace_counts hst
  simp [h1, h2, isSend, isExchange]

theorem retryTrace_legal {p : Params} {frame : List Byte} {T : Nat} {k : LogKind} (hf : OpcodeMap p frame) :
    ∀ {n : Nat} {ok : Bool} {a b : Mark} {evs : List Event}, RetryTrace p frame T k n ok a b evs → LegalEvents p evs := by
  intro n
  induction n with
  | zero => rintro ok a b evs ⟨-, rfl, -⟩; exact legal_cons trivial (legal_nil p)
  | succ n ih =>
    rintro ok a b evs ⟨c, m, cmd, rest, rfl, hc, ⟨-, -, rfl, -⟩ | ⟨-, hr⟩⟩
    · exact legal_append (commandTrace_legal hf hc) (legal_nil p)
    · exact legal_append (commandTrace_legal hf hc) (ih hr)

/-- A retried command sends its frame at most `n` times, with at most 3 exchanges each (R402). -/
theorem retryTrace_counts {p : Params} {frame : List Byte} {T : Nat} {k : LogKind} :
    ∀ {n : Nat} {ok : Bool} {a b : Mark} {evs : List Event}, RetryTrace p frame T k n ok a b evs →
      sends evs ≤ n ∧ exchanges evs ≤ 3 * n := by
  intro n
  induction n with
  | zero => rintro ok a b evs ⟨-, rfl, -⟩; simp [isSend, isExchange]
  | succ n ih =>
    rintro ok a b evs ⟨c, m, cmd, rest, rfl, hc, ⟨-, -, rfl, -⟩ | ⟨-, hr⟩⟩
    · have h1 := commandTrace_counts hc
      simp
      omega
    · have h1 := commandTrace_counts hc
      have h2 := ih hr
      simp
      omega

theorem packetsTrace_legal {p : Params} : ∀ {frames : List (List Byte)} {oks : List Bool} {a b : Mark} {evs : List Event},
    (∀ f ∈ frames, OpcodeMap p f) → PacketsTrace p frames oks a b evs → LegalEvents p evs := by
  intro frames
  induction frames with
  | nil => rintro oks a b evs - ⟨-, rfl, -⟩; exact legal_nil p
  | cons f frames ih =>
    rintro oks a b evs hf ⟨ok, rest, m, e₁, e₂, -, rfl, h1, h2⟩
    exact legal_append (retryTrace_legal (hf f (by simp)) h1) (ih (fun g hg => hf g (by simp [hg])) h2)

theorem packetsTrace_counts {p : Params} : ∀ {frames : List (List Byte)} {oks : List Bool} {a b : Mark} {evs : List Event},
    PacketsTrace p frames oks a b evs →
      oks.length = frames.length ∧ sends evs ≤ 4 * frames.length ∧ exchanges evs ≤ 12 * frames.length := by
  intro frames
  induction frames with
  | nil => rintro oks a b evs ⟨rfl, rfl, -⟩; simp
  | cons f frames ih =>
    rintro oks a b evs ⟨ok, rest, m, e₁, e₂, rfl, rfl, h1, h2⟩
    have k1 := retryTrace_counts h1
    have k2 := ih h2
    simp
    omega

theorem imageFrames_length (data : List Byte) (plen : Nat) : (imageFrames data plen).length = data.length / plen + 1 := by
  simp [imageFrames, pktSplitList]

theorem freeQueries_legal (p : Params) : ∀ qs : List (Level × Nat), LegalEvents p (freeQueries p qs)
  | [] => legal_nil p
  | _ :: rest => legal_cons trivial (legal_cons (.inr rfl) (freeQueries_legal p rest))

theorem freeQueries_counts (p : Params) :
    ∀ qs : List (Level × Nat), sends (freeQueries p qs) = 0 ∧ exchanges (freeQueries p qs) = 0
  | [] => ⟨rfl, rfl⟩
  | _ :: rest => by
    have := freeQueries_counts p rest
    simp [freeQueries, isSend, isExchange, this]

/-! ## The frames of the opcode map (R158) -/

theorem opcodeMap_erase (p : Params) (slot : Byte) : OpcodeMap p [0x20, 0x0E, slot] := .inl ⟨slot, rfl⟩

theorem opcodeMap_update (p : Params) (op slot : Byte) (h : op = p.opUpdFull ∨ op = p.opUpdFl ∨ op = p.opUpdFlinv) :
    OpcodeMap p [op, 0x01, slot] := .inr (.inl ⟨op, slot, h, rfl⟩)

/-- What a window's fields are when R159 does not refuse it. -/
theorem roiFields_some {p : Params} {x y w h : Nat} {f : Nat × Nat × Nat × Nat} (hf : roiFields p x y w h = some f) :
    f = (x, x + w - roiEnd p, y, y + h - roiEnd p) ∧ (p.roiInclusive = true → 0 < w ∧ 0 < h) ∧ x < 65536 ∧
      x + w - roiEnd p < 65536 ∧ y < 65536 ∧ y + h - roiEnd p < 65536 := by
  unfold roiFields at hf
  split at hf
  · exact absurd hf (by simp)
  · rename_i hn
    split at hf
    · rename_i hb
      refine ⟨(Option.some.inj hf).symm, fun hi => ?_, hb.1, hb.2.1, hb.2.2.1, hb.2.2.2⟩
      rw [not_and_or, not_or] at hn
      rcases hn with hn | hn
      · exact absurd hi hn
      · omega
    · exact absurd hf (by simp)

theorem roiCheck_ok {p : Params} {x y w h : Nat} {f : Nat × Nat × Nat × Nat} (hf : roiCheck p x y w h = .ok f) :
    roiFields p x y w h = some f := by
  unfold roiCheck at hf
  split at hf
  · rename_i g hg
    rw [hg, Except.ok.inj hf]
  · simp at hf

theorem opcodeMap_roi {p : Params} {x y w h : Nat} {f : Nat × Nat × Nat × Nat} (hf : roiFields p x y w h = some f)
    (slot : Byte) : OpcodeMap p (paramFrame p.opParam 0x0A slot (roiPayload f)) := by
  obtain ⟨rfl, -, h1, h2, h3, h4⟩ := roiFields_some hf
  exact .inr (.inr (.inl ⟨slot, _, _, _, _, h1, h2, h3, h4, rfl⟩))

theorem isFillByte_iff (v : Byte) : isFillByte v = true ↔ v = 0x00 ∨ v = 0xFF := by simp [isFillByte]

theorem opcodeMap_fill (p : Params) (slot v : Byte) (h : v = 0x00 ∨ v = 0xFF) :
    OpcodeMap p (paramFrame p.opParam 0x0B slot [v]) := .inr (.inr (.inr (.inl ⟨slot, v, h, rfl⟩)))

theorem opcodeMap_copy (p : Params) (slot src : Byte) : OpcodeMap p (paramFrame p.opParam 0x0C slot [src]) :=
  .inr (.inr (.inr (.inr (.inl ⟨slot, src, rfl⟩))))

theorem opcodeMap_dpReset (p : Params) (slot : Byte) : OpcodeMap p (paramFrame p.opParam 0x0D slot []) :=
  .inr (.inr (.inr (.inr (.inr (.inl ⟨slot, rfl⟩)))))

theorem opcodeMap_image (p : Params) (init : Byte) (payload : List Byte) (h : payload.length ≤ 255) :
    OpcodeMap p (imageFrame init payload) := .inr (.inr (.inr (.inr (.inr (.inr ⟨init, payload, h, rfl⟩)))))

/-- The fill byte is one of the two fill payloads, so `FILL_VAL` never refuses it (R350). -/
theorem fillByte_cases (p : Params) (white : Bool) : fillByte p white = 0x00 ∨ fillByte p white = 0xFF := by
  unfold fillByte
  cases white <;> cases p.fillInvert <;> decide

/-- Every packet of a transfer is encodable when the packet length fits the length byte (R156, R324, R327). -/
theorem imageFrames_opcodeMap (p : Params) (data : List Byte) (plen : Nat) (h0 : 0 < plen) (h : plen ≤ 255) :
    ∀ f ∈ imageFrames data plen, OpcodeMap p f := by
  intro f hf
  obtain ⟨c, hc, rfl⟩ := List.mem_map.1 hf
  refine opcodeMap_image p _ _ ?_
  have hle : c.2 ≤ plen := by
    rcases List.mem_append.1 hc with hc | hc
    · obtain ⟨k, -, rfl⟩ := List.mem_map.1 hc
      exact Nat.le_refl _
    · rw [List.mem_singleton.1 hc]
      exact (Nat.mod_lt _ h0).le
  have : (slice data c.1 c.2).length ≤ c.2 := by simp [slice]
  omega

end Sys2Proof.Machine
end

