-- ==== Sys2Proof/Laws/Image.lean ====
section
/-!
SUPPORT. Buffers and images: reading and writing bytes, bits and pixels, and that the image operations keep the shape of
a PanelImage and of a Bit-Image Source.
-/

namespace Sys2Proof.Machine

/-! ## Bytes and bits -/

theorem rev8_bit (b : Byte) (k : Nat) (h : k < 8) : (rev8 b).getLsbD k = b.getLsbD (7 - k) := by
  revert b
  interval_cases k <;> decide

/-- The reversal undoes itself (R38). -/
theorem rev8_rev8 (b : Byte) : rev8 (rev8 b) = b := by
  apply BitVec.eq_of_getLsbD_eq
  intro i hi
  rw [rev8_bit _ i hi, rev8_bit _ (7 - i) (by omega)]
  congr 1
  omega

theorem notByte_notByte (b : Byte) : notByte (notByte b) = b := by simp [notByte]

theorem writeBit_val (b : BufByte) (k j : Nat) (v : Bool) (hk : k < 8) (hj : j < 8) :
    (writeBit b k v).val.getLsbD j = if j = k then v else b.val.getLsbD j := by
  by_cases hjk : j = k
  · subst hjk
    cases v <;> simp [writeBit, hj]
  · cases v <;> simp [writeBit, hjk, hj]

theorem writeBit_written (b : BufByte) (k j : Nat) (v : Bool) (hk : k < 8) (hj : j < 8) :
    (writeBit b k v).written.getLsbD j = (decide (j = k) || b.written.getLsbD j) := by
  by_cases hjk : j = k
  · subst hjk
    simp [writeBit, hj]
  · simp [writeBit, hjk, Ne.symm hjk]

theorem bufByte_wf_iff (b : BufByte) :
    b.wf = true ↔ ∀ j < 8, b.val.getLsbD j = true → b.written.getLsbD j = true := by
  unfold BufByte.wf
  rw [beq_iff_eq]
  constructor
  · intro h j hj hv
    have := congrArg (fun x => x.getLsbD j) h
    simp [hv, hj] at this
    exact this
  · intro h
    apply BitVec.eq_of_getLsbD_eq
    intro j hj
    have := h j hj
    cases hv : b.val.getLsbD j <;> simp_all

/-- Writing a bit keeps a byte's canonical form. -/
theorem writeBit_wf (b : BufByte) (k : Nat) (v : Bool) (hk : k < 8) (h : b.wf = true) : (writeBit b k v).wf = true := by
  rw [bufByte_wf_iff] at h ⊢
  intro j hj
  rw [writeBit_val b k j v hk hj, writeBit_written b k j v hk hj]
  by_cases hjk : j = k
  · simp [hjk]
  · simpa [hjk] using h j hj

theorem writtenByte_wf (b : Byte) : (writtenByte b).wf = true := by
  revert b; decide

theorem unwrittenByte_wf : unwrittenByte.wf = true := by decide

theorem writtenByte_isWritten (b : Byte) : (writtenByte b).isWritten = true := by simp [BufByte.isWritten, writtenByte]

/-- Writing a bit of a written byte leaves it written. -/
theorem writeBit_isWritten (b : BufByte) (k : Nat) (v : Bool) (hk : k < 8) (h : b.isWritten = true) :
    (writeBit b k v).isWritten = true := by
  simp only [BufByte.isWritten, beq_iff_eq] at h ⊢
  apply BitVec.eq_of_getLsbD_eq
  intro j hj
  rw [writeBit_written b k j v hk hj, h]
  interval_cases j <;> simp

theorem pixelBit_lt (i : Nat) : pixelBit i < 8 := by unfold pixelBit; omega

/-! ## Slices and MemRead (R41) -/

theorem slice_length {α : Type} (buf : List α) (off n : Nat) (h : off + n ≤ buf.length) : (slice buf off n).length = n := by
  simp [slice]; omega

theorem slice_all {α : Type} (buf : List α) : slice buf 0 buf.length = buf := by simp [slice]

/-- When `MemRead` answers bytes: in bounds and every byte written. -/
theorem memRead_ok_iff (buf : Buffer) (off n : Nat) (data : List Byte) :
    memRead buf off n = .ok data ↔
      off + n ≤ buf.length ∧ (∀ b ∈ slice buf off n, b.isWritten = true) ∧ data = (slice buf off n).map BufByte.val := by
  unfold memRead
  split
  · rename_i h
    exact ⟨fun hh => by simp at hh, fun hh => absurd hh.1 (by omega)⟩
  · rename_i h
    split
    · rename_i hw
      rw [List.all_eq_true] at hw
      exact ⟨fun hh => ⟨by omega, hw, (Except.ok.inj hh).symm⟩, fun hh => by rw [hh.2.2]⟩
    · rename_i hw
      rw [List.all_eq_true] at hw
      exact ⟨fun hh => by simp at hh, fun hh => absurd hh.2.1 hw⟩

theorem slice_slice {α : Type} (buf : List α) (off n len : Nat) (h : off + n ≤ len) :
    slice (slice buf 0 len) off n = slice buf off n := by
  unfold slice
  rw [List.drop_zero, List.drop_take, List.take_take, Nat.min_eq_left (by omega)]

/-- The packets of a transfer read their slices of what its checks read: a packet's own `MemRead` never fails (R322,
R324). -/
theorem memRead_slice (buf : Buffer) (len off n : Nat) (data : List Byte) (h : memRead buf 0 len = .ok data)
    (hn : off + n ≤ len) : memRead buf off n = .ok (slice data off n) := by
  rw [memRead_ok_iff] at h ⊢
  obtain ⟨h1, h2, h3⟩ := h
  refine ⟨by omega, ?_, ?_⟩
  · intro b hb
    rw [← slice_slice buf off n len hn] at hb
    exact h2 b (List.mem_of_mem_drop (List.mem_of_mem_take hb))
  · rw [h3, ← slice_slice buf off n len hn]
    simp [slice, List.map_take, List.map_drop]

theorem splice_length (buf : Buffer) (off : Nat) (v : Buffer) (h : off + v.length ≤ buf.length) :
    (splice buf off v).length = buf.length := by
  simp [splice]; omega

/-- A write leaves every other byte alone. -/
theorem splice_other (buf : Buffer) (off : Nat) (v : Buffer) (i : Nat) (h : off + v.length ≤ buf.length)
    (hi : i < off ∨ off + v.length ≤ i) : (splice buf off v)[i]? = buf[i]? := by
  unfold splice
  rcases hi with hi | hi
  · rw [List.append_assoc, List.getElem?_append_left (by simp; omega), List.getElem?_take_of_lt hi]
  · rw [List.getElem?_append_right (by simp; omega), List.getElem?_drop]
    congr 1
    simp
    omega

/-- A read after a write of the same byte gives the byte written. -/
theorem splice_same (buf : Buffer) (off : Nat) (v : Buffer) (i : Nat) (h : off + v.length ≤ buf.length)
    (hi : i < v.length) : (splice buf off v)[off + i]? = v[i]? := by
  unfold splice
  rw [List.append_assoc, List.getElem?_append_right (by simp), List.getElem?_append_left (by simp; omega)]
  congr 1
  simp
  omega

/-! ## Headers and images -/

theorem header_length (p : Params) (w h : Nat) : (header p w h).length = 16 := by simp [header, headerLen]

theorem panelImage_wf_iff (img : PanelImage) :
    img.wf = true ↔ img.w < 65536 ∧ img.h < 65536 ∧ img.w * img.h % 8 = 0 ∧
      img.bytes.length = 16 + img.w * img.h / 8 ∧ (∀ b ∈ img.bytes.take 16, b.isWritten = true) ∧
      ∀ b ∈ img.bytes, b.wf = true := by
  simp [PanelImage.wf, bufferWf, and_assoc]

/-- `IMG_NEW` gives a PanelImage (R200). -/
theorem newImage_wf (p : Params) (w h : Nat) (hw : w < 65536) (hh : h < 65536) (hg : w * h % 8 = 0) :
    (newImage p w h).wf = true := by
  rw [panelImage_wf_iff]
  refine ⟨hw, hh, hg, by simp [newImage, header_length], ?_, ?_⟩
  · intro b hb
    simp only [newImage] at hb
    rw [List.take_left' (by simp [header_length])] at hb
    obtain ⟨c, -, rfl⟩ := List.mem_map.1 hb
    exact writtenByte_isWritten c
  · intro b hb
    rcases List.mem_append.1 hb with hb | hb
    · obtain ⟨c, -, rfl⟩ := List.mem_map.1 hb
      exact writtenByte_wf c
    · rw [List.eq_of_mem_replicate hb]
      exact unwrittenByte_wf

/-- `IMG_CLEAR` keeps a PanelImage's shape (R203). -/
theorem clearImage_wf (img : PanelImage) (white : Bool) (h : img.wf = true) : (clearImage img white).wf = true := by
  rw [panelImage_wf_iff] at h ⊢
  obtain ⟨h1, h2, h3, h4, h5, h6⟩ := h
  have hb : headerLen + (List.replicate (img.w * img.h / 8)
      (writtenByte (if white then 0xFF else 0x00))).length ≤ img.bytes.length := by
    simp [headerLen]; omega
  refine ⟨h1, h2, h3, by simp only [clearImage]; rw [splice_length _ _ _ hb, h4], ?_, ?_⟩
  · intro b hm
    simp only [clearImage, splice, headerLen] at hm
    rw [List.append_assoc, List.take_append_of_le_length (by simp; omega), List.take_take] at hm
    exact h5 b (by simpa using hm)
  · intro b hm
    simp only [clearImage, splice] at hm
    rcases List.mem_append.1 hm with hm | hm
    · rcases List.mem_append.1 hm with hm | hm
      · exact h6 b (List.mem_of_mem_take hm)
      · rw [List.eq_of_mem_replicate hm]
        exact writtenByte_wf _
    · exact h6 b (List.mem_of_mem_drop hm)

@[simp] theorem setPixel_w (img : PanelImage) (px py : Nat) (v : Bool) : (setPixel img px py v).w = img.w := rfl
@[simp] theorem setPixel_h (img : PanelImage) (px py : Nat) (v : Bool) : (setPixel img px py v).h = img.h := rfl

/-- A byte of an image after one pixel was set. -/
theorem setPixel_byte (img : PanelImage) (px py k : Nat) (v : Bool) :
    (setPixel img px py v).bytes[k]? =
      (img.bytes[k]?).map (fun b =>
        if headerLen + pixelIndex img.w px py / 8 = k then writeBit b (pixelBit (pixelIndex img.w px py)) v else b) := by
  simp only [setPixel, List.getElem?_modify]
  cases img.bytes[k]? <;> simp

theorem setPixel_length (img : PanelImage) (px py : Nat) (v : Bool) :
    (setPixel img px py v).bytes.length = img.bytes.length := by
  simp [setPixel]

/-- The header is out of reach of every pixel. -/
theorem setPixel_header (img : PanelImage) (px py k : Nat) (v : Bool) (hk : k < 16) :
    (setPixel img px py v).bytes[k]? = img.bytes[k]? := by
  have hne : ¬ headerLen + pixelIndex img.w px py / 8 = k := by unfold headerLen; omega
  rw [setPixel_byte]
  simp [hne]

/-- Two pixels of an image share a byte and a bit only when they are one pixel. -/
theorem pixelIndex_inj {w px py qx qy : Nat} (hp : px < w) (hq : qx < w)
    (h : pixelIndex w px py = pixelIndex w qx qy) : px = qx ∧ py = qy := by
  unfold pixelIndex at h
  have hmod : (py * w + px) % w = (qy * w + qx) % w := by rw [h]
  have hdiv : (py * w + px) / w = (qy * w + qx) / w := by rw [h]
  have hw : 0 < w := by omega
  rw [Nat.mul_comm py w, Nat.mul_comm qy w, Nat.mul_add_mod, Nat.mul_add_mod, Nat.mod_eq_of_lt hp,
    Nat.mod_eq_of_lt hq] at hmod
  rw [Nat.mul_comm py w, Nat.mul_comm qy w, Nat.mul_add_div hw, Nat.mul_add_div hw, Nat.div_eq_of_lt hp,
    Nat.div_eq_of_lt hq] at hdiv
  exact ⟨hmod, by omega⟩

theorem pixelIndex_lt {w h px py : Nat} (hx : px < w) (hy : py < h) : pixelIndex w px py < w * h := by
  unfold pixelIndex
  calc py * w + px < py * w + w := by omega
    _ = (py + 1) * w := by ring
    _ ≤ h * w := Nat.mul_le_mul_right w hy
    _ = w * h := Nat.mul_comm _ _

/-- A pixel of an image lies in its buffer. -/
theorem pixel_in_bounds (img : PanelImage) (hwf : img.wf = true) (px py : Nat) (hx : px < img.w) (hy : py < img.h) :
    headerLen + pixelIndex img.w px py / 8 < img.bytes.length := by
  obtain ⟨-, -, h3, h4, -, -⟩ := (panelImage_wf_iff img).1 hwf
  have := pixelIndex_lt hx hy
  rw [h4]
  unfold headerLen
  omega

/-- The pixel set reads back as written. -/
theorem pixelAt_setPixel_same (img : PanelImage) (px py : Nat) (v : Bool)
    (hb : headerLen + pixelIndex img.w px py / 8 < img.bytes.length) :
    pixelAt (setPixel img px py v) px py = some v := by
  unfold pixelAt
  rw [setPixel_byte, setPixel_w, List.getElem?_eq_getElem hb]
  simp [writeBit_val _ _ _ _ (pixelBit_lt _) (pixelBit_lt _), writeBit_written _ _ _ _ (pixelBit_lt _) (pixelBit_lt _)]

/-- Every other pixel keeps its value and whether it is written. -/
theorem pixelAt_setPixel_other (img : PanelImage) (px py qx qy : Nat) (v : Bool) (hp : px < img.w) (hq : qx < img.w)
    (hne : ¬ (px = qx ∧ py = qy)) : pixelAt (setPixel img px py v) qx qy = pixelAt img qx qy := by
  have hi : pixelIndex img.w px py ≠ pixelIndex img.w qx qy := fun h => hne (pixelIndex_inj hp hq h)
  unfold pixelAt
  rw [setPixel_byte, setPixel_w]
  by_cases hk : headerLen + pixelIndex img.w px py / 8 = headerLen + pixelIndex img.w qx qy / 8
  · have hbit : pixelBit (pixelIndex img.w qx qy) ≠ pixelBit (pixelIndex img.w px py) := by
      unfold pixelBit
      omega
    cases img.bytes[headerLen + pixelIndex img.w qx qy / 8]? with
    | none => rfl
    | some b =>
      simp [writeBit_val _ _ _ _ (pixelBit_lt _) (pixelBit_lt _), writeBit_written _ _ _ _ (pixelBit_lt _) (pixelBit_lt _),
        hbit, hk]
  · have hk' : ¬ pixelIndex img.w px py / 8 = pixelIndex img.w qx qy / 8 := fun h => hk (by rw [h])
    cases img.bytes[headerLen + pixelIndex img.w qx qy / 8]? <;> simp [hk']

theorem setPixel_wf (img : PanelImage) (px py : Nat) (v : Bool) (h : img.wf = true) : (setPixel img px py v).wf = true := by
  rw [panelImage_wf_iff] at h ⊢
  obtain ⟨h1, h2, h3, h4, h5, h6⟩ := h
  refine ⟨h1, h2, h3, by rw [setPixel_length]; exact h4, ?_, ?_⟩
  · intro b hb
    obtain ⟨k, hk, rfl⟩ := List.getElem_of_mem hb
    have hk16 : k < 16 := by simp at hk; omega
    have hkl : k < img.bytes.length := by omega
    have := setPixel_header img px py k v hk16
    rw [List.getElem?_eq_getElem hkl, List.getElem?_eq_getElem (by rw [setPixel_length]; exact hkl)] at this
    rw [List.getElem_take, Option.some.inj this]
    apply h5
    rw [List.mem_iff_getElem]
    exact ⟨k, by simp; omega, by simp⟩
  · intro b hb
    obtain ⟨k, hk, rfl⟩ := List.getElem_of_mem hb
    have hkl : k < img.bytes.length := by rwa [setPixel_length] at hk
    have := setPixel_byte img px py k v
    rw [List.getElem?_eq_getElem hkl, List.getElem?_eq_getElem hk] at this
    rw [Option.some.inj this]
    have hw := h6 img.bytes[k] (List.getElem_mem hkl)
    show (if _ then _ else _ : BufByte).wf = true
    split
    · exact writeBit_wf _ _ _ (pixelBit_lt _) hw
    · exact hw

/-- Whatever every pixel write keeps, a row of a composite keeps. -/
theorem compositeRow_keeps {P : PanelImage → Prop} (hset : ∀ im px py v, P im → P (setPixel im px py v))
    (v : List Byte) (bw x y sy : Nat) (img : PanelImage) (h : P img) : P (compositeRow v bw x y sy img) := by
  unfold compositeRow
  generalize List.range bw = l
  induction l generalizing img with
  | nil => exact h
  | cons a l ih => exact ih _ (hset _ _ _ _ h)

/-- Whatever every pixel write keeps, a composite keeps. -/
theorem compositeImage_keeps {P : PanelImage → Prop} (hset : ∀ im px py v, P im → P (setPixel im px py v))
    (p : Params) (img : PanelImage) (bis : Bis) (x y : Nat) (h : P img) : P (compositeImage p img bis x y) := by
  unfold compositeImage
  generalize List.range bis.h = l
  induction l generalizing img with
  | nil => exact h
  | cons a l ih => exact ih _ (compositeRow_keeps hset _ _ _ _ _ _ h)

/-- `IMG_COMPOSITE` keeps a PanelImage's shape (R204). -/
theorem compositeImage_wf (p : Params) (img : PanelImage) (bis : Bis) (x y : Nat) (h : img.wf = true) :
    (compositeImage p img bis x y).wf = true :=
  compositeImage_keeps (P := fun im => im.wf = true) (fun im px py v hi => setPixel_wf im px py v hi) p img bis x y h

/-- `BIS_NEW` gives a Bit-Image Source (R205, R207). -/
theorem newBis_wf (w h : Nat) (raw : List Byte) (hg : w * h % 8 = 0) (hl : w * h / 8 ≤ raw.length) :
    (newBis w h raw).wf = true := by
  simp [Bis.wf, newBis, hg, notByte, Nat.min_eq_left hl, Function.comp_def]

end Sys2Proof.Machine
end

