-- ==== Sys2Proof/Laws/Exec.lean ====
section
/-!
SUPPORT. What one request can do, once for all of them: admission, and everything an admitted request leaves. The statements
about every request follow from these by cases on the request's outcome, with no unfolding of a meaning.
-/

namespace Sys2Proof.Machine

/-- A request that R413 admits passes through `admitted` (R413). -/
theorem exec_admits (i : Instr) (hi : isLifecycle i = false) (s : State) : ∃ body, exec i s = admitted s body := by
  cases i
  case construct => cases hi
  case teardown => cases hi
  all_goals
    simp only [exec, execErase, execUpdFull, execUpdFl, execUpdFlinv, execRoiSet, execFillVal, execCopySlot, execDpReset,
      execImgPkt, execStatusRead, execClassify, execIsBusy, execWaitBusy, execWaitFree, execImgNew, execImgClear,
      execImgComposite, execBisNew, execBisView, execPktSplit, execSendImage, execSendImagePi, execSendImageRoi, execFill,
      execFillRoi, execCopyRoi, execEraseP, execUpdateP, execUpdateFlP, execUpdateFlinvP]
    exact ⟨_, rfl⟩

/-! ## Admitted requests without a check of their own: the next state -/

theorem exec_erase_ready {s : State} (hr : Ready s) (slot : Byte) :
    exec (.erase slot) s = .next (respond .unit (eraseOp slot s)) :=
  admit_ready hr fun s => respond .unit (eraseOp slot s)

theorem exec_updFull_ready {s : State} (hr : Ready s) (slot : Byte) :
    exec (.updFull slot) s = .next (respond .unit (updateCmd s.cfg.opUpdFull slot s)) :=
  admit_ready hr fun s => respond .unit (updateCmd s.cfg.opUpdFull slot s)

theorem exec_updFl_ready {s : State} (hr : Ready s) (slot : Byte) :
    exec (.updFl slot) s = .next (respond .unit (updateCmd s.cfg.opUpdFl slot s)) :=
  admit_ready hr fun s => respond .unit (updateCmd s.cfg.opUpdFl slot s)

theorem exec_updFlinv_ready {s : State} (hr : Ready s) (slot : Byte) :
    exec (.updFlinv slot) s = .next (respond .unit (updateCmd s.cfg.opUpdFlinv slot s)) :=
  admit_ready hr fun s => respond .unit (updateCmd s.cfg.opUpdFlinv slot s)

theorem exec_copySlot_ready {s : State} (hr : Ready s) (slot src : Byte) :
    exec (.copySlot slot src) s = .next (respond .unit (copySlotOp slot src s)) :=
  admit_ready hr fun s => respond .unit (copySlotOp slot src s)

theorem exec_dpReset_ready {s : State} (hr : Ready s) (slot : Byte) :
    exec (.dpReset slot) s = .next (respond .unit (dpResetOp slot s).2) :=
  admit_ready hr fun s => respond .unit (dpResetOp slot s).2

theorem exec_statusRead_ready {s : State} (hr : Ready s) :
    exec .statusRead s = .next (respond (.status (statusReadOp s).1) (statusReadOp s).2) :=
  admit_ready hr fun s => respond (.status (statusReadOp s).1) (statusReadOp s).2

theorem exec_isBusy_ready {s : State} (hr : Ready s) :
    exec .isBusy s = .next (respond (.bool (isBusyQuery s).1) (isBusyQuery s).2) :=
  admit_ready hr fun s => respond (.bool (isBusyQuery s).1) (isBusyQuery s).2

theorem exec_waitBusy_ready {s : State} (hr : Ready s) (T : Nat) :
    exec (.waitBusy T) s = .next (respond (.wait (waitForBusy T s).1) (waitForBusy T s).2) :=
  admit_ready hr fun s => respond (.wait (waitForBusy T s).1) (waitForBusy T s).2

theorem exec_waitFree_ready {s : State} (hr : Ready s) :
    exec .waitFree s = .next (respond .unit (waitUntilFree s)) :=
  admit_ready hr fun s => respond .unit (waitUntilFree s)

theorem exec_eraseP_ready {s : State} (hr : Ready s) :
    exec .eraseP s = .next (respond .unit (eraseOp s.cfg.slotErase s)) :=
  admit_ready hr fun s => respond .unit (eraseOp s.cfg.slotErase s)

theorem exec_updateP_ready {s : State} (hr : Ready s) :
    exec .updateP s = .next (respond .unit (updateCmd s.cfg.opUpdFull s.cfg.slotUpdate s)) :=
  admit_ready hr fun s => respond .unit (updateCmd s.cfg.opUpdFull s.cfg.slotUpdate s)

theorem exec_updateFlP_ready {s : State} (hr : Ready s) :
    exec .updateFlP s = .next (respond .unit (updateCmd s.cfg.opUpdFl s.cfg.slotUpdate s)) :=
  admit_ready hr fun s => respond .unit (updateCmd s.cfg.opUpdFl s.cfg.slotUpdate s)

theorem exec_updateFlinvP_ready {s : State} (hr : Ready s) :
    exec .updateFlinvP s = .next (respond .unit (updateCmd s.cfg.opUpdFlinv s.cfg.slotUpdate s)) :=
  admit_ready hr fun s => respond .unit (updateCmd s.cfg.opUpdFlinv s.cfg.slotUpdate s)

/-- What an admitted request that is not refused leaves: its one response, its events and how many of them go out on the
port, and who writes which field. -/
structure Effect (i : Instr) (s t : State) (r : Response) (evs : List Event) : Prop where
  ext : Extends s t evs [r]
  fits : fitsRequest i r = true
  answers : ∀ c, r ≠ .fault c
  legal : LegalEvents s.cfg evs
  sends : sends evs ≤ (maxTransactions s.cfg i).1
  exchanges : exchanges evs ≤ (maxTransactions s.cfg i).2
  lastUpdate : t.lastUpdate = s.lastUpdate ∧ isUpdate i = false ∨
    isUpdate i = true ∧ ∃ u, t.lastUpdate = .time u ∧ s.clock ≤ u ∧ u ≤ t.clock
  initXfer : t.initXfer = s.initXfer ∨ isTransfer i = true ∧ t.initXfer = true
  cs : t.cs = s.cs ∨ t.cs = .deselected
  onlyAnswers : isPure i = true → t = answeredWith r s

/-- A command with its wait and status read, as an effect. -/
theorem effect_of_command {i : Instr} {s t : State} {frame : List Byte} {T : Nat} {c : StatusClass} {a b : Mark}
    {evs : List Event} (hf : OpcodeMap s.cfg frame) (hc : CommandTrace s.cfg frame T c a b evs) (he : Extends s t evs [])
    (hq : Quiet s t) (hfit : fitsRequest i .unit = true) (hm : maxTransactions s.cfg i = (1, 3))
    (hu : isUpdate i = false) (hp : isPure i = false) : Effect i s (respond .unit t) .unit evs where
  ext := he.andRespond _
  fits := hfit
  answers := by simp
  legal := commandTrace_legal hf hc
  sends := by rw [hm, (commandTrace_counts hc).1]
  exchanges := by rw [hm]; exact (commandTrace_counts hc).2
  lastUpdate := .inl ⟨hq.lastUpdate, hu⟩
  initXfer := .inl hq.initXfer
  cs := .inr hq.cs
  onlyAnswers := by simp [hp]

/-- Two commands one after the other, as an effect. -/
theorem effect_of_commands {i : Instr} {s t u : State} {f₁ f₂ : List Byte} {T₁ T₂ : Nat} {a₁ b₁ a₂ b₂ : Mark}
    {c₁ c₂ : StatusClass} {e₁ e₂ : List Event} (hf₁ : OpcodeMap s.cfg f₁) (hf₂ : OpcodeMap s.cfg f₂)
    (h₁ : CommandTrace s.cfg f₁ T₁ c₁ a₁ b₁ e₁) (h₂ : CommandTrace t.cfg f₂ T₂ c₂ a₂ b₂ e₂) (x₁ : Extends s t e₁ [])
    (x₂ : Extends t u e₂ []) (q₁ : Quiet s t) (q₂ : Quiet t u) (hfit : fitsRequest i .unit = true)
    (hm : maxTransactions s.cfg i = (2, 6)) (hu : isUpdate i = false) (hp : isPure i = false) :
    Effect i s (respond .unit u) .unit (e₁ ++ e₂) := by
  rw [x₁.cfg] at h₂
  have n₁ := commandTrace_counts h₁
  have n₂ := commandTrace_counts h₂
  exact {
    ext := (x₁.andThen x₂).andRespond _
    fits := hfit
    answers := by simp
    legal := legal_append (commandTrace_legal hf₁ h₁) (commandTrace_legal hf₂ h₂)
    sends := by rw [hm, sends_append]; omega
    exchanges := by rw [hm, exchanges_append]; omega
    lastUpdate := .inl ⟨q₂.lastUpdate.trans q₁.lastUpdate, hu⟩
    initXfer := .inl (q₂.initXfer.trans q₁.initXfer)
    cs := .inr q₂.cs
    onlyAnswers := by simp [hp] }

/-- A frame and its wait, as an effect. -/
theorem effect_of_wait {i : Instr} {s u : State} {slot : Byte} {o : WaitOutcome} {a b : Mark} {w : List Event}
    (hw : WaitTrace s.cfg s.cfg.tLong o a b w) (h : Waited (send (simpleFrame 0x20 0x0E slot) s) u o w)
    (hfit : fitsRequest i .unit = true) (hm : maxTransactions s.cfg i = (1, 0)) (hu : isUpdate i = false)
    (hp : isPure i = false) : Effect i s (respond .unit u) .unit ([.txn .send [0x20, 0x0E, slot] []] ++ w) where
  ext := ((extends_send _ s).andThen h.ext).andRespond _
  fits := hfit
  answers := by simp
  legal := legal_append (legal_cons ⟨opcodeMap_erase _ slot, rfl⟩ (legal_nil _)) (waitTrace_legal hw)
  sends := by rw [hm, sends_append, (waitTrace_counts hw).1]; simp [isSend]
  exchanges := by rw [hm, exchanges_append, (waitTrace_counts hw).2]; simp [isExchange]
  lastUpdate := .inl ⟨h.lastUpdate, hu⟩
  initXfer := .inl h.initXfer
  cs := .inr h.cs
  onlyAnswers := by simp [hp]

/-- Everything the body of an update operation can do (R233). -/
theorem updateCmd_spec (op slot : Byte) (s : State) :
    ∃ t o w, updateCmd op slot s = t ∧
      WaitTrace s.cfg s.cfg.tLong o ⟨(readClock s).1, s.lastWait⟩ t.mark w ∧
      Extends s t (.txn .send [op, 0x01, slot] [] :: w) [] ∧ t.lastUpdate = .time (readClock s).1 ∧ (readClock s).1 ≤ t.clock ∧ t.initXfer = s.initXfer ∧
      t.cs = .deselected ∧ t.panel = s.panel := by
  obtain ⟨o, t, w, h1, h2, h3, -⟩ := waitForBusy_spec s.cfg.tLong (stampUpdate (send (simpleFrame op 0x01 slot) s))
  have e := (extends_send (simpleFrame op 0x01 slot) s).andThen (extends_readClock _)
  have e' : Extends s (stampUpdate (send (simpleFrame op 0x01 slot) s)) [.txn .send [op, 0x01, slot] []] [] :=
    ⟨e.trace, e.responses, e.phase, e.fault, e.cfg, e.acquires, e.requests, e.history, e.clock⟩
  refine ⟨t, o, w, ?_, h2, e'.andThen h3.ext, h3.lastUpdate, h3.ext.clock, h3.initXfer, h3.cs, h3.panel⟩
  simp only [updateCmd, simpleCmd]
  exact congrArg Prod.snd h1

/-- An update operation, as an effect. -/
theorem effect_of_update {i : Instr} (op slot : Byte) (s : State)
    (hop : op = s.cfg.opUpdFull ∨ op = s.cfg.opUpdFl ∨ op = s.cfg.opUpdFlinv) (hfit : fitsRequest i .unit = true)
    (hm : maxTransactions s.cfg i = (1, 0)) (hu : isUpdate i = true) (hp : isPure i = false) :
    ∃ evs, Effect i s (respond .unit (updateCmd op slot s)) .unit evs := by
  obtain ⟨t, o, w, h1, h2, h3, h5, h6, h7, h8, -⟩ := updateCmd_spec op slot s
  have n := waitTrace_counts h2
  rw [h1]
  exact ⟨_, {
    ext := h3.andRespond _
    fits := hfit
    answers := by simp
    legal := legal_cons ⟨opcodeMap_update _ op slot hop, rfl⟩ (waitTrace_legal h2)
    sends := by rw [hm, sends_cons, n.1]; simp [isSend]
    exchanges := by rw [hm, exchanges_cons, n.2]; simp [isExchange]
    lastUpdate := .inr ⟨hu, _, h5, le_readClock s, h6⟩
    initXfer := .inl h7
    cs := .inr h8
    onlyAnswers := by simp [hp] }⟩

/-- A pure request's answer, as an effect. -/
theorem effect_of_answer {i : Instr} (s : State) (r : Response) (hfit : fitsRequest i r = true)
    (ha : ∀ c, r ≠ .fault c) (hu : isUpdate i = false) : Effect i s (respond r s) r [] where
  ext := (extends_refl s).andRespond r
  fits := hfit
  answers := ha
  legal := legal_nil _
  sends := Nat.zero_le _
  exchanges := Nat.zero_le _
  lastUpdate := .inl ⟨rfl, hu⟩
  initXfer := .inl rfl
  cs := .inl rfl
  onlyAnswers := fun _ => rfl

/-- The image packets of a transfer, counted. -/
theorem packets_counts {p : Params} {data : List Byte} {plen : Nat} {oks : List Bool} {a b : Mark} {evs : List Event}
    (h : PacketsTrace p (imageFrames data plen) oks a b evs) :
    sends evs ≤ 4 * (data.length / plen + 1) ∧ exchanges evs ≤ 12 * (data.length / plen + 1) := by
  have := packetsTrace_counts h
  rw [imageFrames_length] at this
  exact this.2

/-- The checks of `SEND_IMAGE`, once passed. -/
theorem sendImageCheck_ok {buf : Buffer} {len plen : Nat} {data : List Byte} (h : sendImageCheck buf len plen = .ok data) :
    0 < plen ∧ plen ≤ 255 ∧ data.length = len ∧ memRead buf 0 len = .ok data := by
  unfold sendImageCheck at h
  split at h
  · simp at h
  · split at h
    · simp at h
    · refine ⟨by omega, by omega, ?_, h⟩
      obtain ⟨h1, -, h2⟩ := (memRead_ok_iff _ _ _ _).1 h
      rw [h2, List.length_map, slice_length _ _ _ h1]

/-- Everything the body of `SEND_IMAGE` can do (R324). -/
theorem sendImageBody_cases {i : Instr} (buf : Buffer) (len plen : Nat) (s : State)
    (hfit : ∀ b, fitsRequest i (.bool b) = true)
    (hm : maxTransactions s.cfg i = (3 + 4 * (len / plen + 1), 9 + 12 * (len / plen + 1))) (hu : isUpdate i = false)
    (hx : isTransfer i = true) (hp : isPure i = false) :
    (∃ c, sendImageBody buf len plen s = refusedWith c s) ∨
      ∃ r evs, Effect i s (sendImageBody buf len plen s) r evs := by
  cases hc : sendImageCheck buf len plen with
  | error c => exact .inl ⟨c, checked_error hc _ s⟩
  | ok data =>
    obtain ⟨h0, h255, hlen, -⟩ := sendImageCheck_ok hc
    obtain ⟨okR, oks, m, t, e₁, e₂, h1, h2, h3, h4, h5, h6⟩ := sendImageOp_spec data plen s
    have n₁ := retryTrace_counts h2
    have n₂ := packets_counts h3
    rw [hlen] at n₂
    right
    rw [sendImageBody, checked_ok hc]
    simp only [h1]
    exact ⟨_, _, {
      ext := h4.andRespond _
      fits := hfit _
      answers := by simp
      legal := legal_append (retryTrace_legal (opcodeMap_dpReset _ _) h2)
        (packetsTrace_legal (imageFrames_opcodeMap _ _ _ h0 h255) h3)
      sends := by rw [hm, sends_append]; omega
      exchanges := by rw [hm, exchanges_append]; omega
      lastUpdate := .inl ⟨h6.lastUpdate, hu⟩
      initXfer := .inr ⟨hx, h5⟩
      cs := .inr h6.cs
      onlyAnswers := by simp [hp] }⟩

/-- The checks of `SEND_IMAGE_ROI`, once passed. -/
theorem sendRoiCheck_ok {p : Params} {buf : Buffer} {x y w h : Nat} {f : Nat × Nat × Nat × Nat} {data : List Byte}
    (hc : sendRoiCheck p buf x y w h = .ok (f, data)) :
    y ≤ p.roiClampH ∧ 0 < roiPlen w ∧ roiPlen w ≤ 255 ∧ roiFields p x y w (roiClamp p y h) = some f ∧
      data.length = buf.length ∧ memRead buf 0 buf.length = .ok data := by
  unfold sendRoiCheck at hc
  split at hc
  · simp at hc
  · split at hc
    · simp at hc
    · split at hc
      · simp at hc
      · split at hc
        · simp at hc
        · rename_i g hg
          split at hc
          · simp at hc
          · rename_i d hd
            simp only [Except.ok.injEq, Prod.mk.injEq] at hc
            obtain ⟨rfl, rfl⟩ := hc
            refine ⟨by omega, by omega, by omega, roiCheck_ok hg, ?_, hd⟩
            obtain ⟨h1, -, h2⟩ := (memRead_ok_iff _ _ _ _).1 hd
            rw [h2, List.length_map, slice_length _ _ _ h1]

theorem roiPass_legal {p : Params} {x y w h : Nat} {f : Nat × Nat × Nat × Nat} {data : List Byte} {plen : Nat}
    {oks : List Bool} {a b : Mark} {evs : List Event} (hf : roiFields p x y w h = some f) (h0 : 0 < plen) (h255 : plen ≤ 255)
    (ht : RoiPassTrace p f data plen oks a b evs) : LegalEvents p evs := by
  obtain ⟨c, m, e₁, e₂, rfl, h1, h2⟩ := ht
  exact legal_append (commandTrace_legal (opcodeMap_roi hf _) h1)
    (packetsTrace_legal (imageFrames_opcodeMap _ _ _ h0 h255) h2)

theorem roiPass_counts {p : Params} {f : Nat × Nat × Nat × Nat} {data : List Byte} {plen : Nat} {oks : List Bool}
    {a b : Mark} {evs : List Event} (ht : RoiPassTrace p f data plen oks a b evs) :
    sends evs ≤ 1 + 4 * (data.length / plen + 1) ∧ exchanges evs ≤ 3 + 12 * (data.length / plen + 1) := by
  obtain ⟨c, m, e₁, e₂, rfl, h1, h2⟩ := ht
  have n₁ := commandTrace_counts h1
  have n₂ := packets_counts h2
  simp only [sends_append, exchanges_append]
  omega

/-- Everything `SEND_IMAGE_ROI` past its checks can do (R327): one pass, or two when the first failed and `retry` is 0. -/
theorem sendRoiOp_spec (f : Nat × Nat × Nat × Nat) (data : List Byte) (plen retry : Nat) (s : State) :
    ∃ ok t evs, sendRoiOp f data plen retry s = (ok, t) ∧ Extends s t evs [] ∧ t.initXfer = true ∧ Settled s t ∧
      ((∃ oks, RoiPassTrace s.cfg f data plen oks s.mark t.mark evs ∧ ok = oks.any id ∧ (ok = true ∨ retry ≠ 0)) ∨
        (retry = 0 ∧ ∃ oks₁ oks₂ m e₁ e₂, evs = e₁ ++ e₂ ∧ RoiPassTrace s.cfg f data plen oks₁ s.mark m e₁ ∧
          oks₁.any id = false ∧ RoiPassTrace s.cfg f data plen oks₂ m t.mark e₂ ∧ ok = oks₂.any id)) := by
  obtain ⟨oks₁, t, e₁, h1, h2, h3, h4, h5⟩ := roiPass_spec f data plen s
  by_cases hr : oks₁.any id = false ∧ retry = 0
  · obtain ⟨oks₂, u, e₂, k1, k2, k3, k4, k5⟩ := roiPass_spec f data plen t
    rw [h3.cfg] at k2
    refine ⟨_, u, e₁ ++ e₂, ?_, h3.andThen k3, k4, ⟨k5.lastUpdate.trans h5.lastUpdate, k5.cs, k5.lastWait⟩,
      .inr ⟨hr.2, oks₁, oks₂, t.mark, e₁, e₂, rfl, h2, hr.1, k2, rfl⟩⟩
    rw [sendRoiOp, h1, if_pos hr, k1]
  · refine ⟨_, t, e₁, ?_, h3, h4, h5, .inl ⟨oks₁, h2, rfl, ?_⟩⟩
    · rw [sendRoiOp, h1, if_neg hr]
    · by_cases ha : oks₁.any id = true
      · exact .inl ha
      · exact .inr fun h0 => hr ⟨by simpa using ha, h0⟩

/-- Everything an admitted request can do: it is refused by a check of its own, or it has its effect. -/
theorem exec_cases (i : Instr) (hi : isLifecycle i = false) (s : State) (hr : Ready s) :
    ∃ t, exec i s = .next t ∧ ((∃ c, t = refusedWith c s) ∨ ∃ r evs, Effect i s t r evs) := by
  cases i
  case construct => cases hi
  case teardown => cases hi
  case erase slot =>
    obtain ⟨o, u, w, h1, h2, h3, -⟩ := waitForBusy_spec s.cfg.tLong (send (simpleFrame 0x20 0x0E slot) s)
    refine ⟨_, exec_erase_ready hr slot, .inr ⟨.unit, [.txn .send [0x20, 0x0E, slot] []] ++ w, ?_⟩⟩
    simp only [eraseOp, simpleCmd, h1]
    exact effect_of_wait h2 h3 rfl rfl rfl rfl
  case eraseP =>
    obtain ⟨o, u, w, h1, h2, h3, -⟩ := waitForBusy_spec s.cfg.tLong (send (simpleFrame 0x20 0x0E s.cfg.slotErase) s)
    refine ⟨_, exec_eraseP_ready hr, .inr ⟨.unit, [.txn .send [0x20, 0x0E, s.cfg.slotErase] []] ++ w, ?_⟩⟩
    simp only [eraseOp, simpleCmd, h1]
    exact effect_of_wait h2 h3 rfl rfl rfl rfl
  case updFull slot =>
    exact ⟨_, exec_updFull_ready hr slot, .inr ⟨_, effect_of_update _ slot s (.inl rfl) rfl rfl rfl rfl⟩⟩
  case updFl slot =>
    exact ⟨_, exec_updFl_ready hr slot, .inr ⟨_, effect_of_update _ slot s (.inr (.inl rfl)) rfl rfl rfl rfl⟩⟩
  case updFlinv slot =>
    exact ⟨_, exec_updFlinv_ready hr slot, .inr ⟨_, effect_of_update _ slot s (.inr (.inr rfl)) rfl rfl rfl rfl⟩⟩
  case updateP =>
    exact ⟨_, exec_updateP_ready hr, .inr ⟨_, effect_of_update _ s.cfg.slotUpdate s (.inl rfl) rfl rfl rfl rfl⟩⟩
  case updateFlP =>
    exact ⟨_, exec_updateFlP_ready hr, .inr ⟨_, effect_of_update _ s.cfg.slotUpdate s (.inr (.inl rfl)) rfl rfl rfl rfl⟩⟩
  case updateFlinvP =>
    exact ⟨_, exec_updateFlinvP_ready hr, .inr ⟨_, effect_of_update _ s.cfg.slotUpdate s (.inr (.inr rfl)) rfl rfl rfl rfl⟩⟩
  case roiSet slot x y w h =>
    refine ⟨_, admit_ready hr _, ?_⟩
    cases hc : roiCheck s.cfg x y w h with
    | error c => exact .inl ⟨c, rfl⟩
    | ok f =>
      obtain ⟨c, t, evs, h1, h2, h3, h4, -⟩ :=
        command_spec (paramFrame s.cfg.opParam 0x0A slot (roiPayload f)) s.cfg.tMedium s
      refine .inr ⟨.unit, evs, ?_⟩
      simp only [checked, roiSetOp, paramCmd, h1]
      exact effect_of_command (opcodeMap_roi (roiCheck_ok hc) slot) h2 h3 h4 rfl rfl rfl rfl
  case fillVal slot v =>
    refine ⟨_, admit_ready hr _, ?_⟩
    by_cases hv : isFillByte v = true
    · obtain ⟨c, t, evs, h1, h2, h3, h4, -⟩ := command_spec (paramFrame s.cfg.opParam 0x0B slot [v]) s.cfg.tMedium s
      refine .inr ⟨.unit, evs, ?_⟩
      simp only [checked, fillCheck, hv, if_true, fillValOp, paramCmd, h1]
      exact effect_of_command (opcodeMap_fill _ slot v ((isFillByte_iff v).1 hv)) h2 h3 h4 rfl rfl rfl rfl
    · exact .inl ⟨.fValue, by simp only [checked, fillCheck, hv]; rfl⟩
  case copySlot slot src =>
    obtain ⟨c, t, evs, h1, h2, h3, h4, -⟩ := command_spec (paramFrame s.cfg.opParam 0x0C slot [src]) s.cfg.tMedium s
    refine ⟨_, exec_copySlot_ready hr slot src, .inr ⟨.unit, evs, ?_⟩⟩
    simp only [copySlotOp, paramCmd, h1]
    exact effect_of_command (opcodeMap_copy _ slot src) h2 h3 h4 rfl rfl rfl rfl
  case dpReset slot =>
    obtain ⟨c, t, evs, h1, h2, h3, h4, -⟩ := command_spec (paramFrame s.cfg.opParam 0x0D slot []) s.cfg.tLong s
    refine ⟨_, exec_dpReset_ready hr slot, .inr ⟨.unit, evs, ?_⟩⟩
    simp only [dpResetOp, paramCmd, h1]
    exact effect_of_command (opcodeMap_dpReset _ slot) h2 h3 h4 rfl rfl rfl rfl
  case imgPkt init payload =>
    refine ⟨_, admit_ready hr _, ?_⟩
    by_cases hl : payload.length > 255
    · exact .inl ⟨.fLen, by simp only [checked, payloadCheck, hl, if_true]; rfl⟩
    · obtain ⟨ok, t, evs, h1, h2, h3, h4, h5⟩ := imgPktOp_spec init payload s
      have n := retryTrace_counts h2
      refine .inr ⟨.bool ok, evs, ?_⟩
      simp only [checked, payloadCheck, hl, if_false, h1]
      exact {
        ext := h3.andRespond _
        fits := rfl
        answers := by simp
        legal := retryTrace_legal (opcodeMap_image _ init payload (by omega)) h2
        sends := n.1
        exchanges := n.2
        lastUpdate := .inl ⟨h5.lastUpdate, rfl⟩
        initXfer := .inl h4
        cs := .inr h5.cs
        onlyAnswers := by simp [isPure] }
  case statusRead =>
    obtain ⟨c, t, evs, h1, h2, h3, h4⟩ := statusReadOp_spec s
    have n := statusTrace_counts h2
    refine ⟨_, exec_statusRead_ready hr, .inr ⟨.status c, evs, ?_⟩⟩
    simp only [h1]
    exact {
      ext := h3.andRespond _
      fits := rfl
      answers := by simp
      legal := statusTrace_legal h2
      sends := n.1.le
      exchanges := n.2
      lastUpdate := .inl ⟨h4.lastUpdate, rfl⟩
      initXfer := .inl h4.initXfer
      cs := .inr h4.cs
      onlyAnswers := by simp [isPure] }
  case isBusy =>
    obtain ⟨t, l, u, h1, -, -, -, h2, h3, h4, h5, -⟩ := isBusyQuery_spec s
    refine ⟨_, exec_isBusy_ready hr, .inr ⟨.bool (busyAnswer s.cfg s.lastUpdate t l), [.pinRead .busy l], ?_⟩⟩
    simp only [h1]
    exact {
      ext := h2.andRespond _
      fits := rfl
      answers := by simp
      legal := legal_cons trivial (legal_nil _)
      sends := Nat.le_refl _
      exchanges := Nat.le_refl _
      lastUpdate := .inl ⟨h4, rfl⟩
      initXfer := .inl h3
      cs := .inl h5
      onlyAnswers := by simp [isPure] }
  case waitBusy T =>
    obtain ⟨o, t, w, h1, h2, h3, -⟩ := waitForBusy_spec T s
    have n := waitTrace_counts h2
    refine ⟨_, exec_waitBusy_ready hr T, .inr ⟨.wait o, w, ?_⟩⟩
    simp only [h1]
    exact {
      ext := h3.ext.andRespond _
      fits := rfl
      answers := by simp
      legal := waitTrace_legal h2
      sends := n.1.le
      exchanges := n.2.le
      lastUpdate := .inl ⟨h3.lastUpdate, rfl⟩
      initXfer := .inl h3.initXfer
      cs := .inl h3.cs
      onlyAnswers := by simp [isPure] }
  case waitFree =>
    obtain ⟨o, m, w, qs, q, t, h1, h2, -, h3, -, -, -, -, -, -, -, h5, h6, h7, -⟩ := waitUntilFree_spec s
    have n₁ := waitTrace_counts h2
    have n₂ := freeQueries_counts s.cfg qs
    refine ⟨_, exec_waitFree_ready hr, .inr ⟨.unit, w ++ freeQueries s.cfg qs ++ [.pinRead .busy q.1], ?_⟩⟩
    simp only [h1]
    exact {
      ext := h3.andRespond _
      fits := rfl
      answers := by simp
      legal := legal_append (legal_append (waitTrace_legal h2) (freeQueries_legal _ _)) (legal_cons trivial (legal_nil _))
      sends := by simp [n₁.1, n₂.1, isSend]
      exchanges := by simp [n₁.2, n₂.2, isExchange]
      lastUpdate := .inl ⟨h6, rfl⟩
      initXfer := .inl h5
      cs := .inl h7
      onlyAnswers := by simp [isPure] }
  case classify b0 b1 =>
    exact ⟨_, admit_ready hr _, .inr ⟨_, _, effect_of_answer s _ rfl (by simp) rfl⟩⟩
  case imgClear img white =>
    exact ⟨_, admit_ready hr _, .inr ⟨_, _, effect_of_answer s _ rfl (by simp) rfl⟩⟩
  case bisView bis which =>
    exact ⟨_, admit_ready hr _, .inr ⟨_, _, effect_of_answer s _ rfl (by simp) rfl⟩⟩
  case imgNew w h =>
    refine ⟨_, admit_ready hr _, ?_⟩
    cases imgNewCheck w h with
    | error c => exact .inl ⟨c, rfl⟩
    | ok a => exact .inr ⟨_, _, effect_of_answer s _ rfl (by simp) rfl⟩
  case imgComposite img bis x y =>
    refine ⟨_, admit_ready hr _, ?_⟩
    cases compositeCheck img bis x y with
    | error c => exact .inl ⟨c, rfl⟩
    | ok a => exact .inr ⟨_, _, effect_of_answer s _ rfl (by simp) rfl⟩
  case bisNew w h raw =>
    refine ⟨_, admit_ready hr _, ?_⟩
    cases bisNewCheck w h raw with
    | error c => exact .inl ⟨c, rfl⟩
    | ok a => exact .inr ⟨_, _, effect_of_answer s _ rfl (by simp) rfl⟩
  case pktSplit len plen =>
    refine ⟨_, admit_ready hr _, ?_⟩
    cases pktSplitCheck len plen with
    | error c => exact .inl ⟨c, rfl⟩
    | ok a => exact .inr ⟨_, _, effect_of_answer s _ rfl (by simp) rfl⟩
  case sendImage buf len plen =>
    exact ⟨_, admit_ready hr _, sendImageBody_cases buf len plen s (fun _ => rfl) rfl rfl rfl rfl⟩
  case sendImagePi img =>
    exact ⟨_, admit_ready hr _,
      sendImageBody_cases img.bytes (imageLen img) s.cfg.defaultPacketLen s (fun _ => rfl) rfl rfl rfl rfl⟩
  case sendImageRoi buf x y w h retry =>
    refine ⟨_, admit_ready hr _, ?_⟩
    cases hc : sendRoiCheck s.cfg buf x y w h with
    | error c => exact .inl ⟨c, rfl⟩
    | ok fd =>
      obtain ⟨-, h0, h255, hf, hlen, -⟩ := sendRoiCheck_ok (f := fd.1) (data := fd.2) hc
      obtain ⟨ok, t, evs, h1, h2, h3, h4, h5⟩ := sendRoiOp_spec fd.1 fd.2 (roiPlen w) retry s
      refine .inr ⟨.bool ok, evs, ?_⟩
      simp only [checked, h1]
      have hn : LegalEvents s.cfg evs ∧ sends evs ≤ (maxTransactions s.cfg (.sendImageRoi buf x y w h retry)).1 ∧
          exchanges evs ≤ (maxTransactions s.cfg (.sendImageRoi buf x y w h retry)).2 := by
        simp only [maxTransactions, ← hlen]
        rcases h5 with ⟨oks, k1, -, -⟩ | ⟨-, oks₁, oks₂, m, e₁, e₂, rfl, k1, -, k2, -⟩
        · have n := roiPass_counts k1
          exact ⟨roiPass_legal hf h0 h255 k1, by omega, by omega⟩
        · have n₁ := roiPass_counts k1
          have n₂ := roiPass_counts k2
          refine ⟨legal_append (roiPass_legal hf h0 h255 k1) (roiPass_legal hf h0 h255 k2), ?_, ?_⟩
          · rw [sends_append]; omega
          · rw [exchanges_append]; omega
      exact {
        ext := h2.andRespond _
        fits := rfl
        answers := by simp
        legal := hn.1
        sends := hn.2.1
        exchanges := hn.2.2
        lastUpdate := .inl ⟨h4.lastUpdate, rfl⟩
        initXfer := .inr ⟨rfl, h3⟩
        cs := .inr h4.cs
        onlyAnswers := by simp [isPure] }
  case fill white =>
    refine ⟨_, admit_ready hr _, ?_⟩
    cases hc : roiCheck s.cfg 0 0 s.cfg.panelW s.cfg.panelH with
    | error c => exact .inl ⟨c, rfl⟩
    | ok f =>
      obtain ⟨c₁, t, e₁, h1, h2, h3, h4, -⟩ :=
        command_spec (paramFrame s.cfg.opParam 0x0A s.cfg.slotRoi (roiPayload f)) s.cfg.tMedium s
      obtain ⟨c₂, u, e₂, k1, k2, k3, k4, -⟩ :=
        command_spec (paramFrame t.cfg.opParam 0x0B s.cfg.slotFill [fillByte s.cfg white]) t.cfg.tMedium t
      refine .inr ⟨.unit, e₁ ++ e₂, ?_⟩
      simp only [checked, fillSeq, roiSetOp, fillValOp, paramCmd, Params.slot, h1, k1]
      rw [h3.cfg] at k2
      refine effect_of_commands (opcodeMap_roi (roiCheck_ok hc) _) (opcodeMap_fill _ _ _ (fillByte_cases _ white)) h2
        (by rw [h3.cfg]; exact k2) h3 k3 h4 k4 rfl rfl rfl rfl
  case fillRoi x y w h white =>
    refine ⟨_, admit_ready hr _, ?_⟩
    cases hc : roiCheck s.cfg x y w h with
    | error c => exact .inl ⟨c, rfl⟩
    | ok f =>
      obtain ⟨c₁, t, e₁, h1, h2, h3, h4, -⟩ :=
        command_spec (paramFrame s.cfg.opParam 0x0A s.cfg.slotRoi (roiPayload f)) s.cfg.tMedium s
      obtain ⟨c₂, u, e₂, k1, k2, k3, k4, -⟩ :=
        command_spec (paramFrame t.cfg.opParam 0x0B s.cfg.slotFill [fillByte s.cfg white]) t.cfg.tMedium t
      refine .inr ⟨.unit, e₁ ++ e₂, ?_⟩
      simp only [checked, fillSeq, roiSetOp, fillValOp, paramCmd, Params.slot, h1, k1]
      rw [h3.cfg] at k2
      refine effect_of_commands (opcodeMap_roi (roiCheck_ok hc) _) (opcodeMap_fill _ _ _ (fillByte_cases _ white)) h2
        (by rw [h3.cfg]; exact k2) h3 k3 h4 k4 rfl rfl rfl rfl
  case copyRoi x y w h src =>
    refine ⟨_, admit_ready hr _, ?_⟩
    cases hc : roiCheck s.cfg x y w h with
    | error c => exact .inl ⟨c, rfl⟩
    | ok f =>
      obtain ⟨c₁, t, e₁, h1, h2, h3, h4, -⟩ :=
        command_spec (paramFrame s.cfg.opParam 0x0A s.cfg.slotRoi (roiPayload f)) s.cfg.tMedium s
      obtain ⟨c₂, u, e₂, k1, k2, k3, k4, -⟩ := command_spec
        (paramFrame t.cfg.opParam 0x0C s.cfg.slotCopyDst [src.getD s.cfg.copyDefaultSrc]) t.cfg.tMedium t
      refine .inr ⟨.unit, e₁ ++ e₂, ?_⟩
      simp only [checked, copySeq, roiSetOp, copySlotOp, paramCmd, Params.slot, h1, k1]
      rw [h3.cfg] at k2
      refine effect_of_commands (opcodeMap_roi (roiCheck_ok hc) _) (opcodeMap_copy _ _ _) h2
        (by rw [h3.cfg]; exact k2) h3 k3 h4 k4 rfl rfl rfl rfl

/-! ## Construction and teardown (R450, R453) -/

theorem acquireBoth_eq (s : State) : (acquireBoth s).2 = { s with acquires := (acquireBoth s).2.acquires } := by
  unfold acquireBoth
  dsimp only
  split <;> rfl

/-- Everything `CONSTRUCT` can do: refused in `Operational`; else a new instance, operational or failed. -/
theorem exec_construct_cases (s : State) :
    (s.phase = .operational ∧ exec .construct s = .next (refusedWith .fState s)) ∨
      (s.phase ≠ .operational ∧ ∃ a,
        exec .construct s = .next (respond (.bool true) (constructed { s with acquires := a })) ∨
          exec .construct s = .next (respond (.bool false) (newInstance .failed .never { s with acquires := a }))) := by
  by_cases hp : s.phase = .operational
  · exact .inl ⟨hp, by simp only [exec, execConstruct, hp, if_true]; rfl⟩
  · refine .inr ⟨hp, (acquireBoth s).2.acquires, ?_⟩
    simp only [exec, execConstruct, hp, if_false, constructOp]
    by_cases ha : (acquireBoth s).1 = true
    · left
      simp only [ha, if_true]
      rw [← acquireBoth_eq]
    · right
      simp only [ha]
      rw [← acquireBoth_eq]
      rfl

/-- The two instances that `constructed` can give. -/
theorem constructed_cases (s : State) : constructed s = newInstance .operational .never s ∨
    constructed s = newInstance .operational (.time (readClock s).1) (readClock s).2 := by
  unfold constructed
  split
  · exact .inl rfl
  · exact .inr rfl

/-- Everything `TEARDOWN` can do. -/
theorem exec_teardown_cases (s : State) :
    (s.phase ≠ .operational ∧ exec .teardown s = .next (refusedWith .fState s)) ∨
      (s.phase = .operational ∧ exec .teardown s = .next (teardownOp s)) := by
  by_cases hp : s.phase = .operational
  · exact .inr ⟨hp, by simp only [exec, execTeardown, hp, if_true]⟩
  · exact .inl ⟨hp, by simp only [exec, execTeardown, hp, if_false]; rfl⟩

/-! ## Every other request -/

/-- Everything a request that R413 admits can do, in any state: the recorded fault again, a refusal, or its effect. -/
theorem exec_outcomes (i : Instr) (hi : isLifecycle i = false) (s t : State) (h : exec i s = .next t) :
    (∃ c, s.phase = .operational ∧ s.fault = some c ∧ t = answeredWith (.fault c) s) ∨ (∃ c, t = refusedWith c s) ∨
      (Ready s ∧ ∃ r evs, Effect i s t r evs) := by
  obtain ⟨b, hb⟩ := exec_admits i hi s
  rcases admit_cases s b with ⟨hr, -⟩ | ⟨c, hp, hf, e⟩ | ⟨-, e⟩
  · obtain ⟨u, hu, hc⟩ := exec_cases i hi s hr
    rw [hu] at h
    cases h
    exact hc.elim (fun hc => .inr (.inl hc)) fun hc => .inr (.inr ⟨hr, hc⟩)
  · rw [hb, e] at h
    cases h
    exact .inl ⟨c, hp, hf, rfl⟩
  · rw [hb, e] at h
    cases h
    exact .inr (.inl ⟨_, rfl⟩)

end Sys2Proof.Machine
end

