-- ==== Sys2Proof/Laws/Blind.lean ====
section
/-!
SUPPORT. The trace, the last wait's outcome, the past traces and the responses given so far are written but never read by an
operation (R78, R80, R84): run from two states that differ in these alone, it gives the same value, appends the same events
and responses and ends in states that differ in these alone.
-/

namespace Sys2Proof.Machine

/-- `s` with another last wait, trace, past and responses. -/
def veil (lw : Option WaitOutcome) (tr : List Event) (hi : List (List Event)) (rs : List Response) (s : State) : State :=
  { s with lastWait := lw, trace := tr, history := hi, responses := rs }

/-- From `s` to `t` the events `evs` and the responses `rs` were appended, the past traces are as before, and a veiled run
that began with the last wait `lw` ends with `lw'`: the same as the plain run where a wait took place, else `lw` itself. -/
structure Adds (s t : State) (evs : List Event) (rs : List Response) (lw lw' : Option WaitOutcome) : Prop where
  trace : t.trace = s.trace ++ evs
  responses : t.responses = s.responses ++ rs
  history : t.history = s.history
  lastWait : lw' = t.lastWait ∨ lw' = lw ∧ t.lastWait = s.lastWait

theorem adds_refl (s : State) (lw : Option WaitOutcome) : Adds s s [] [] lw lw :=
  ⟨by simp, by simp, rfl, .inr ⟨rfl, rfl⟩⟩

theorem Adds.trans {s t u : State} {e₁ e₂ : List Event} {r₁ r₂ : List Response} {l₁ l₂ l₃ : Option WaitOutcome}
    (h : Adds s t e₁ r₁ l₁ l₂) (k : Adds t u e₂ r₂ l₂ l₃) : Adds s u (e₁ ++ e₂) (r₁ ++ r₂) l₁ l₃ := by
  refine ⟨by rw [k.trace, h.trace, List.append_assoc], by rw [k.responses, h.responses, List.append_assoc],
    k.history.trans h.history, ?_⟩
  rcases k.lastWait with k1 | ⟨k1, k2⟩
  · exact .inl k1
  · rcases h.lastWait with h1 | ⟨h1, h2⟩
    · exact .inl (k1.trans (h1.trans k2.symm))
    · exact .inr ⟨k1.trans h1, k2.trans h2⟩

/-- The operation reads none of the four. -/
def Blind {α : Type} (f : State → α × State) : Prop :=
  ∀ s lw tr hi rs, ∃ lw' evs rs', f (veil lw tr hi rs s) = ((f s).1, veil lw' (tr ++ evs) hi (rs ++ rs') (f s).2) ∧
    Adds s (f s).2 evs rs' lw lw'

/-- The same for an operation that gives no value. -/
def BlindOp (f : State → State) : Prop :=
  ∀ s lw tr hi rs, ∃ lw' evs rs', f (veil lw tr hi rs s) = veil lw' (tr ++ evs) hi (rs ++ rs') (f s) ∧
    Adds s (f s) evs rs' lw lw'

theorem blind_pure {α : Type} (a : α) : Blind fun s => (a, s) :=
  fun s lw _ _ _ => ⟨lw, [], [], by simp, adds_refl s lw⟩

/-- An operation, then what is done with its value. -/
abbrev after {α β : Type} (f : State → α × State) (g : α → State → β) : State → β := fun s => g (f s).1 (f s).2

/-- What is done with a part of the state that is none of the four. -/
abbrev reads {α β : Type} (read : State → α) (f : α → State → β) : State → β := fun s => f (read s) s

theorem blind_after {α β : Type} (f : State → α × State) (g : α → State → β × State) (hf : Blind f)
    (hg : ∀ a, Blind (g a)) : Blind (after f g) := by
  intro s lw tr hi rs
  obtain ⟨lw₁, e₁, r₁, h1, h2⟩ := hf s lw tr hi rs
  obtain ⟨lw₂, e₂, r₂, k1, k2⟩ := hg (f s).1 (f s).2 lw₁ (tr ++ e₁) hi (rs ++ r₁)
  refine ⟨lw₂, e₁ ++ e₂, r₁ ++ r₂, ?_, h2.trans k2⟩
  simp only [after, h1]
  rw [k1, List.append_assoc, List.append_assoc]

theorem blindOp_after {α : Type} (f : State → α × State) (g : α → State → State) (hf : Blind f)
    (hg : ∀ a, BlindOp (g a)) : BlindOp (after f g) := by
  intro s lw tr hi rs
  obtain ⟨lw₁, e₁, r₁, h1, h2⟩ := hf s lw tr hi rs
  obtain ⟨lw₂, e₂, r₂, k1, k2⟩ := hg (f s).1 (f s).2 lw₁ (tr ++ e₁) hi (rs ++ r₁)
  refine ⟨lw₂, e₁ ++ e₂, r₁ ++ r₂, ?_, h2.trans k2⟩
  simp only [after, h1]
  rw [k1, List.append_assoc, List.append_assoc]

theorem blind_then {β : Type} (f : State → State) (g : State → β × State) (hf : BlindOp f) (hg : Blind g) :
    Blind fun s => g (f s) := by
  intro s lw tr hi rs
  obtain ⟨lw₁, e₁, r₁, h1, h2⟩ := hf s lw tr hi rs
  obtain ⟨lw₂, e₂, r₂, k1, k2⟩ := hg (f s) lw₁ (tr ++ e₁) hi (rs ++ r₁)
  refine ⟨lw₂, e₁ ++ e₂, r₁ ++ r₂, ?_, h2.trans k2⟩
  simp only [h1]
  rw [k1, List.append_assoc, List.append_assoc]

theorem blindOp_then (f g : State → State) (hf : BlindOp f) (hg : BlindOp g) : BlindOp fun s => g (f s) := by
  intro s lw tr hi rs
  obtain ⟨lw₁, e₁, r₁, h1, h2⟩ := hf s lw tr hi rs
  obtain ⟨lw₂, e₂, r₂, k1, k2⟩ := hg (f s) lw₁ (tr ++ e₁) hi (rs ++ r₁)
  refine ⟨lw₂, e₁ ++ e₂, r₁ ++ r₂, ?_, h2.trans k2⟩
  simp only [h1]
  rw [k1, List.append_assoc, List.append_assoc]

theorem blind_reads {α β : Type} (read : State → β) (f : β → State → α × State)
    (hr : ∀ s lw tr hi rs, read (veil lw tr hi rs s) = read s) (hf : ∀ b, Blind (f b)) : Blind (reads read f) := by
  intro s lw tr hi rs
  obtain ⟨lw', e, r, h1, h2⟩ := hf (read s) s lw tr hi rs
  exact ⟨lw', e, r, by simp only [reads, hr]; exact h1, h2⟩

theorem blindOp_reads {β : Type} (read : State → β) (f : β → State → State)
    (hr : ∀ s lw tr hi rs, read (veil lw tr hi rs s) = read s) (hf : ∀ b, BlindOp (f b)) : BlindOp (reads read f) := by
  intro s lw tr hi rs
  obtain ⟨lw', e, r, h1, h2⟩ := hf (read s) s lw tr hi rs
  exact ⟨lw', e, r, by simp only [reads, hr]; exact h1, h2⟩

/-- Operations that read the parameters. -/
theorem blind_cfg {α : Type} (f : Params → State → α × State) (hf : ∀ p, Blind (f p)) : Blind (reads State.cfg f) :=
  blind_reads State.cfg f (fun _ _ _ _ _ => rfl) hf

theorem blindOp_cfg (f : Params → State → State) (hf : ∀ p, BlindOp (f p)) : BlindOp (reads State.cfg f) :=
  blindOp_reads State.cfg f (fun _ _ _ _ _ => rfl) hf

theorem blindOp_of_blind {α : Type} (f : State → α × State) (hf : Blind f) : BlindOp fun s => (f s).2 :=
  blindOp_after f (fun _ s => s) hf fun _ s lw _ _ _ => ⟨lw, [], [], by simp, adds_refl s lw⟩

theorem blind_of_blindOp {α : Type} (f : State → State) (a : α) (hf : BlindOp f) : Blind fun s => (a, f s) :=
  blind_then f (fun s => (a, s)) hf (blind_pure a)

/-! ## Primitives -/

theorem blind_send (tx : List Byte) : BlindOp (send tx) := fun _ lw _ _ _ =>
  ⟨lw, [.txn .send tx []], [], by simp [send, veil, deassertSelect, assertSelect], rfl, by simp, rfl, .inr ⟨rfl, rfl⟩⟩

theorem blind_exchange (tx : List Byte) : Blind (exchange tx) := fun s lw _ _ _ =>
  ⟨lw, [.txn .exchange tx (exchange tx s).1], [], by simp [exchange, veil, deassertSelect, assertSelect], rfl, by simp, rfl, .inr ⟨rfl, rfl⟩⟩

theorem blind_sample : Blind sample := fun s lw _ _ _ =>
  ⟨lw, [.pinRead .busy (sample s).1], [], by simp [sample, veil], rfl, by simp, rfl, .inr ⟨rfl, rfl⟩⟩

theorem blind_readClock : Blind readClock := fun _ lw _ _ _ =>
  ⟨lw, [], [], by simp [readClock, veil], by simp [readClock], by simp [readClock], rfl, .inr ⟨rfl, rfl⟩⟩

theorem blind_sleepFor (d : Nat) : BlindOp (sleepFor d) := fun _ lw _ _ _ =>
  ⟨lw, [.slept d], [], by simp [sleepFor, emit, veil], rfl, by simp, rfl, .inr ⟨rfl, rfl⟩⟩

theorem blind_logEvent (k : LogKind) : BlindOp (logEvent k) := fun _ lw _ _ _ =>
  ⟨lw, [.log k], [], by simp [logEvent, emit, veil], rfl, by simp, rfl, .inr ⟨rfl, rfl⟩⟩

theorem blind_respond (r : Response) : BlindOp (respond r) := fun _ lw _ _ _ =>
  ⟨lw, [], [r], by simp [respond, veil], by simp [respond], rfl, rfl, .inr ⟨rfl, rfl⟩⟩

theorem blind_raise (c : FaultCode) : BlindOp (raise c) := fun _ lw _ _ _ =>
  ⟨lw, [], [.fault c], by simp [raise, respond, veil], by simp [raise, respond], rfl, rfl, .inr ⟨rfl, rfl⟩⟩

/-- A write of a field that is none of the four. -/
theorem blind_write (f : State → State) (h : ∀ s lw tr hi rs, f (veil lw tr hi rs s) = veil lw tr hi rs (f s))
    (ha : ∀ s lw, Adds s (f s) [] [] lw lw) : BlindOp f :=
  fun s lw _ _ _ => ⟨lw, [], [], by rw [h, List.append_nil, List.append_nil], ha s lw⟩

/-- A branch on a value that does not depend on the state. -/
theorem blind_ite {α : Type} (c : Prop) [Decidable c] (f g : State → α × State) (hf : Blind f) (hg : Blind g) :
    Blind fun s => if c then f s else g s := by
  by_cases hc : c
  · simpa [hc] using hf
  · simpa [hc] using hg

theorem blindOp_ite (c : Prop) [Decidable c] (f g : State → State) (hf : BlindOp f) (hg : BlindOp g) :
    BlindOp fun s => if c then f s else g s := by
  by_cases hc : c
  · simpa [hc] using hf
  · simpa [hc] using hg

theorem blindOp_id : BlindOp fun s => s := blindOp_of_blind _ (blind_pure ())

/-! ## Operations -/

theorem blind_waitCleared : BlindOp waitCleared := fun _ _ _ _ _ =>
  ⟨some .cleared, [], [], by simp [waitCleared, veil], by simp [waitCleared], by simp [waitCleared], rfl, .inl rfl⟩

theorem blind_waitTimedOut : BlindOp waitTimedOut := fun _ _ _ _ _ =>
  ⟨some .timedOut, [.log .waitTimeout], [], by simp [waitTimedOut, logEvent, emit, veil], rfl, by simp [waitTimedOut], rfl, .inl rfl⟩

theorem blind_waitLoop (T start : Nat) : ∀ n, Blind (waitLoop T start n)
  | 0 => blind_of_blindOp _ WaitOutcome.timedOut blind_waitTimedOut
  | n + 1 =>
    blind_cfg
      (fun p => after sample fun l u => if lineActive p l = true then
        after readClock (fun t v => if t - start ≥ T then (WaitOutcome.timedOut, waitTimedOut v)
          else waitLoop T start n (sleepFor p.tPoll v)) u
        else (WaitOutcome.cleared, waitCleared u))
      fun p => blind_after _ _ blind_sample fun _ =>
        blind_ite _ _ _
          (blind_after _ _ blind_readClock fun _ =>
            blind_ite _ _ _ (blind_of_blindOp _ _ blind_waitTimedOut)
              (blind_then _ _ (blind_sleepFor p.tPoll) (blind_waitLoop T start n)))
          (blind_of_blindOp _ _ blind_waitCleared)

theorem blind_waitForBusy (T : Nat) : Blind (waitForBusy T) :=
  blind_after readClock (fun start => waitLoop T start (T + 1)) blind_readClock fun start =>
    blind_waitLoop T start (T + 1)

theorem blind_wait (T : Nat) : BlindOp fun s => (waitForBusy T s).2 := blindOp_of_blind _ (blind_waitForBusy T)

theorem blind_isBusyQuery : Blind isBusyQuery :=
  blind_reads (fun s => (s.cfg, s.lastUpdate))
    (fun x => after readClock fun t => after sample fun l u => (busyAnswer x.1 x.2 t l, u)) (fun _ _ _ _ _ => rfl)
    fun _ => blind_after _ _ blind_readClock fun _ => blind_after _ _ blind_sample fun _ => blind_pure _

theorem blind_freeLoop : ∀ n, BlindOp (freeLoop n)
  | 0 => blindOp_id
  | n + 1 =>
    blindOp_cfg
      (fun p => after isBusyQuery fun b u => if b = true then freeLoop n (sleepFor p.tFreeSleep u) else u)
      fun p => blindOp_after _ _ blind_isBusyQuery fun _ =>
        blindOp_ite _ _ _ (blindOp_then _ _ (blind_sleepFor p.tFreeSleep) (blind_freeLoop n)) blindOp_id

theorem blind_waitUntilFree : BlindOp waitUntilFree :=
  blindOp_cfg (fun p s => reads freeBound freeLoop (waitForBusy p.tLong s).2) fun p =>
    blindOp_then _ (reads freeBound freeLoop) (blind_wait p.tLong)
      (blindOp_reads freeBound freeLoop (fun _ _ _ _ _ => rfl) blind_freeLoop)

theorem blind_statusEnd (c : StatusClass) : BlindOp (statusEnd c) :=
  blindOp_ite (c = .success) (fun s => s) (logEvent .statusFail) blindOp_id (blind_logEvent _)

theorem blind_statusLoop : ∀ n, Blind (statusLoop n)
  | 0 => blind_of_blindOp _ StatusClass.generic (blind_logEvent _)
  | n + 1 =>
    blind_after (exchange statusFrame)
      (fun rx s => match answered (classifyPair (rx.getD 0 0) (rx.getD 1 0)) with
        | some c => (c, statusEnd c s)
        | none => statusLoop n s)
      (blind_exchange statusFrame) fun rx => by
        cases answered (classifyPair (rx.getD 0 0) (rx.getD 1 0)) with
        | none => exact blind_statusLoop n
        | some c => exact blind_of_blindOp _ c (blind_statusEnd c)

theorem blind_statusReadOp : Blind statusReadOp := blind_statusLoop 3

/-- A frame and its wait. -/
theorem blind_sendWait (frame : List Byte) (T : Nat) : BlindOp fun s => (waitForBusy T (send frame s)).2 :=
  blindOp_then (send frame) (fun s => (waitForBusy T s).2) (blind_send frame) (blind_wait T)

/-- A frame, its wait and its status read. -/
theorem blind_command (frame : List Byte) (T : Nat) : Blind fun s => statusReadOp (waitForBusy T (send frame s)).2 :=
  blind_then (fun s => (waitForBusy T (send frame s)).2) statusReadOp (blind_sendWait frame T) blind_statusReadOp

theorem blind_paramCmd (sub slot : Byte) (payload : List Byte) (T : Nat) : Blind (paramCmd sub slot payload T) :=
  blind_cfg (fun p s => statusReadOp (waitForBusy T (send (paramFrame p.opParam sub slot payload) s)).2) fun _ =>
    blind_command _ T

theorem blind_eraseOp (slot : Byte) : BlindOp (eraseOp slot) :=
  blindOp_cfg (fun p s => (waitForBusy p.tLong (send (simpleFrame 0x20 0x0E slot) s)).2) fun p => blind_sendWait _ p.tLong

theorem blind_stampUpdate : BlindOp stampUpdate :=
  blindOp_after readClock (fun t s => { s with lastUpdate := .time t }) blind_readClock fun _ =>
    blind_write _ (fun _ _ _ _ _ => rfl) fun _ _ => ⟨by simp, by simp, rfl, .inr ⟨rfl, rfl⟩⟩

theorem blind_updateCmd (op slot : Byte) : BlindOp (updateCmd op slot) :=
  blindOp_cfg (fun p s => (waitForBusy p.tLong (stampUpdate (send (simpleFrame op 0x01 slot) s))).2) fun p =>
    blindOp_then (fun s => stampUpdate (send (simpleFrame op 0x01 slot) s)) (fun s => (waitForBusy p.tLong s).2)
      (blindOp_then (send (simpleFrame op 0x01 slot)) stampUpdate (blind_send _) blind_stampUpdate) (blind_wait p.tLong)

theorem blind_param (sub slot : Byte) (payload : List Byte) (T : Params → Nat) :
    BlindOp fun s => (paramCmd sub slot payload (T s.cfg) s).2 :=
  blindOp_cfg (fun p s => (paramCmd sub slot payload (T p) s).2) fun p => blindOp_of_blind _ (blind_paramCmd _ _ _ (T p))

theorem blind_roiSetOp (slot : Byte) (f : Nat × Nat × Nat × Nat) : BlindOp (roiSetOp slot f) :=
  blind_param 0x0A slot (roiPayload f) Params.tMedium

theorem blind_fillValOp (slot v : Byte) : BlindOp (fillValOp slot v) := blind_param 0x0B slot [v] Params.tMedium

theorem blind_copySlotOp (slot src : Byte) : BlindOp (copySlotOp slot src) := blind_param 0x0C slot [src] Params.tMedium

theorem blind_dpResetOp (slot : Byte) : Blind (dpResetOp slot) :=
  blind_cfg (fun p => paramCmd 0x0D slot [] p.tLong) fun p => blind_paramCmd _ _ _ p.tLong

theorem blind_imgPktLoop (frame : List Byte) : ∀ n, Blind (imgPktLoop frame n)
  | 0 => blind_of_blindOp _ false (blind_logEvent _)
  | n + 1 =>
    blind_cfg
      (fun p => after (fun s => statusReadOp (waitForBusy p.tShort (send frame s)).2) fun c u =>
        if c = .success then (true, u) else imgPktLoop frame n u)
      fun p => blind_after _ _ (blind_command frame p.tShort) fun _ =>
        blind_ite _ _ _ (blind_pure true) (blind_imgPktLoop frame n)

theorem blind_imgPktOp (init : Byte) (payload : List Byte) : Blind (imgPktOp init payload) := blind_imgPktLoop _ 4

theorem blind_imgPktSeq (payload : List Byte) : Blind (imgPktSeq payload) :=
  blind_reads nextInitByte (fun b => after (imgPktOp b payload) fun ok u => (ok, { u with initXfer := true }))
    (fun _ _ _ _ _ => rfl) fun b => blind_after _ _ (blind_imgPktOp b payload) fun ok =>
      blind_of_blindOp (fun u => { u with initXfer := true }) ok
        (blind_write _ (fun _ _ _ _ _ => rfl) fun _ _ => ⟨by simp, by simp, rfl, .inr ⟨rfl, rfl⟩⟩)

theorem blind_sendPacketList (data : List Byte) (acc : Accum) : ∀ l res, Blind (sendPacketList data acc l res)
  | [], res => blind_pure res
  | (off, n) :: rest, res =>
    blind_after (imgPktSeq (slice data off n)) (fun ok => sendPacketList data acc rest (accumulate acc res ok))
      (blind_imgPktSeq (slice data off n)) fun _ => blind_sendPacketList data acc rest _

theorem blind_sendPackets (data : List Byte) (plen : Nat) (acc : Accum) : Blind (sendPackets data plen acc) :=
  blind_sendPacketList _ _ _ _

theorem blind_dpResetLoop : ∀ n, Blind (dpResetLoop n)
  | 0 => blind_of_blindOp _ false (blind_logEvent _)
  | n + 1 =>
    blind_cfg
      (fun p => after (dpResetOp (p.slot .dpReset)) fun c u => if c = .success then (true, u) else dpResetLoop n u)
      fun _ => blind_after _ _ (blind_dpResetOp _) fun _ => blind_ite _ _ _ (blind_pure true) (blind_dpResetLoop n)

theorem blind_sendImageOp (data : List Byte) (plen : Nat) : Blind (sendImageOp data plen) :=
  blind_then (fun s => (dpResetLoop 3 s).2) (sendPackets data plen Config.imageAccum)
    (blindOp_of_blind _ (blind_dpResetLoop 3)) (blind_sendPackets _ _ _)

theorem blind_roiPass (f : Nat × Nat × Nat × Nat) (data : List Byte) (plen : Nat) : Blind (roiPass f data plen) :=
  blind_cfg (fun p s => sendPackets data plen Config.roiAccum (roiSetOp (p.slot .roi) f s)) fun p =>
    blind_then (roiSetOp (p.slot .roi) f) (sendPackets data plen Config.roiAccum) (blind_roiSetOp _ f)
      (blind_sendPackets _ _ _)

theorem blind_sendRoiOp (f : Nat × Nat × Nat × Nat) (data : List Byte) (plen retry : Nat) :
    Blind (sendRoiOp f data plen retry) :=
  blind_after (roiPass f data plen)
    (fun ok u => if ok = false ∧ retry = 0 then roiPass f data plen u else (ok, u)) (blind_roiPass f data plen)
    fun ok => blind_ite _ _ _ (blind_roiPass f data plen) (blind_pure ok)

theorem blind_fillSeq (f : Nat × Nat × Nat × Nat) (white : Bool) : BlindOp (fillSeq f white) :=
  blindOp_cfg (fun p s => fillValOp (p.slot .fill) (fillByte p white) (roiSetOp (p.slot .roi) f s)) fun p =>
    blindOp_then (roiSetOp (p.slot .roi) f) (fillValOp (p.slot .fill) (fillByte p white)) (blind_roiSetOp _ f)
      (blind_fillValOp _ _)

theorem blind_copySeq (f : Nat × Nat × Nat × Nat) (src : Byte) : BlindOp (copySeq f src) :=
  blindOp_cfg (fun p s => copySlotOp (p.slot .copyDst) src (roiSetOp (p.slot .roi) f s)) fun p =>
    blindOp_then (roiSetOp (p.slot .roi) f) (copySlotOp (p.slot .copyDst) src) (blind_roiSetOp _ f)
      (blind_copySlotOp _ _)

/-! ## Admission, checks, responses -/

theorem blind_checked {α : Type} (check : Except FaultCode α) (run : α → State → State) (h : ∀ a, BlindOp (run a)) :
    BlindOp (checked check run) := by
  cases check with
  | error c => exact blind_raise c
  | ok a => exact h a

/-- An operation and its response. -/
theorem blind_answer {α : Type} (f : State → α × State) (r : α → Response) (hf : Blind f) :
    BlindOp fun s => respond (r (f s).1) (f s).2 := blindOp_after f (fun a => respond (r a)) hf fun _ => blind_respond _

theorem blind_unit (f : State → State) (hf : BlindOp f) : BlindOp fun s => respond .unit (f s) :=
  blindOp_then f (respond .unit) hf (blind_respond _)

/-- Admission reads the phase and the recorded fault only. -/
theorem admit_blind (body : State → State) (h : BlindOp body) (s t : State) (lw : Option WaitOutcome)
    (tr : List Event) (hi : List (List Event)) (rs : List Response) (ht : admitted s body = .next t) :
    ∃ lw' evs rs', admitted (veil lw tr hi rs s) body = .next (veil lw' (tr ++ evs) hi (rs ++ rs') t) ∧
      Adds s t evs rs' lw lw' := by
  rcases admit_cases s body with ⟨hr, e⟩ | ⟨c, hp, hf, e⟩ | ⟨hp, e⟩ <;> rw [e] at ht <;> cases ht
  · obtain ⟨lw', evs, rs', h1, h2⟩ := h s lw tr hi rs
    exact ⟨lw', evs, rs', by rw [admit_ready (s := veil lw tr hi rs s) hr, h1], h2⟩
  · obtain ⟨lw', evs, rs', h1, h2⟩ := blind_respond (.fault c) s lw tr hi rs
    exact ⟨lw', evs, rs', by rw [admit_recorded (s := veil lw tr hi rs s) hp hf, h1], h2⟩
  · obtain ⟨lw', evs, rs', h1, h2⟩ := blind_raise .fState s lw tr hi rs
    exact ⟨lw', evs, rs', by rw [admit_wrongPhase (s := veil lw tr hi rs s) hp, h1], h2⟩

/-- The body of every admitted request reads none of the four, and is the same for a veiled state. -/
theorem exec_blind (i : Instr) (hi : isLifecycle i = false) (s : State) :
    ∃ body, BlindOp body ∧ exec i s = admitted s body ∧
      ∀ lw tr hi rs, exec i (veil lw tr hi rs s) = admitted (veil lw tr hi rs s) body := by
  cases i
  case construct => cases hi
  case teardown => cases hi
  all_goals
    simp only [exec, execErase, execUpdFull, execUpdFl, execUpdFlinv, execRoiSet, execFillVal, execCopySlot, execDpReset,
      execImgPkt, execStatusRead, execClassify, execIsBusy, execWaitBusy, execWaitFree, execImgNew, execImgClear,
      execImgComposite, execBisNew, execBisView, execPktSplit, execSendImage, execSendImagePi, execSendImageRoi, execFill,
      execFillRoi, execCopyRoi, execEraseP, execUpdateP, execUpdateFlP, execUpdateFlinvP]
    refine ⟨_, ?_, rfl, fun _ _ _ _ => rfl⟩
  case erase slot => exact blind_unit _ (blind_eraseOp slot)
  case updFull slot =>
    exact blindOp_cfg (fun p s => respond .unit (updateCmd p.opUpdFull slot s))
      fun p => blind_unit _ (blind_updateCmd _ slot)
  case updFl slot =>
    exact blindOp_cfg (fun p s => respond .unit (updateCmd p.opUpdFl slot s))
      fun p => blind_unit _ (blind_updateCmd _ slot)
  case updFlinv slot =>
    exact blindOp_cfg (fun p s => respond .unit (updateCmd p.opUpdFlinv slot s))
      fun p => blind_unit _ (blind_updateCmd _ slot)
  case roiSet slot x y w h => exact blind_checked _ _ fun f => blind_unit _ (blind_roiSetOp slot f)
  case fillVal slot v => exact blind_checked _ _ fun f => blind_unit _ (blind_fillValOp slot f)
  case copySlot slot v => exact blind_unit _ (blind_copySlotOp slot v)
  case dpReset slot => exact blind_unit _ (blindOp_of_blind _ (blind_dpResetOp slot))
  case imgPkt i p => exact blind_checked _ _ fun p => blind_answer _ .bool (blind_imgPktOp i p)
  case statusRead => exact blind_answer _ .status blind_statusReadOp
  case classify => exact blind_respond _
  case isBusy => exact blind_answer _ .bool blind_isBusyQuery
  case waitBusy T => exact blind_answer _ .wait (blind_waitForBusy T)
  case waitFree => exact blind_unit _ blind_waitUntilFree
  case imgNew w h =>
    exact blind_checked _ _ fun _ => blindOp_cfg (fun p => respond (.image (newImage p w h))) fun _ => blind_respond _
  case imgClear => exact blind_respond _
  case imgComposite img bis x y =>
    exact blind_checked _ _ fun _ => blindOp_cfg (fun p => respond (.image (compositeImage p img bis x y)))
      fun _ => blind_respond _
  case bisNew => exact blind_checked _ _ fun _ => blind_respond _
  case bisView => exact blind_respond _
  case pktSplit => exact blind_checked _ _ fun _ => blind_respond _
  case sendImage buf len plen => exact blind_checked _ _ fun d => blind_answer _ .bool (blind_sendImageOp d plen)
  case sendImagePi img =>
    exact blindOp_cfg (fun p s => sendImageBody img.bytes (imageLen img) p.defaultPacketLen s)
      fun p => blind_checked _ _ fun d => blind_answer _ .bool (blind_sendImageOp d _)
  case sendImageRoi => exact blind_checked _ _ fun d => blind_answer _ .bool (blind_sendRoiOp _ _ _ _)
  case fill white => exact blind_checked _ _ fun f => blind_unit _ (blind_fillSeq f white)
  case fillRoi x y w h white => exact blind_checked _ _ fun f => blind_unit _ (blind_fillSeq f white)
  case copyRoi x y w h src =>
    exact blind_checked _ _ fun f => blindOp_cfg (fun p s => respond .unit (copySeq f (src.getD p.copyDefaultSrc) s))
      fun p => blind_unit _ (blind_copySeq f _)
  case eraseP =>
    exact blindOp_cfg (fun p s => respond .unit (eraseOp (p.slot .erase) s)) fun p => blind_unit _ (blind_eraseOp _)
  case updateP =>
    exact blindOp_cfg (fun p s => respond .unit (updateCmd p.opUpdFull (p.slot .update) s))
      fun p => blind_unit _ (blind_updateCmd _ _)
  case updateFlP =>
    exact blindOp_cfg (fun p s => respond .unit (updateCmd p.opUpdFl (p.slot .update) s))
      fun p => blind_unit _ (blind_updateCmd _ _)
  case updateFlinvP =>
    exact blindOp_cfg (fun p s => respond .unit (updateCmd p.opUpdFlinv (p.slot .update) s))
      fun p => blind_unit _ (blind_updateCmd _ _)

end Sys2Proof.Machine
end

