-- ==== Sys2Proof/Laws/Draws.lean ====
section
/-!
SUPPORT. What the primitives do when their next draws are scripted: the statements that fix what the environment answers
follow from these by rewriting.
-/

namespace Sys2Proof.Machine

theorem lineActive_active (p : Params) : lineActive p (activeLevel p) = true := by
  unfold lineActive activeLevel
  cases p.busyActiveHigh <;> rfl

theorem lineActive_inactive (p : Params) : lineActive p (inactiveLevel p) = false := by
  unfold lineActive inactiveLevel
  cases p.busyActiveHigh <;> rfl

/-- A sample whose level is scripted. -/
theorem sample_scripted {s : State} {l : Level} {rest : List Level} (h : s.line.script = l :: rest) :
    (sample s).1 = l ∧ (sample s).2.line.script = rest ∧ Extends s (sample s).2 [.pinRead .busy l] [] := by
  have hl : (sample s).1 = l := by simp [sample, pull, h]
  refine ⟨hl, by simp [sample, pull, h], ?_⟩
  rw [← hl]
  exact extends_sample s

/-- A reading of the clock whose advance is scripted. -/
theorem readClock_scripted {s : State} {d : Nat} {rest : List Nat} (h : s.ticks.script = d :: rest) :
    (readClock s).1 = s.clock + d ∧ (readClock s).2.ticks.script = rest := by
  simp [readClock, pull, h]

/-- A status exchange whose answer is scripted. -/
theorem exchange_scripted {s : State} {a b : Byte} {rest : List Byte} (h : s.panel.script = a :: b :: rest) :
    (exchange statusFrame s).1 = [a, b] ∧ (exchange statusFrame s).2.panel.script = rest ∧
      Extends s (exchange statusFrame s).2 [exchangeEvent (a, b)] [] := by
  have h1 : (exchange statusFrame s).1 = [a, b] := by simp [exchange, statusFrame, pullMany, pull, h]
  refine ⟨h1, by simp [exchange, statusFrame, pullMany, pull, h, deassertSelect], ?_⟩
  have e := extends_exchange statusFrame s
  rw [h1] at e
  exact e

/-- A status read that is answered with not-ready reads again (R272). -/
theorem statusLoop_notReady {n : Nat} {s : State} {a b : Byte} {rest : List Byte} (h : s.panel.script = a :: b :: rest)
    (hc : classifyPair a b = .notReady) : statusLoop (n + 1) s = statusLoop n (exchange statusFrame s).2 := by
  simp [statusLoop, (exchange_scripted h).1, hc, answered]

/-- A status read that is answered with anything else ends (R272). -/
theorem statusLoop_answered {n : Nat} {s : State} {a b : Byte} {c : StatusClass} {rest : List Byte}
    (h : s.panel.script = a :: b :: rest) (hc : answered (classifyPair a b) = some c) :
    statusLoop (n + 1) s = (c, statusEnd c (exchange statusFrame s).2) := by
  simp [statusLoop, (exchange_scripted h).1, hc]

theorem extends_statusEnd (c : StatusClass) (s : State) : Extends s (statusEnd c s) (statusLog c) [] := by
  unfold statusEnd statusLog
  split
  · exact extends_refl s
  · exact extends_logEvent _ s

@[simp] theorem statusEnd_panel (c : StatusClass) (s : State) : (statusEnd c s).panel = s.panel := by
  unfold statusEnd
  split <;> rfl

@[simp] theorem statusEnd_line (c : StatusClass) (s : State) : (statusEnd c s).line = s.line := by
  unfold statusEnd
  split <;> rfl

/-- The iterations of a wait whose samples are scripted active and whose readings, scripted by the advances `ds`, come before
the deadline: one poll each, and the wait goes on (R295). -/
theorem waitLoop_polls (T start : Nat) : ∀ (ds : List Nat) (n : Nat) (s : State) (ls : List Level) (ts : List Nat),
    s.line.script = List.replicate ds.length (activeLevel s.cfg) ++ ls → s.ticks.script = ds ++ ts →
    start ≤ s.clock → (∀ k, k < ds.length → s.clock + (ds.take (k + 1)).sum + k * s.cfg.tPoll < start + T) →
    ∃ u, waitLoop T start (n + ds.length) s = waitLoop T start n u ∧ Extends s u (polls s.cfg ds.length) [] ∧
      u.clock = s.clock + ds.sum + ds.length * s.cfg.tPoll ∧ u.line.script = ls ∧ u.ticks.script = ts := by
  intro ds
  induction ds with
  | nil =>
    intro n s ls ts hl ht _ _
    exact ⟨s, rfl, extends_refl s, by simp, by simpa using hl, by simpa using ht⟩
  | cons d ds ih =>
    intro n s ls ts hl ht hs hd
    obtain ⟨h1, h2, h3⟩ := sample_scripted (l := activeLevel s.cfg)
      (rest := List.replicate ds.length (activeLevel s.cfg) ++ ls) (by rw [hl, List.length_cons, List.replicate_succ]; rfl)
    obtain ⟨k1, k2⟩ := readClock_scripted (s := (sample s).2) (d := d) (rest := ds ++ ts) ht
    have h0 : s.clock + d < start + T := by simpa using hd 0 (by simp)
    obtain ⟨u, m1, m2, m3, m4, m5⟩ := ih n (sleepFor s.cfg.tPoll (readClock (sample s).2).2) ls ts h2 k2
      (by simp only [sleepFor_clock, readClock_clock, k1, sample_clock]; omega) (by
      intro k hk
      have := hd (k + 1) (by simpa using hk)
      simp only [List.take_succ_cons, List.sum_cons, Nat.add_mul] at this
      simp only [sleepFor_clock, sleepFor_cfg, readClock_clock, readClock_cfg, sample_cfg, k1, sample_clock]
      omega)
    refine ⟨u, ?_, ?_, ?_, m4, m5⟩
    · rw [← m1, List.length_cons, ← Nat.add_assoc, waitLoop]
      simp only [h1, lineActive_active, if_true, k1, sample_clock]
      rw [if_neg (by omega)]
    · simpa [polls] using ((h3.andThen (extends_readClock _)).andThen
        (extends_sleepFor s.cfg.tPoll (readClock (sample s).2).2)).andThen m2
    · simp only [m3, sleepFor_clock, sleepFor_cfg, readClock_clock, readClock_cfg, sample_cfg, k1, sample_clock,
        List.sum_cons, List.length_cons, Nat.add_mul]
      omega

/-- A wait whose first sample is scripted inactive clears at once (R295). -/
theorem waitForBusy_cleared {T : Nat} {s : State} {rest : List Level} (h : s.line.script = inactiveLevel s.cfg :: rest) :
    waitForBusy T s = (.cleared, waitCleared (sample (readClock s).2).2) := by
  have h' : (readClock s).2.line.script = inactiveLevel (readClock s).2.cfg :: rest := h
  simp only [waitForBusy, waitLoop, (sample_scripted h').1, lineActive_inactive]
  rfl

end Sys2Proof.Machine
end

