-- ==== Sys2Proof/Laws/PerInstr.lean ====
section
/-!
SUPPORT. Statements about every instruction as syntax, one lemma per constructor. FrameWidth: an instruction's frame has
one of the widths of 20_memory.md R120, and the fourth byte of a longer frame is its payload's byte count (R155, R156).
-/

namespace Sys2Proof.Laws.FrameWidth

/-- The widths of R120, and what the length byte holds (R156). -/
def Fits (f : List Byte) : Prop :=
  f.length = 2 ∨ f.length = 3 ∨ (4 ≤ f.length ∧ f.length ≤ 259 ∧ (f.getD 3 0).toNat = f.length - 4)

/-- The frame of `i`, where it has one, fits. -/
def Statement (i : Instr) : Prop := ∀ (p : Params) (f : List Byte), encode p i = some f → Fits f

theorem fits_simple (op sub slot : Byte) : Fits (simpleFrame op sub slot) := .inr (.inl rfl)

theorem fits_counted (a b c : Byte) (payload : List Byte) (h : payload.length ≤ 255) :
    Fits ([a, b, c, BitVec.ofNat 8 payload.length] ++ payload) := by
  refine .inr (.inr ⟨by simp, by simp; omega, ?_⟩)
  simp
  omega

theorem erase (slot : Byte) : Statement (.erase slot) := fun _ _ h => Option.some.inj h ▸ fits_simple _ _ _

theorem updFull (slot : Byte) : Statement (.updFull slot) := fun _ _ h => Option.some.inj h ▸ fits_simple _ _ _

theorem updFl (slot : Byte) : Statement (.updFl slot) := fun _ _ h => Option.some.inj h ▸ fits_simple _ _ _

theorem updFlinv (slot : Byte) : Statement (.updFlinv slot) := fun _ _ h => Option.some.inj h ▸ fits_simple _ _ _

theorem roiSet (slot : Byte) (x : Nat) (y : Nat) (w : Nat) (h : Nat) : Statement (.roiSet slot x y w h) := by
  intro p f hf
  simp only [encode] at hf
  cases hr : roiFields p x y w h with
  | none => rw [hr] at hf; exact absurd hf (by simp)
  | some g =>
    rw [hr] at hf
    obtain ⟨a, b, c, d⟩ := g
    exact Option.some.inj hf ▸ fits_counted _ _ _ (roiPayload (a, b, c, d)) (by simp [roiPayload, be16])

theorem fillVal (slot : Byte) (v : Byte) : Statement (.fillVal slot v) := by
  intro p f h
  simp only [encode] at h
  split at h
  · exact Option.some.inj h ▸ fits_counted _ _ _ [v] (by simp)
  · exact absurd h (by simp)

theorem copySlot (slot : Byte) (src : Byte) : Statement (.copySlot slot src) := fun _ _ h => Option.some.inj h ▸ fits_counted _ _ _ [src] (by simp)

theorem dpReset (slot : Byte) : Statement (.dpReset slot) := fun _ _ h => Option.some.inj h ▸ fits_counted _ _ _ [] (by decide)

theorem imgPkt (init : Byte) (payload : List Byte) : Statement (.imgPkt init payload) := by
  intro p f h
  simp only [encode] at h
  split at h
  · rename_i hl
    exact Option.some.inj h ▸ fits_counted _ _ _ payload hl
  · exact absurd h (by simp)

theorem statusRead : Statement .statusRead := fun _ _ h => Option.some.inj h ▸ .inl rfl

theorem classify (b0 : Byte) (b1 : Byte) : Statement (.classify b0 b1) := fun _ _ h => absurd h (by simp [encode])

theorem isBusy : Statement .isBusy := fun _ _ h => absurd h (by simp [encode])

theorem waitBusy (t : Nat) : Statement (.waitBusy t) := fun _ _ h => absurd h (by simp [encode])

theorem waitFree : Statement .waitFree := fun _ _ h => absurd h (by simp [encode])

theorem imgNew (w : Nat) (h : Nat) : Statement (.imgNew w h) := fun _ _ h => absurd h (by simp [encode])

theorem imgClear (img : PanelImage) (white : Bool) : Statement (.imgClear img white) := fun _ _ h => absurd h (by simp [encode])

theorem imgComposite (img : PanelImage) (bis : Bis) (x : Nat) (y : Nat) : Statement (.imgComposite img bis x y) := fun _ _ h => absurd h (by simp [encode])

theorem bisNew (w : Nat) (h : Nat) (raw : List Byte) : Statement (.bisNew w h raw) := fun _ _ h => absurd h (by simp [encode])

theorem bisView (bis : Bis) (which : View) : Statement (.bisView bis which) := fun _ _ h => absurd h (by simp [encode])

theorem pktSplit (len : Nat) (plen : Nat) : Statement (.pktSplit len plen) := fun _ _ h => absurd h (by simp [encode])

theorem construct : Statement .construct := fun _ _ h => absurd h (by simp [encode])

theorem teardown : Statement .teardown := fun _ _ h => absurd h (by simp [encode])

theorem sendImage (buf : Buffer) (len : Nat) (plen : Nat) : Statement (.sendImage buf len plen) := fun _ _ h => absurd h (by simp [encode])

theorem sendImagePi (img : PanelImage) : Statement (.sendImagePi img) := fun _ _ h => absurd h (by simp [encode])

theorem sendImageRoi (buf : Buffer) (x : Nat) (y : Nat) (w : Nat) (h : Nat) (retry : Nat) : Statement (.sendImageRoi buf x y w h retry) := fun _ _ h => absurd h (by simp [encode])

theorem fill (white : Bool) : Statement (.fill white) := fun _ _ h => absurd h (by simp [encode])

theorem fillRoi (x : Nat) (y : Nat) (w : Nat) (h : Nat) (white : Bool) : Statement (.fillRoi x y w h white) := fun _ _ h => absurd h (by simp [encode])

theorem copyRoi (x : Nat) (y : Nat) (w : Nat) (h : Nat) (src : Option Byte) : Statement (.copyRoi x y w h src) := fun _ _ h => absurd h (by simp [encode])

theorem eraseP : Statement .eraseP := fun _ _ h => absurd h (by simp [encode])

theorem updateP : Statement .updateP := fun _ _ h => absurd h (by simp [encode])

theorem updateFlP : Statement .updateFlP := fun _ _ h => absurd h (by simp [encode])

theorem updateFlinvP : Statement .updateFlinvP := fun _ _ h => absurd h (by simp [encode])

end Sys2Proof.Laws.FrameWidth
end

