-- ==== Sys2Proof/Tests/Slice0.lean ====
section
/-!
SUPPORT. Tests. Expected results come from 95_test_vectors.md (its vectors V1.x, V2.x and programs P1 to P5, named in each
docstring) or from the rules by hand. Every draw a test takes is scripted, so that no free value enters. The last section
gives, for every statement with hypotheses, values that meet them together.
-/

namespace Sys2Proof.Tests

open Sys2Proof Sys2Proof.Machine

/-- The test configuration of 95_test_vectors.md section 0, with PP = 0x30, UU = 0x40, LL = 0x41, II = 0x42. -/
def cfg : Params :=
  { panelW := 400, panelH := 300, roiClampH := 300, defaultPacketLen := 250, opParam := 0x30, opUpdFull := 0x40,
    opUpdFl := 0x41, opUpdFlinv := 0x42, tShort := 50, tMedium := 200, tLong := 1000, tGuard := 100, tCap := 500,
    tPoll := 10, tFreeSleep := 20, tsReset := .never, busyActiveHigh := true, busyPinUsed := true, roiInclusive := false,
    fillInvert := false, compositeView := .normal }

/-- The same with inclusive ROI fields. -/
def cfgInc : Params := { cfg with roiInclusive := true }

/-- The same with P_OP_PARAM = 0x20, the opcode byte of the image packet. -/
def cfg20 : Params := { cfg with opParam := 0x20 }

/-- The reset state under the test configuration, with an exact-sleep clock, the line at the given levels and the panel
answering the given bytes. -/
def at' (p : Params) (t : Nat) (last : Stamp) (ls : List Level) (bs : List Byte) : State :=
  { State.reset with
    cfg := p, clock := t, lastUpdate := last, line := ⟨ls, 0⟩, panel := ⟨bs, 0⟩, ticks := ⟨List.replicate 24 0, 0⟩,
    acquires := ⟨[true, true], 0⟩ }

/-- The panel answers `90 00` to `n` exchanges. -/
def oks : Nat → List Byte
  | 0 => []
  | n + 1 => 0x90 :: 0x00 :: oks n

/-- Line low, every status `90 00`, clock 0, no update yet. -/
def base : State := at' cfg 0 .never (List.replicate 24 .low) (oks 24)

/-- The same with inclusive ROI fields. -/
def baseInc : State := at' cfgInc 0 .never (List.replicate 24 .low) (oks 24)

/-- The state before the first construction, both collaborators available. -/
def unbuilt : State := { base with phase := .unconstructed }

/-- An operational state with a recorded fault. -/
def faulted : State := { base with fault := some .fLen }

/-- The next state, where there is one. -/
def next (i : Instr) (s : State) : Option State :=
  match exec i s with
  | .next t => some t
  | _ => none

/-- The response and the events of one request. -/
def run (i : Instr) (s : State) : Option (List Response × List Event) :=
  (next i s).map fun t => (t.responses, t.trace)

/-- The response of one request. -/
def answer (i : Instr) (s : State) : Option (List Response) := (next i s).map State.responses

def s' (tx : List Byte) : Event := .txn .send tx []
def x' (a b : Byte) : Event := .txn .exchange [0x00, 0x00] [a, b]
def lo : Event := .pinRead .busy .low
def hi : Event := .pinRead .busy .high

/-- A written buffer. -/
def buf (l : List Byte) : Buffer := l.map writtenByte

/-- A 16x1 image with a header of zeros and both pixel bytes black. -/
def black16 : PanelImage := ⟨16, 1, buf (List.replicate 18 0x00)⟩

/-- A header of zeros and one pixel byte that was never written. -/
def fresh8 : PanelImage := ⟨8, 1, buf (List.replicate 16 0x00) ++ [unwrittenByte]⟩

/-- `BIS_NEW 8, 1, [0x01]`. -/
def bis01 : Bis := ⟨8, 1, [0x80], [0x7F]⟩

/-! ## Well-formed requests: each check refuses an ill-formed term -/

theorem test_wf_image : black16.wf = true ∧ fresh8.wf = true := by decide
theorem test_wf_image_width : (⟨65536, 0, buf (List.replicate 16 0)⟩ : PanelImage).wf = false := by decide
theorem test_wf_image_height : (⟨0, 65536, buf (List.replicate 16 0)⟩ : PanelImage).wf = false := by decide
theorem test_wf_image_pixels : (⟨3, 3, buf (List.replicate 17 0)⟩ : PanelImage).wf = false := by decide
theorem test_wf_image_length : (⟨16, 1, buf (List.replicate 17 0)⟩ : PanelImage).wf = false := by decide
theorem test_wf_image_header : (⟨0, 5, unwrittenByte :: buf (List.replicate 15 0)⟩ : PanelImage).wf = false := by decide
theorem test_wf_image_canonical : (⟨8, 1, buf (List.replicate 16 0) ++ [⟨1, 0⟩]⟩ : PanelImage).wf = false := by decide
theorem test_wf_bis : bis01.wf = true := by decide
theorem test_wf_bis_pixels : (⟨3, 3, [0x80], [0x7F]⟩ : Bis).wf = false := by decide
theorem test_wf_bis_length : (⟨8, 1, [], []⟩ : Bis).wf = false := by decide
theorem test_wf_bis_complement : (⟨8, 1, [0x80], [0x80]⟩ : Bis).wf = false := by decide
theorem test_wf_buffer : bufferWf [⟨0x81, 0x81⟩] = true ∧ bufferWf [⟨0x81, 0x80⟩] = false := by decide
theorem test_wf_operands :
    (Instr.imgClear fresh8 true).wf = true ∧ (Instr.imgClear ⟨3, 3, []⟩ true).wf = false ∧
      (Instr.imgComposite black16 ⟨8, 1, [], []⟩ 0 0).wf = false ∧ (Instr.imgComposite ⟨3, 3, []⟩ bis01 0 0).wf = false ∧
      (Instr.bisView ⟨8, 1, [], []⟩ .normal).wf = false ∧ (Instr.sendImage [⟨1, 0⟩] 0 1).wf = false ∧
      (Instr.sendImagePi ⟨3, 3, []⟩).wf = false ∧ (Instr.sendImageRoi [⟨1, 0⟩] 0 0 1 1 0).wf = false := by decide

/-! ## Decoding: words written out from 30_encoding.md R158 and the vectors -/

/-- R151, R158: `ERASE slot` is 00100000 00001110 ssssssss. -/
theorem test_decode_erase : decode cfg [0b00100000, 0b00001110, 0b10100101] = .ok (.erase 0xA5) := by decide
/-- R158: the update commands are oooooooo 00000001 ssssssss. -/
theorem test_decode_updates :
    decode cfg [0x40, 0b00000001, 0x81] = .ok (.updFull 0x81) ∧ decode cfg [0x41, 0b00000001, 0x81] = .ok (.updFl 0x81) ∧
      decode cfg [0x42, 0b00000001, 0x81] = .ok (.updFlinv 0x81) := by decide
/-- R152, R159: `ROI_SET`, exclusive and inclusive (V2.24, V2.25). -/
theorem test_decode_roi :
    decode cfg [0x30, 0b00001010, 0x00, 0b00001000, 0x00, 0x0A, 0x00, 0x6E, 0x00, 0x14, 0x00, 0x46] =
        .ok (.roiSet 0x00 10 20 100 50) ∧
      decode cfgInc [0x30, 0b00001010, 0x00, 0b00001000, 0x00, 0x0A, 0x00, 0x6D, 0x00, 0x14, 0x00, 0x45] =
        .ok (.roiSet 0x00 10 20 100 50) := by decide
/-- R160: `FILL_VAL` (V2.30). -/
theorem test_decode_fill : decode cfg [0x30, 0b00001011, 0x00, 0b00000001, 0xFF] = .ok (.fillVal 0x00 0xFF) := by decide
/-- R161: `COPY_SLOT`, target before source. -/
theorem test_decode_copy : decode cfg [0x30, 0b00001100, 0x01, 0b00000001, 0x02] = .ok (.copySlot 0x01 0x02) := by decide
/-- R162: `DP_RESET` (V2.33). -/
theorem test_decode_dpReset : decode cfg [0x30, 0b00001101, 0x07, 0b00000000] = .ok (.dpReset 0x07) := by decide
/-- R153: the image packet (V2.39). -/
theorem test_decode_imgPkt : decode cfg [0b00100000, 0x07, 0x00, 0x01, 0x5A] = .ok (.imgPkt 0x07 [0x5A]) := by decide
/-- R154: the status exchange. -/
theorem test_decode_status : decode cfg [0b00000000, 0b00000000] = .ok .statusRead := by decide
/-- Byte sequences that are no frame of R158, each rejected by its name. -/
theorem test_decode_rejects :
    decode cfg [] = .error .badWidth ∧ decode cfg [0x20] = .error .badWidth ∧
      decode cfg [0x00, 0x01] = .error .badStatusPad ∧ decode cfg [0x20, 0x01, 0x00] = .error .unknownSimple ∧
      decode cfg [0x43, 0x01, 0x00] = .error .unknownSimple ∧ decode cfg [0x20, 0x01, 0x00, 0x01] = .error .badLength ∧
      decode cfg [0x20, 0x01, 0x01, 0x00] = .error .unknownLong ∧
      decode cfg [0x30, 0x0B, 0x00, 0x01, 0x7F] = .error .unknownLong ∧
      decode cfg [0x30, 0x0E, 0x00, 0x00] = .error .unknownLong := by decide
/-- R167: with P_OP_PARAM = 0x20 a coinciding frame is read as the parameterized command (log entry 16). -/
theorem test_decode_coincidence :
    encode cfg20 (.imgPkt 0x0D []) = some [0x20, 0x0D, 0x00, 0x00] ∧
      decode cfg20 [0x20, 0x0D, 0x00, 0x00] = .ok (.dpReset 0x00) := by decide
/-- The rows of the opcode table, by their match: `ERASE`, `DP_RESET`, `IMG_PKT`, `STATUS_READ`, `ROI_SET`. -/
theorem test_table_words :
    decodeTableWord 24 0x200E00 = some (.erase 0x00) ∧ decodeTableWord 32 0x000D0000 = some (.dpReset 0x00) ∧
      decodeTableWord 24 0x200000 = some (.imgPkt 0x00 []) ∧ decodeTableWord 16 0x0000 = some .statusRead ∧
      decodeTableWord 32 0x000A0008 = some (.roiSet 0x00 0 0 1 1) ∧ decodeTableWord 24 0x000200 = none ∧
      decodeTableWord 16 0x0100 = some (.updFull 0x00) ∧ decodeTableWord 0 0 = none := by decide
/-- Words that several rows' masks match: the first row whose frame decodes (log entry 17). -/
theorem test_table_overlaps :
    decodeTableWord 24 0x200100 = some (.imgPkt 0x01 []) ∧ decodeTableWord 24 0x200E00 = some (.erase 0x00) ∧
      decodeTableWord 24 0x010100 = some (.updFl 0x00) ∧ decodeTableWord 24 0x020100 = some (.updFlinv 0x00) ∧
      decodeTableWord 24 0x0D0100 = some (.dpReset 0x01) := by decide
/-- A table word placed at the port runs as the first request after reset. -/
theorem test_table_word_runs :
    step (State.reset.withFetchWord 24 0x200E00) = exec (.erase 0x00) State.reset := rfl

/-! ## Command framer (95_test_vectors.md 2.2) -/

/-- V2.20. -/
theorem test_erase : run (.erase 0x00) base = some ([.unit], [s' [0x20, 0x0E, 0x00], lo]) := by decide
/-- V2.20: the wait's outcome is recorded, the timestamp is not written. -/
theorem test_erase_fields :
    (next (.erase 0x00) base).map (fun t => (t.lastWait, t.lastUpdate, t.cs)) =
      some (some .cleared, .never, .deselected) := by decide
/-- V2.21: the timestamp is the clock after the transaction. -/
theorem test_updFull :
    (next (.updFull 0x00) (at' cfg 1000 .never [.low] [])).map (fun t => (t.responses, t.trace, t.lastUpdate)) =
      some ([.unit], [s' [0x40, 0x01, 0x00], lo], .time 1000) := by decide
/-- V2.22. -/
theorem test_updFl : run (.updFl 0x01) base = some ([.unit], [s' [0x41, 0x01, 0x01], lo]) := by decide
/-- V2.23. -/
theorem test_updFlinv : run (.updFlinv 0x00) base = some ([.unit], [s' [0x42, 0x01, 0x00], lo]) := by decide
/-- V2.24, V2.25. -/
theorem test_roiSet :
    run (.roiSet 0x00 10 20 100 50) base =
        some ([.unit], [s' [0x30, 0x0A, 0x00, 0x08, 0x00, 0x0A, 0x00, 0x6E, 0x00, 0x14, 0x00, 0x46], lo, x' 0x90 0x00]) ∧
      run (.roiSet 0x00 10 20 100 50) baseInc =
        some ([.unit], [s' [0x30, 0x0A, 0x00, 0x08, 0x00, 0x0A, 0x00, 0x6D, 0x00, 0x14, 0x00, 0x45], lo, x' 0x90 0x00]) := by
  decide
/-- V2.26 to V2.29: the largest field, and windows of zero width. -/
theorem test_roiSet_bounds :
    run (.roiSet 0x00 65535 0 1 1) base = some ([.fault .fRange], []) ∧
      run (.roiSet 0x00 65535 0 1 1) baseInc =
        some ([.unit], [s' [0x30, 0x0A, 0x00, 0x08, 0xFF, 0xFF, 0xFF, 0xFF, 0x00, 0x00, 0x00, 0x00], lo, x' 0x90 0x00]) ∧
      run (.roiSet 0x00 5 5 0 3) baseInc = some ([.fault .fRange], []) ∧
      run (.roiSet 0x00 5 5 0 3) base =
        some ([.unit], [s' [0x30, 0x0A, 0x00, 0x08, 0x00, 0x05, 0x00, 0x05, 0x00, 0x05, 0x00, 0x08], lo, x' 0x90 0x00]) := by
  decide
/-- V2.30, V2.31. -/
theorem test_fillVal :
    run (.fillVal 0x00 0xFF) base = some ([.unit], [s' [0x30, 0x0B, 0x00, 0x01, 0xFF], lo, x' 0x90 0x00]) ∧
      run (.fillVal 0x00 0x7F) base = some ([.fault .fValue], []) := by decide
/-- V2.32, with two different slots: the target is byte 2, the source the payload. -/
theorem test_copySlot :
    run (.copySlot 0x01 0x02) base = some ([.unit], [s' [0x30, 0x0C, 0x01, 0x01, 0x02], lo, x' 0x90 0x00]) := by decide
/-- V2.33, V2.34: sent once whatever the status. -/
theorem test_dpReset :
    run (.dpReset 0x00) base = some ([.unit], [s' [0x30, 0x0D, 0x00, 0x00], lo, x' 0x90 0x00]) ∧
      run (.dpReset 0x00) (at' cfg 0 .never [.low] [0x6A, 0x00]) =
        some ([.unit], [s' [0x30, 0x0D, 0x00, 0x00], lo, x' 0x6A 0x00, .log .statusFail]) := by decide
/-- V2.35, V2.39; V2.38: not-ready reads are retried, then the packet. -/
theorem test_imgPkt :
    run (.imgPkt 0x01 []) base = some ([.bool true], [s' [0x20, 0x01, 0x00, 0x00], lo, x' 0x90 0x00]) ∧
      run (.imgPkt 0x07 [0x5A]) base = some ([.bool true], [s' [0x20, 0x07, 0x00, 0x01, 0x5A], lo, x' 0x90 0x00]) ∧
      run (.imgPkt 0x01 [0x5A])
          (at' cfg 0 .never [.low, .low] [0x00, 0x00, 0x00, 0x00, 0x00, 0x00, 0x90, 0x00]) =
        some ([.bool true], [s' [0x20, 0x01, 0x00, 0x01, 0x5A], lo, x' 0x00 0x00, x' 0x00 0x00, x' 0x00 0x00,
          .log .statusFail, s' [0x20, 0x01, 0x00, 0x01, 0x5A], lo, x' 0x90 0x00]) := by decide
/-- V2.37, V2.36: four sends at most, and the length check. -/
theorem test_imgPkt_fails :
    run (.imgPkt 0x01 [0x5A])
        (at' cfg 0 .never [.low, .low, .low, .low] [0x67, 0x00, 0x67, 0x00, 0x67, 0x00, 0x67, 0x00]) =
      some ([.bool false],
        [s' [0x20, 0x01, 0x00, 0x01, 0x5A], lo, x' 0x67 0x00, .log .statusFail,
          s' [0x20, 0x01, 0x00, 0x01, 0x5A], lo, x' 0x67 0x00, .log .statusFail,
          s' [0x20, 0x01, 0x00, 0x01, 0x5A], lo, x' 0x67 0x00, .log .statusFail,
          s' [0x20, 0x01, 0x00, 0x01, 0x5A], lo, x' 0x67 0x00, .log .statusFail, .log .packetFail]) ∧
      payloadCheck (List.replicate 256 0) = .error .fLen ∧
      payloadCheck (List.replicate 255 0) = .ok (List.replicate 255 0) :=
  ⟨by decide, by unfold payloadCheck; rw [List.length_replicate]; rfl, by unfold payloadCheck; rw [List.length_replicate]; rfl⟩

/-! ## Status response decoder (2.3) -/

/-- V2.42 to V2.44. -/
theorem test_statusRead :
    run .statusRead base = some ([.status .success], [x' 0x90 0x00]) ∧
      run .statusRead (at' cfg 0 .never [] [0x00, 0x00, 0x67, 0x00]) =
        some ([.status .errA], [x' 0x00 0x00, x' 0x67 0x00, .log .statusFail]) ∧
      run .statusRead (at' cfg 0 .never [] [0xFF, 0xFF, 0x00, 0x00, 0xFF, 0xFF]) =
        some ([.status .generic], [x' 0xFF 0xFF, x' 0x00 0x00, x' 0xFF 0xFF, .log .statusFail]) := by decide
/-- V2.45, V2.46. -/
theorem test_statusRead_last :
    run .statusRead (at' cfg 0 .never [] [0x00, 0x00, 0xFF, 0xFF, 0x90, 0x00]) =
        some ([.status .success], [x' 0x00 0x00, x' 0xFF 0xFF, x' 0x90 0x00]) ∧
      run .statusRead (at' cfg 0 .never [] [0x12, 0x34]) =
        some ([.status .generic], [x' 0x12 0x34, .log .statusFail]) := by decide
/-- V2.40. -/
theorem test_classify :
    answer (.classify 0x00 0x00) base = some [.raw .notReady] ∧ answer (.classify 0xFF 0xFF) base = some [.raw .notReady] ∧
      answer (.classify 0x90 0x00) base = some [.raw .success] ∧ answer (.classify 0x67 0x00) base = some [.raw .errA] ∧
      answer (.classify 0x6A 0x00) base = some [.raw .errB] := by decide
/-- V2.41. -/
theorem test_classify_generic :
    [(0x90, 0x01), (0x00, 0x90), (0x67, 0xFF), (0x00, 0xFF), (0xFF, 0x00), (0x6A, 0x01)].all
      (fun q => answer (.classify q.1 q.2) base == some [.raw .generic]) = true := by decide

/-! ## Busy and timing (2.4) -/

/-- V2.50 to V2.53: `Never`, the guard interval, its end. -/
theorem test_isBusy :
    run .isBusy (at' cfg 0 .never [.high] []) = some ([.bool false], [hi]) ∧
      run .isBusy (at' cfg 1050 (.time 1000) [.low] []) = some ([.bool true], [lo]) ∧
      run .isBusy (at' cfg 1100 (.time 1000) [.low] []) = some ([.bool false], [lo]) ∧
      run .isBusy (at' cfg 1100 (.time 1000) [.high] []) = some ([.bool true], [hi]) := by decide
/-- V2.54 to V2.56: the cap, also when it is below the guard interval. -/
theorem test_isBusy_cap :
    run .isBusy (at' cfg 1499 (.time 1000) [.high] []) = some ([.bool true], [hi]) ∧
      run .isBusy (at' cfg 1500 (.time 1000) [.high] []) = some ([.bool false], [hi]) ∧
      run .isBusy (at' { cfg with tCap := 50 } 1100 (.time 1000) [.high] []) = some ([.bool false], [hi]) := by decide
/-- V2.57, V2.59. -/
theorem test_waitBusy_timeout :
    run (.waitBusy 25) (at' cfg 0 .never [.high, .high, .high, .high] []) =
        some ([.wait .timedOut], [hi, .slept 10, hi, .slept 10, hi, .slept 10, hi, .log .waitTimeout]) ∧
      run (.waitBusy 0) (at' cfg 0 .never [.high] []) = some ([.wait .timedOut], [hi, .log .waitTimeout]) := by decide
/-- V2.60. -/
theorem test_waitBusy_clears :
    run (.waitBusy 25) (at' cfg 0 .never [.high, .low] []) = some ([.wait .cleared], [hi, .slept 10, lo]) := by decide
/-- V2.61, V2.62: no update, so one query after the wait. -/
theorem test_waitFree :
    run .waitFree base = some ([.unit], [lo, lo]) ∧
      run .waitFree (at' cfg 0 .never [.high, .high, .high, .low, .low] []) =
        some ([.unit], [hi, .slept 10, hi, .slept 10, hi, .slept 10, lo, lo]) := by decide
/-- V2.63: the queries end with the guard interval. -/
theorem test_waitFree_blackout :
    run .waitFree (at' cfg 1010 (.time 1000) (List.replicate 7 .low) []) =
      some ([.unit], [lo, lo, .slept 20, lo, .slept 20, lo, .slept 20, lo, .slept 20, lo, .slept 20, lo]) := by decide

/-! ## Bit image (2.1) -/

/-- V2.2 to V2.4, and the pixel byte of `IMG_NEW 8, 1`. -/
theorem test_imgNew :
    answer (.imgNew 3 3) base = some [.fault .fGeometry] ∧ answer (.imgNew 65536 8) base = some [.fault .fRange] ∧
      (newImage cfg 0 5).bytes.length = 16 ∧ (newImage cfg 8 1).bytes.drop 16 = [unwrittenByte] := by decide
/-- R201: the resolution fields of `IMG_NEW 400, 300` are `01 90` and `01 2C`. -/
theorem test_imgNew_header :
    (header cfg 400 300).take 4 = [0x01, 0x90, 0x01, 0x2C] := by decide
/-- V2.7. -/
theorem test_imgClear :
    ((clearImage (newImage cfg 8 2) false).bytes.drop 16 = buf [0x00, 0x00]) ∧
      ((clearImage (newImage cfg 8 2) true).bytes.drop 16 = buf [0xFF, 0xFF]) := by decide
/-- V2.14, V2.15, V2.17: pixels land most significant bit first. -/
theorem test_imgComposite :
    (compositeImage cfg black16 ⟨8, 1, [0xA5], [0x5A]⟩ 8 0).bytes.drop 16 = buf [0x00, 0xA5] ∧
      (compositeImage cfg black16 bis01 4 0).bytes.drop 16 = buf [0x08, 0x00] ∧
      (compositeImage cfg (newImage cfg 16 1) bis01 0 0).bytes.drop 16 = [writtenByte 0x80, unwrittenByte] := by decide
/-- V2.16; V2.6: rows are not byte-aligned. -/
theorem test_imgComposite_bounds :
    answer (.imgComposite black16 bis01 9 0) base = some [.fault .fRange] ∧
      headerLen + pixelIndex 12 3 1 / 8 = 17 ∧ pixelBit (pixelIndex 12 3 1) = 0 ∧
      headerLen + pixelIndex 400 9 1 / 8 = 67 ∧ pixelBit (pixelIndex 400 9 1) = 6 := by decide
/-- V2.8, V2.9. -/
theorem test_bisNew :
    answer (.bisNew 8 2 [0x01, 0xA0]) base = some [.bis ⟨8, 2, [0x80, 0x05], [0x7F, 0xFA]⟩] ∧
      answer (.bisNew 8 1 [0x12, 0x34]) base = some [.bis ⟨8, 1, [0x48], [0xB7]⟩] := by decide
/-- V2.11, V2.12. -/
theorem test_bisNew_refused :
    answer (.bisNew 8 2 [0x01]) base = some [.fault .fOverrun] ∧
      answer (.bisNew 4 1 [0x00]) base = some [.fault .fGeometry] := by decide
/-- V2.13. -/
theorem test_bisView :
    answer (.bisView ⟨8, 2, [0x80, 0x05], [0x7F, 0xFA]⟩ .inverted) base = some [.bytes [0x7F, 0xFA]] := by decide

/-! ## Packetizer (2.5) -/

/-- V2.70, V2.73. -/
theorem test_pktSplit :
    answer (.pktSplit 5 2) base = some [.packets [(0, 2), (2, 2), (4, 1)]] ∧
      answer (.pktSplit 7 7) base = some [.packets [(0, 7), (7, 0)]] := by decide
/-- V2.71, V2.74. -/
theorem test_pktSplit_edges :
    answer (.pktSplit 0 7) base = some [.packets [(0, 0)]] ∧ answer (.pktSplit 5 0) base = some [.fault .fPlen] := by decide
/-- Program P2, request 1: three packets, the second retried once. -/
theorem test_sendImage :
    run (.sendImage (buf [0x11, 0x22, 0x33, 0x44, 0x55]) 5 2)
        (at' cfg 0 .never (List.replicate 5 .low)
          [0x90, 0x00, 0x90, 0x00, 0x6A, 0x00, 0x90, 0x00, 0x90, 0x00]) =
      some ([.bool true],
        [s' [0x30, 0x0D, 0x00, 0x00], lo, x' 0x90 0x00, s' [0x20, 0x01, 0x00, 0x02, 0x11, 0x22], lo, x' 0x90 0x00,
          s' [0x20, 0x01, 0x00, 0x02, 0x33, 0x44], lo, x' 0x6A 0x00, .log .statusFail,
          s' [0x20, 0x01, 0x00, 0x02, 0x33, 0x44], lo, x' 0x90 0x00, s' [0x20, 0x01, 0x00, 0x01, 0x55], lo,
          x' 0x90 0x00]) := by decide
/-- V2.75 to V2.78, V2.92. -/
theorem test_sendImage_edges :
    run (.sendImage (buf [1, 2, 3, 4, 5]) 6 2) base = some ([.fault .fOverrun], []) ∧
      run (.sendImage (buf [1, 2, 3, 4, 5]) 6 0) base = some ([.fault .fPlen], []) ∧
      run (.sendImage (buf [1, 2, 3, 4, 5]) 4 256) base = some ([.fault .fLen], []) ∧
      (next (.sendImage [] 0 4) base).map (fun t => (t.responses, t.trace, t.initXfer)) =
        some ([.bool true], [s' [0x30, 0x0D, 0x00, 0x00], lo, x' 0x90 0x00, s' [0x20, 0x01, 0x00, 0x00], lo, x' 0x90 0x00],
          true) := by decide
/-- Program P4, with a header of zeros: one packet of 18 bytes. -/
theorem test_sendImagePi :
    run (.sendImagePi ⟨16, 1, buf (List.replicate 16 0 ++ [0x08, 0x00])⟩) base =
      some ([.bool true], [s' [0x30, 0x0D, 0x00, 0x00], lo, x' 0x90 0x00,
        s' ([0x20, 0x01, 0x00, 0x12] ++ List.replicate 16 0 ++ [0x08, 0x00]), lo, x' 0x90 0x00]) := by decide
/-- V2.91: a view of an 8 by 2 source sent with the source's declared length. -/
theorem test_sendImage_declaredLength :
    bisLen (newBis 8 2 [0x01, 0xA0]) = 16 + 2 ∧
      run (.sendImage (buf (bisViewOf (newBis 8 2 [0x01, 0xA0]) .normal)) (16 + 2) 1) base =
        some ([.fault .fOverrun], []) := by decide
/-- V2.90. -/
theorem test_sendImagePi_unwritten : run (.sendImagePi fresh8) base = some ([.fault .fUnwritten], []) := by decide
/-- V2.82, and the packets of a 2-byte buffer with `plen = 8`. -/
theorem test_sendImageRoi :
    run (.sendImageRoi (buf [0xAA, 0xBB]) 0 250 8 100 0) base =
      some ([.bool true], [s' [0x30, 0x0A, 0x00, 0x08, 0x00, 0x00, 0x00, 0x08, 0x00, 0xFA, 0x01, 0x2C], lo, x' 0x90 0x00,
        s' [0x20, 0x01, 0x00, 0x02, 0xAA, 0xBB], lo, x' 0x90 0x00]) := by decide
/-- V2.84 to V2.86; V2.81. -/
theorem test_sendImageRoi_refused :
    run (.sendImageRoi (buf [0xAA]) 0 301 8 1 0) base = some ([.fault .fRange], []) ∧
      run (.sendImageRoi (buf [0xAA]) 0 0 512 1 0) base = some ([.fault .fLen], []) ∧
      run (.sendImageRoi (buf [0xAA]) 0 0 0 1 0) base = some ([.fault .fPlen], []) ∧
      [1, 250, 251, 510, 511, 512].map roiPlen = [1, 250, 125, 255, 255, 256] := by decide

/-! ## Sequences (2.6) -/

/-- V2.100, V2.101. -/
theorem test_fill :
    run (.fill true) base =
        some ([.unit], [s' [0x30, 0x0A, 0x00, 0x08, 0x00, 0x00, 0x01, 0x90, 0x00, 0x00, 0x01, 0x2C], lo, x' 0x90 0x00,
          s' [0x30, 0x0B, 0x00, 0x01, 0xFF], lo, x' 0x90 0x00]) ∧
      fillByte { cfg with fillInvert := true } true = 0x00 ∧ fillByte { cfg with fillInvert := true } false = 0xFF := by
  decide
/-- V2.107: the fill frame is sent whatever the first status. -/
theorem test_fill_status :
    run (.fill true) (at' cfg 0 .never [.low, .low] [0x6A, 0x00, 0x90, 0x00]) =
      some ([.unit], [s' [0x30, 0x0A, 0x00, 0x08, 0x00, 0x00, 0x01, 0x90, 0x00, 0x00, 0x01, 0x2C], lo, x' 0x6A 0x00,
        .log .statusFail, s' [0x30, 0x0B, 0x00, 0x01, 0xFF], lo, x' 0x90 0x00]) := by decide
/-- V2.102, V2.103. -/
theorem test_fillRoi :
    run (.fillRoi 10 20 100 50 false) base =
        some ([.unit], [s' [0x30, 0x0A, 0x00, 0x08, 0x00, 0x0A, 0x00, 0x6E, 0x00, 0x14, 0x00, 0x46], lo, x' 0x90 0x00,
          s' [0x30, 0x0B, 0x00, 0x01, 0x00], lo, x' 0x90 0x00]) ∧
      run (.fillRoi 10 20 0 50 true) baseInc = some ([.fault .fRange], []) := by decide
/-- V2.104: no clamp. -/
theorem test_fillRoi_unclamped :
    (run (.fillRoi 350 250 100 100 true) base).map (fun r => r.2.take 1) =
      some [s' [0x30, 0x0A, 0x00, 0x08, 0x01, 0x5E, 0x01, 0xC2, 0x00, 0xFA, 0x01, 0x5E]] := by decide
/-- V2.105, V2.106. -/
theorem test_copyRoi :
    run (.copyRoi 0 0 8 8 (some 0x02)) base =
        some ([.unit], [s' [0x30, 0x0A, 0x00, 0x08, 0x00, 0x00, 0x00, 0x08, 0x00, 0x00, 0x00, 0x08], lo, x' 0x90 0x00,
          s' [0x30, 0x0C, 0x00, 0x01, 0x02], lo, x' 0x90 0x00]) ∧
      (run (.copyRoi 0 0 8 8 none) base).map (fun r => r.2.drop 3) =
        some [s' [0x30, 0x0C, 0x00, 0x01, 0x00], lo, x' 0x90 0x00] := by decide
/-- V2.108. -/
theorem test_eraseP : run .eraseP base = some ([.unit], [s' [0x20, 0x0E, 0x00], lo]) := by decide
/-- V2.108. -/
theorem test_updateP : run .updateP base = some ([.unit], [s' [0x40, 0x01, 0x00], lo]) := by decide
/-- V2.108. -/
theorem test_updateFlP : run .updateFlP base = some ([.unit], [s' [0x41, 0x01, 0x00], lo]) := by decide
/-- V2.108. -/
theorem test_updateFlinvP : run .updateFlinvP base = some ([.unit], [s' [0x42, 0x01, 0x00], lo]) := by decide

/-! ## Faults, construction and teardown (2.7) -/

/-- V2.110, V2.111. -/
theorem test_construct :
    (next .construct unbuilt).map (fun t => (t.phase, t.fault, t.lastUpdate, t.responses)) =
        some (.operational, none, .never, [.bool true]) ∧
      (next .construct { unbuilt with acquires := ⟨[true, false], 0⟩ }).map (fun t => (t.phase, t.trace, t.responses)) =
        some (.failed, [], [.bool false]) := by decide
/-- V2.114, V2.118. -/
theorem test_construct_again :
    (next .construct base).map (fun t => (t.phase, t.fault, t.responses)) =
        some (.operational, some .fState, [.fault .fState]) ∧
      (next .construct { faulted with phase := .tornDown, initXfer := true, trace := [lo] }).map
          (fun t => (t.phase, t.fault, t.initXfer, t.trace)) =
        some (.operational, none, false, []) := by decide
/-- V2.116, V2.117. -/
theorem test_teardown :
    (next .teardown faulted).map (fun t => (t.phase, t.fault, t.responses)) = some (.tornDown, some .fLen, [.unit]) ∧
      run .waitFree { base with phase := .tornDown } = some ([.fault .fState], []) := by decide
/-- V2.112, V2.115. -/
theorem test_admission :
    run (.erase 0x00) { base with phase := .failed } = some ([.fault .fState], []) ∧
      run .isBusy faulted = some ([.fault .fLen], []) := by decide

/-! ## Witnesses: values that meet the hypotheses of each statement together, every clause at a boundary -/

/-- The state after a request that ends in one. -/
def after' (i : Instr) (s : State) : State := (next i s).getD s

theorem ready_base : Ready base := ⟨rfl, rfl⟩
theorem ready_baseInc : Ready baseInc := ⟨rfl, rfl⟩

theorem witness_DecodeUndoesEncode :
    encode cfg20 (.imgPkt 0x01 [0x5A]) = some [0x20, 0x01, 0x00, 0x01, 0x5A] ∧
      (∀ init payload, Instr.imgPkt 0x01 [0x5A] = .imgPkt init payload → cfg20.opParam = 0x20 →
        init ≠ 0x0A ∧ init ≠ 0x0B ∧ init ≠ 0x0C ∧ init ≠ 0x0D) := by
  refine ⟨by decide, ?_⟩
  intro init payload h _
  cases h
  decide

theorem witness_EncodeUndoesDecode :
    decode cfg [0x30, 0x0D, 0x07, 0x00] = .ok (.dpReset 0x07) ∧
      encode cfg20 (.imgPkt 0x0D []) = some [0x20, 0x0D, 0x00, 0x00] := by decide

theorem witness_SpecWordsDecode : cfg.roiInclusive = false ∧ cfgInc.roiInclusive = true := by decide

theorem witness_StepRunsTheHostsRequest :
    (offer (.erase 0x00) base).requests = .erase 0x00 :: [] ∧ (Instr.erase 0x00).wf = true ∧
      decodeTableWord 16 0x0000 = some .statusRead ∧ Instr.statusRead.wf = true := by decide

theorem witness_StepWithoutARequest :
    base.requests = [] ∧ (offer (.imgClear ⟨3, 3, []⟩ true) base).requests = [.imgClear ⟨3, 3, []⟩ true] ∧
      (Instr.imgClear ⟨3, 3, []⟩ true).wf = false := by decide

theorem witness_ConstructBuildsAnInstance :
    unbuilt.phase ≠ .operational ∧ (acquire unbuilt).1 = true ∧ (acquire (acquire unbuilt).2).1 = true := by decide

theorem witness_ConstructFailsCleanly :
    unbuilt.phase ≠ .operational ∧ (acquire { unbuilt with acquires := ⟨[false], 0⟩ }).1 = false ∧
      (acquire (acquire { unbuilt with acquires := ⟨[true, false], 0⟩ }).2).1 = false ∧ base.phase = .operational := by
  decide

theorem witness_TeardownReleasesTheInstance : faulted.phase = .operational ∧ unbuilt.phase ≠ .operational := by decide

theorem witness_OnlyANewInstanceClearsAFault :
    exec .construct { faulted with phase := .tornDown } =
        .next (after' .construct { faulted with phase := .tornDown }) ∧
      ({ faulted with phase := .tornDown } : State).fault ≠ none ∧
      (after' .construct { faulted with phase := .tornDown }).fault = none :=
  ⟨rfl, by decide, rfl⟩

theorem witness_OnlyANewInstanceClearsAFault_2 :
    faulted.phase = .operational ∧ exec .teardown faulted = .next (after' .teardown faulted) ∧
      (acquire (after' .teardown faulted)).1 = true ∧ (acquire (acquire (after' .teardown faulted)).2).1 = true :=
  ⟨rfl, rfl, rfl, rfl⟩

theorem witness_WrongPhaseIsRefused : isLifecycle .waitFree = false ∧ unbuilt.phase ≠ .operational := by decide

theorem witness_RecordedFaultAnswersAgain :
    isLifecycle .isBusy = false ∧ faulted.phase = .operational ∧ faulted.fault = some .fLen := by decide

theorem witness_FaultsLeaveTheStateAsBefore :
    exec (.fillVal 0x00 0x7F) base = .next (after' (.fillVal 0x00 0x7F) base) ∧
      (after' (.fillVal 0x00 0x7F) base).responses = base.responses ++ [.fault .fValue] := ⟨rfl, rfl⟩

theorem witness_FieldsHaveTheirWriters :
    exec .teardown base = .next (after' .teardown base) ∧ (after' .teardown base).phase ≠ base.phase ∧
      (after' (.updFull 0x00) base).lastUpdate ≠ base.lastUpdate ∧
      (after' (.sendImage [] 0 4) base).initXfer ≠ base.initXfer ∧ Instr.teardown ≠ .construct :=
  ⟨rfl, by decide, by decide, by decide, by decide⟩

theorem witness_PureRequestsOnlyAnswer :
    isPure (.bisNew 8 2 [0x01]) = true ∧ exec (.bisNew 8 2 [0x01]) base = .next (after' (.bisNew 8 2 [0x01]) base) ∧
      isPure (.pktSplit 5 2) = true := ⟨rfl, rfl, rfl⟩

theorem witness_TraceAndLastWaitAreNeverRead :
    exec (.erase 0x00) base = .next (after' (.erase 0x00) base) ∧ Instr.erase 0x00 ≠ .construct := ⟨rfl, by decide⟩

theorem witness_TransactionsAreBounded :
    Instr.imgPkt 0x01 [] ≠ .construct ∧ exec (.imgPkt 0x01 []) base = .next (after' (.imgPkt 0x01 []) base) :=
  ⟨by decide, rfl⟩

theorem inv_base : Inv base := ⟨rfl, fun _ h => Stamp.noConfusion h, fun _ h => absurd h (by simp [base, at', State.reset]),
  fun _ => rfl⟩

theorem witness_StepKeepsInvariant :
    Inv (offer (.updFull 0x00) base) ∧ step (offer (.updFull 0x00) base) = .next (after' (.updFull 0x00) base) :=
  ⟨⟨inv_base.deselected, inv_base.stampPast, inv_base.legal, inv_base.unbuilt⟩, rfl⟩

theorem witness_EraseSendsItsFrameAndWaits : Ready base := ready_base

theorem witness_UpdatesSendStampAndWait :
    Ready base ∧ ((Instr.updFl 0x01 = .updFull 0x01 ∧ (0x41 : Byte) = base.cfg.opUpdFull) ∨
      (Instr.updFl 0x01 = .updFl 0x01 ∧ (0x41 : Byte) = base.cfg.opUpdFl) ∨
      (Instr.updFl 0x01 = .updFlinv 0x01 ∧ (0x41 : Byte) = base.cfg.opUpdFlinv)) :=
  ⟨ready_base, .inr (.inl ⟨rfl, rfl⟩)⟩

/-- The largest inclusive field, and one more than the largest exclusive one. -/
theorem witness_RoiSetSendsTheWindow :
    Ready baseInc ∧ ((baseInc.cfg.roiInclusive = true → 0 < 1 ∧ 0 < 1) ∧ 65535 < 65536 ∧
        65535 + 1 - roiEnd baseInc.cfg < 65536 ∧ 0 < 65536 ∧ 0 + 1 - roiEnd baseInc.cfg < 65536) ∧
      Ready base ∧ ¬((base.cfg.roiInclusive = true → 0 < 1 ∧ 0 < 1) ∧ 65535 < 65536 ∧
        65535 + 1 - roiEnd base.cfg < 65536 ∧ 0 < 65536 ∧ 0 + 1 - roiEnd base.cfg < 65536) :=
  ⟨ready_baseInc, by decide, ready_base, by decide⟩

theorem witness_FillValSendsOneOfTwoValues :
    Ready base ∧ ((0xFF : Byte) = 0x00 ∨ (0xFF : Byte) = 0xFF) ∧ ¬((0x7F : Byte) = 0x00 ∨ (0x7F : Byte) = 0xFF) :=
  ⟨ready_base, by decide, by decide⟩

theorem witness_CopySlotSendsBothSlots : Ready base := ready_base
theorem witness_DpResetSendsOnce : Ready base := ready_base

theorem witness_ImgPktRetriesUntilSuccess :
    Ready base ∧ (List.replicate 255 (0x5A : Byte)).length ≤ 255 ∧ 255 < (List.replicate 256 (0x5A : Byte)).length :=
  ⟨ready_base, by rw [List.length_replicate], by rw [List.length_replicate]; decide⟩

theorem witness_ImgPktSucceedsAfterTwoRetries :
    Ready (at' cfg 0 .never [.low, .low, .low] [0x6A, 0x00, 0x6A, 0x00, 0x90, 0x00]) ∧ [(0x5A : Byte)].length ≤ 255 ∧
      (at' cfg 0 .never [.low, .low, .low] []).line.script =
        inactiveLevel cfg :: inactiveLevel cfg :: inactiveLevel cfg :: [] ∧
      (at' cfg 0 .never [.low, .low, .low] [0x6A, 0x00, 0x6A, 0x00, 0x90, 0x00]).panel.script =
        0x6A :: 0x00 :: 0x6A :: 0x00 :: 0x90 :: 0x00 :: [] :=
  ⟨⟨rfl, rfl⟩, by decide, by decide, by decide⟩

theorem witness_ClassifyFollowsTheTable : Ready base := ready_base
theorem witness_StatusReadRetriesTheReadOnly : Ready base := ready_base

/-- Two not-ready answers and a third pair; three not-ready answers in a mix (V2.45, V2.44). -/
theorem witness_StatusReadFollowsThePanel :
    Ready (at' cfg 0 .never [] [0x00, 0x00, 0xFF, 0xFF, 0x67, 0x00]) ∧
      (∀ q ∈ [((0x00, 0x00) : Byte × Byte), (0xFF, 0xFF)], classifyPair q.1 q.2 = .notReady) ∧
      [((0x00, 0x00) : Byte × Byte), (0xFF, 0xFF)].length < 3 ∧ answered (classifyPair 0x67 0x00) = some .errA ∧
      (at' cfg 0 .never [] [0x00, 0x00, 0xFF, 0xFF, 0x67, 0x00]).panel.script =
        [((0x00, 0x00) : Byte × Byte), (0xFF, 0xFF)].flatMap (fun a => [a.1, a.2]) ++ 0x67 :: 0x00 :: [] ∧
      (∀ q ∈ [((0xFF, 0xFF) : Byte × Byte), (0x00, 0x00), (0xFF, 0xFF)], classifyPair q.1 q.2 = .notReady) ∧
      (at' cfg 0 .never [] [0xFF, 0xFF, 0x00, 0x00, 0xFF, 0xFF]).panel.script =
        [((0xFF, 0xFF) : Byte × Byte), (0x00, 0x00), (0xFF, 0xFF)].flatMap (fun a => [a.1, a.2]) ++ [] :=
  ⟨⟨rfl, rfl⟩, by simp [classifyPair], by decide, by decide, by decide, by simp [classifyPair], by decide⟩

theorem witness_IsBusyFiltersTheLine :
    Ready (at' cfg 1099 (.time 1000) [.low] []) ∧
      ∀ u, (at' cfg 1099 (.time 1000) [.low] []).lastUpdate = .time u → u ≤ (at' cfg 1099 (.time 1000) [.low] []).clock := by
  refine ⟨⟨rfl, rfl⟩, fun u h => ?_⟩
  cases h
  decide

/-- An update at 1000, then a query at 1099 (blackout), at 1100 with the line inactive, and at 1500 (cap). -/
def updated (d : Nat) (l : Level) : State :=
  { at' cfg 1000 .never [.low, l] [] with ticks := ⟨[0, 0, d], 0⟩ }

theorem witness_UpdateStartsTheBlackout (d : Nat) (l : Level) :
    Ready (updated d l) ∧ isUpdate (.updFull 0x00) = true ∧
      exec (.updFull 0x00) (updated d l) = .next (after' (.updFull 0x00) (updated d l)) ∧
      exec .isBusy (after' (.updFull 0x00) (updated d l)) = .next (after' .isBusy (after' (.updFull 0x00) (updated d l))) ∧
      (after' .isBusy (after' (.updFull 0x00) (updated d l))).trace =
        (after' (.updFull 0x00) (updated d l)).trace ++ [.pinRead .busy l] := ⟨⟨rfl, rfl⟩, rfl, rfl, rfl, rfl⟩

theorem witness_UpdateStartsTheBlackout_clauses :
    (after' .isBusy (after' (.updFull 0x00) (updated 99 .low))).clock < 1000 + cfg.tGuard ∧
      1000 + cfg.tGuard ≤ (after' .isBusy (after' (.updFull 0x00) (updated 100 .low))).clock ∧
      Level.low = inactiveLevel cfg ∧
      1000 + max cfg.tGuard cfg.tCap ≤ (after' .isBusy (after' (.updFull 0x00) (updated 500 .high))).clock := by decide

theorem witness_WaitBusyPollsUntilClearOrBound : Ready base := ready_base

/-- A clock that advances by 12 before the first reading after the start, by 2 before the second: `12 < 25` and
`12 + 2 + 10 < 25`, then inactive. -/
theorem witness_WaitBusyClearsWithTheLine_anyClock :
    Ready { at' cfg 0 .never [.high, .high, .low] [] with ticks := ⟨[7, 12, 2], 0⟩ } ∧
      (at' cfg 0 .never [.high, .high, .low] []).line.script =
        List.replicate [12, 2].length (activeLevel cfg) ++ inactiveLevel cfg :: [] ∧
      [7, 12, 2] = 7 :: ([12, 2] ++ []) ∧
      (∀ k, k < [12, 2].length → ([12, 2].take (k + 1)).sum + k * cfg.tPoll < 25) := by
  refine ⟨⟨rfl, rfl⟩, by decide, rfl, ?_⟩
  decide

/-- V2.60 at its bound: active for `ceil(25 / 10) = 3` samples, then inactive. -/
theorem witness_WaitBusyClearsWithTheLine :
    Ready (at' cfg 0 .never [.high, .high, .high, .low] []) ∧ 3 ≤ (25 + cfg.tPoll - 1) / cfg.tPoll ∧
      (at' cfg 0 .never [.high, .high, .high, .low] []).line.script =
        List.replicate 3 (activeLevel cfg) ++ inactiveLevel cfg :: [] ∧
      base.ticks.script = List.replicate (3 + 1) 0 ++ List.replicate 20 0 :=
  ⟨⟨rfl, rfl⟩, by decide, by decide, by decide⟩

/-- A clock that advances faster: the second reading after the start, at `12 + 3 + 10`, meets the deadline of 25 with one
sleep where a clock that only sleeps advance takes three. -/
theorem witness_WaitBusyTimesOutAtItsBound_anyClock :
    Ready { at' cfg 0 .never [.high, .high] [] with ticks := ⟨[7, 12, 3], 0⟩ } ∧
      (at' cfg 0 .never [.high, .high] []).line.script = List.replicate ([12].length + 1) (activeLevel cfg) ++ [] ∧
      [7, 12, 3] = 7 :: ([12] ++ 3 :: []) ∧
      (∀ k, k < [12].length → ([12].take (k + 1)).sum + k * cfg.tPoll < 25) ∧
      25 ≤ [12].sum + 3 + [12].length * cfg.tPoll := by
  refine ⟨⟨rfl, rfl⟩, by decide, rfl, ?_, by decide⟩
  decide

/-- V2.57. -/
theorem witness_WaitBusyTimesOutAtItsBound :
    Ready (at' cfg 0 .never [.high, .high, .high, .high] []) ∧ 3 = (25 + cfg.tPoll - 1) / cfg.tPoll ∧
      (at' cfg 0 .never [.high, .high, .high, .high] []).line.script = List.replicate (3 + 1) (activeLevel cfg) ++ [] ∧
      base.ticks.script = List.replicate (3 + 2) 0 ++ List.replicate 19 0 :=
  ⟨⟨rfl, rfl⟩, by decide, by decide, by decide⟩

theorem witness_WaitFreeEndsWhenNotBusy :
    Ready (at' cfg 1010 (.time 1010) [] []) ∧
      (∀ u, (at' cfg 1010 (.time 1010) [] []).lastUpdate = .time u → u ≤ (at' cfg 1010 (.time 1010) [] []).clock) ∧
      Ready base ∧ base.lastUpdate = .never := by
  refine ⟨⟨rfl, rfl⟩, fun u h => ?_, ready_base, rfl⟩
  cases h
  decide

theorem witness_ImgNewGivesAHeaderAndUnwrittenPixels :
    Ready base ∧ (65536 ≥ 65536 ∨ 8 ≥ 65536) ∧ (3 < 65536 ∧ 3 * 3 % 8 ≠ 0) ∧ (65535 < 65536 ∧ 65535 * 8 % 8 = 0) :=
  ⟨ready_base, by decide, by decide, by decide⟩

theorem witness_ImgClearSetsEveryPixelByte : Ready base ∧ fresh8.wf = true := ⟨ready_base, by decide⟩

/-- A source that ends at the image's edge, and one pixel further (V2.16). -/
theorem witness_ImgCompositeOverwritesTheRectangle :
    Ready base ∧ (9 + bis01.w > black16.w ∨ 0 + bis01.h > black16.h) ∧ black16.wf = true ∧ bis01.wf = true ∧
      8 + bis01.w ≤ black16.w ∧ 0 + bis01.h ≤ black16.h :=
  ⟨ready_base, by decide, by decide, by decide, by decide, by decide⟩

theorem witness_BisNewReversesAndComplements :
    Ready base ∧ 4 * 1 % 8 ≠ 0 ∧ (8 * 2 % 8 = 0 ∧ [(0x01 : Byte)].length < 8 * 2 / 8) ∧
      8 * 2 / 8 ≤ [(0x01 : Byte), 0xA0].length := ⟨ready_base, by decide, by decide, by decide⟩

theorem witness_BisViewGivesTheView : Ready base ∧ bis01.wf = true := ⟨ready_base, by decide⟩
theorem witness_PktSplitCountsAndPlacesPackets : Ready base ∧ 0 < 1 := ⟨ready_base, by decide⟩
theorem witness_PacketsTileTheBuffer : 0 < 1 := by decide

/-- The refusals in order, and a transfer of a buffer's first byte with its second never written. -/
theorem witness_SendImageIsAllOrNothing :
    Ready base ∧ 255 < 256 ∧ (0 < 255 ∧ 255 ≤ 255 ∧ (buf [1]).length < 2) ∧
      (2 ≤ (buf [1] ++ [unwrittenByte]).length ∧ ∃ b ∈ (buf [1] ++ [unwrittenByte]).take 2, b.isWritten = false) ∧
      (1 ≤ (buf [1] ++ [unwrittenByte]).length ∧ ∀ b ∈ (buf [1] ++ [unwrittenByte]).take 1, b.isWritten = true) :=
  ⟨ready_base, by decide, by decide, by decide, by decide⟩

theorem witness_BisDeclaredLengthOverrunsItsViews :
    Ready base ∧ bis01.wf = true ∧ 0 < 255 ∧ 255 ≤ 255 ∧
      exec (.bisView bis01 .inverted) base = .next (answeredWith (.bytes [0x7F]) base) :=
  ⟨ready_base, by decide, by decide, by decide, rfl⟩

theorem witness_SendImagePiSendsTheWholeImage :
    Ready base ∧ black16.wf = true ∧ (∀ b ∈ black16.bytes, b.isWritten = true) ∧ fresh8.wf = true ∧
      ∃ b ∈ fresh8.bytes, b.isWritten = false := ⟨ready_base, by decide, by decide, by decide, by decide⟩

/-- At the clamp bound itself and at the widest window (V2.83). -/
theorem witness_SendImageRoiIsAnySuccess :
    Ready base ∧ 300 ≤ cfg.roiClampH ∧ 0 < 511 ∧ 511 < 512 ∧
      roiFields cfg 0 300 511 (if 300 + 10 > cfg.roiClampH then cfg.roiClampH - 300 else 10) = some (0, 511, 300, 300) ∧
      (∀ b ∈ buf [0xAA], b.isWritten = true) :=
  ⟨ready_base, by decide, by decide, by decide, by decide, by decide⟩

theorem witness_SendImageRoiRefusesInOrder :
    Ready base ∧ cfg.roiClampH < 301 ∧ 300 ≤ cfg.roiClampH ∧ 512 ≤ 512 ∧
      roiFields cfg 65535 0 1 (if 0 + 1 > cfg.roiClampH then cfg.roiClampH - 0 else 1) = none ∧
      (roiFields cfg 0 0 1 (if 0 + 1 > cfg.roiClampH then cfg.roiClampH - 0 else 1)).isSome ∧
      ∃ b ∈ [unwrittenByte], b.isWritten = false :=
  ⟨ready_base, by decide, by decide, by decide, by decide, by decide, by decide⟩

/-- V2.82: the ROI frame of a window that the clamp cuts. -/
theorem witness_RoiTransferNeverPassesTheClamp :
    exec (.sendImageRoi [] 0 250 8 100 0) base = .next (after' (.sendImageRoi [] 0 250 8 100 0) base) ∧
      (after' (.sendImageRoi [] 0 250 8 100 0) base).trace =
        base.trace ++ [s' [0x30, 0x0A, 0x00, 0x08, 0x00, 0x00, 0x00, 0x08, 0x00, 0xFA, 0x01, 0x2C], lo, x' 0x90 0x00,
          s' [0x20, 0x01, 0x00, 0x00], lo, x' 0x90 0x00] ∧
      ([0x30, 0x0A, 0x00, 0x08, 0x00, 0x00, 0x00, 0x08, 0x00, 0xFA, 0x01, 0x2C] : List Byte).getD 1 0 = 0x0A :=
  ⟨rfl, by decide, rfl⟩

theorem witness_FillSetsTheWindowThenFills :
    Ready base ∧ (0xFF : Byte) = (if true = cfg.fillInvert then 0x00 else 0xFF) ∧
      roiFields cfg 0 0 cfg.panelW cfg.panelH = some (0, 400, 0, 300) ∧ Ready baseInc ∧
      roiFields cfgInc 10 20 0 50 = none := ⟨ready_base, by decide, by decide, ready_baseInc, by decide⟩

theorem witness_CopyRoiSetsTheWindowThenCopies :
    Ready base ∧ ((none : Option Byte) = some 0x00 ∨ ((none : Option Byte) = none ∧ (0x00 : Byte) = cfg.copyDefaultSrc)) ∧
      roiFields cfg 0 0 8 8 = some (0, 8, 0, 8) ∧ roiFields cfg 65535 0 1 1 = none :=
  ⟨ready_base, by decide, by decide, by decide⟩

theorem witness_ErasePSendsTheEraseFrame : Ready base := ready_base

theorem witness_UpdatePseudoOperationsSendTheirFrames :
    Ready base ∧ ((Instr.updateFlinvP = .updateP ∧ (0x42 : Byte) = base.cfg.opUpdFull) ∨
      (Instr.updateFlinvP = .updateFlP ∧ (0x42 : Byte) = base.cfg.opUpdFl) ∨
      (Instr.updateFlinvP = .updateFlinvP ∧ (0x42 : Byte) = base.cfg.opUpdFlinv)) :=
  ⟨ready_base, .inr (.inr ⟨rfl, rfl⟩)⟩

theorem witness_PseudoOperationsAreTheirExpansions :
    expand base.cfg (.fill true) = some [.roiSet 0x00 0 0 400 300, .fillVal 0x00 0xFF] ∧
      expand base.cfg .eraseP = some [.erase 0x00] := by decide

end Sys2Proof.Tests
end

/-!
PROOFS of the statements of 30_encoding.md: what a request answers (R165), and that a pseudo-operation has the effect of the
requests it expands to (R183).
-/

namespace Sys2Proof.Machine

/-! ## The status code map (R165) -/

theorem exec_classify_ready {s : State} (hr : Ready s) (b0 b1 : Byte) :
    exec (.classify b0 b1) s = .next (answeredWith (.raw (classifyPair b0 b1)) s) :=
  admit_ready hr (respond (.raw (classifyPair b0 b1)))

/-- Settles O29: an admitted `CLASSIFY` answers `classifyPair`, which is the table. -/
theorem classifyFollowsTheTable : Obligations.ClassifyFollowsTheTable := by
  intro s b0 b1 hr
  rw [exec_classify_ready hr, classifyPair]

/-! ## Requests run one after the other -/

theorem runAll_cons {i : Instr} {s t : State} (h : exec i s = .next t) (js : List Instr) :
    runAll (i :: js) s = runAll js t := by
  simp only [runAll, h]

theorem exec_wrongPhase {i : Instr} (hi : isLifecycle i = false) {s : State} (hp : s.phase ≠ .operational) :
    exec i s = .next (raise .fState s) := by
  obtain ⟨body, h⟩ := exec_admits i hi s
  rw [h, admit_wrongPhase hp]

theorem exec_recorded {i : Instr} (hi : isLifecycle i = false) {s : State} {c : FaultCode} (hp : s.phase = .operational)
    (hf : s.fault = some c) : exec i s = .next (respond (.fault c) s) := by
  obtain ⟨body, h⟩ := exec_admits i hi s
  rw [h, admit_recorded hp hf]

/-- Every request that R413 admits ends in a next state with one response more, admitted or refused. -/
theorem exec_answers_once {i : Instr} (hi : isLifecycle i = false) (s : State) :
    ∃ t, exec i s = .next t ∧ t.responses.length = s.responses.length + 1 := by
  obtain ⟨body, hb⟩ := exec_admits i hi s
  refine ⟨_, hb, ?_⟩
  rcases exec_outcomes i hi s _ hb with ⟨c, -, -, e⟩ | ⟨c, e⟩ | ⟨-, r, evs, he⟩
  · rw [e]
    simp [answeredWith]
  · rw [e]
    simp [refusedWith]
  · rw [he.ext.responses]
    simp

theorem runAll_answers_each {js : List Instr} (hj : ∀ j ∈ js, isLifecycle j = false) (s : State) :
    ∃ v, runAll js s = some v ∧ v.responses.length = s.responses.length + js.length := by
  induction js generalizing s with
  | nil => exact ⟨s, rfl, rfl⟩
  | cons j js ih =>
    obtain ⟨hj, hjs⟩ := List.forall_mem_cons.1 hj
    obtain ⟨t, ht, hlt⟩ := exec_answers_once hj s
    obtain ⟨v, hv, hlv⟩ := ih hjs t
    refine ⟨v, by rw [runAll_cons ht, hv], ?_⟩
    rw [hlv, hlt, List.length_cons]
    omega

/-! ## The effect of an expansion (R183) -/

/-- Two runs ended in the same state but for the responses given. -/
def SameEffect (t v : State) : Prop := t = { v with responses := t.responses }

/-- What the statement says of a pseudo-operation `i` and its expansion `js`. -/
def RunsAs (i : Instr) (js : List Instr) (s : State) : Prop :=
  ∃ t v, exec i s = .next t ∧ runAll js s = some v ∧ SameEffect t v ∧
    v.responses.length = s.responses.length + js.length ∧ (js.length = 1 → t = v)

theorem SameEffect.respond {t v : State} (h : SameEffect t v) (r : Response) :
    SameEffect (respond r t) (respond r v) :=
  congrArg (Machine.respond r) h

/-- An operation that never reads the responses does the same after one more of them. -/
theorem BlindOp.sameEffect_respond {f : State → State} (hf : BlindOp f) (r : Response) (s : State) :
    SameEffect (f s) (f (Machine.respond r s)) := by
  obtain ⟨lw, evs, rs, h, ha⟩ := hf s s.lastWait s.trace s.history (s.responses ++ [r])
  have hlw : lw = (f s).lastWait := ha.lastWait.elim id fun ⟨h₁, h₂⟩ => h₁.trans h₂.symm
  change f (Machine.respond r s) = _ at h
  rw [h, hlw, ← ha.trace, ← ha.history]
  rfl

/-- An expansion into one request with the same meaning. -/
theorem runsAs_one {i j : Instr} {s : State} (hj : isLifecycle j = false) (h : exec i s = exec j s) :
    RunsAs i [j] s := by
  obtain ⟨t, ht, hlen⟩ := exec_answers_once hj s
  exact ⟨t, t, h.trans ht, runAll_cons ht [], rfl, hlen, fun _ => rfl⟩

/-- An expansion into two requests: the responses are counted by `runAll_answers_each`. -/
theorem runsAs_two {i j k : Instr} {s t u v : State} (hj : isLifecycle j = false) (hk : isLifecycle k = false)
    (ht : exec i s = .next t) (hu : exec j s = .next u) (hv : exec k u = .next v) (h : SameEffect t v) :
    RunsAs i [j, k] s := by
  have hrun : runAll [j, k] s = some v := by rw [runAll_cons hu, runAll_cons hv, runAll]
  obtain ⟨v', hv', hlen⟩ := runAll_answers_each (js := [j, k]) (by simp [hj, hk]) s
  obtain rfl : v = v' := Option.some.inj (hrun.symm.trans hv')
  exact ⟨t, v, ht, hrun, h, hlen, by simp⟩

/-! ## The ROI frame, then a second command (R358) -/

theorem exec_roiSet_ready {s : State} (hr : Ready s) (slot : Byte) (x y w h : Nat) :
    exec (.roiSet slot x y w h) s =
      .next (checked (roiCheck s.cfg x y w h) (fun f s => respond .unit (roiSetOp slot f s)) s) :=
  admit_ready hr _

theorem exec_fillVal_ready {s : State} (hr : Ready s) (slot : Byte) {v : Byte} (hv : v = 0x00 ∨ v = 0xFF) :
    exec (.fillVal slot v) s = .next (respond .unit (fillValOp slot v s)) := by
  have hc : fillCheck v = .ok v := if_pos ((isFillByte_iff v).2 hv)
  exact (admit_ready hr _).trans (congrArg _ (checked_ok hc _ s))

theorem ready_roiSetOp {s : State} (hr : Ready s) (slot : Byte) (f : Nat × Nat × Nat × Nat) :
    Ready (roiSetOp slot f s) := by
  obtain ⟨c, t, evs, h, -, he, -, -⟩ := command_spec (paramFrame s.cfg.opParam 0x0A slot (roiPayload f)) s.cfg.tMedium s
  have ht : roiSetOp slot f s = t := by rw [roiSetOp, paramCmd, h]
  rw [ht]
  exact ⟨he.phase.trans hr.1, he.fault.trans hr.2⟩

theorem exec_fillRoi_ready {s : State} (hr : Ready s) (x y w h : Nat) (white : Bool) :
    exec (.fillRoi x y w h white) s =
      .next (checked (roiCheck s.cfg x y w h) (fun f s => respond .unit (fillSeq f white s)) s) :=
  admit_ready hr _

theorem exec_copyRoi_ready {s : State} (hr : Ready s) (x y w h : Nat) (src : Option Byte) :
    exec (.copyRoi x y w h src) s =
      .next (checked (roiCheck s.cfg x y w h)
        (fun f s => respond .unit (copySeq f (src.getD s.cfg.copyDefaultSrc) s)) s) :=
  admit_ready hr _

/-- A request `i` that checks its window, sends the ROI frame and goes on with `op` runs as `ROI_SET` and then the request
`k` whose operation is `op`. Where `ROI_SET` is refused, `k` is refused too and leaves the fault as it stands. -/
theorem runsAs_roiSet_then {s : State} {i k : Instr} {x y w h : Nat} {run : Nat × Nat × Nat × Nat → State → State}
    (op : State → State)
    (hi : isLifecycle i = false) (hk : isLifecycle k = false) (hop : BlindOp op)
    (hseq : Ready s → exec i s = .next (checked (roiCheck s.cfg x y w h) run s))
    (hrun : ∀ f, run f s = respond .unit (op (roiSetOp (s.cfg.slot .roi) f s)))
    (hthen : ∀ u, Ready u → exec k u = .next (respond .unit (op u))) :
    RunsAs i [.roiSet (s.cfg.slot .roi) x y w h, k] s := by
  have hroi : isLifecycle (.roiSet (s.cfg.slot .roi) x y w h) = false := rfl
  by_cases hp : s.phase = .operational
  · cases hf : s.fault with
    | some c =>
      exact runsAs_two hroi hk (exec_recorded hi hp hf) (exec_recorded hroi hp hf) (exec_recorded hk hp hf) rfl
    | none =>
      have hr : Ready s := ⟨hp, hf⟩
      have hseq := hseq hr
      have hset := exec_roiSet_ready hr (s.cfg.slot .roi) x y w h
      cases hc : roiCheck s.cfg x y w h with
      | error c =>
        rw [checked_error hc] at hseq hset
        exact runsAs_two hroi hk hseq hset (exec_recorded hk hp rfl) rfl
      | ok f =>
        rw [checked_ok hc] at hseq hset
        rw [hrun] at hseq
        have hr' : Ready (respond .unit (roiSetOp (s.cfg.slot .roi) f s)) := ready_roiSetOp hr _ f
        exact runsAs_two hroi hk hseq hset (hthen _ hr') ((hop.sameEffect_respond .unit _).respond .unit)
  · exact runsAs_two hroi hk (exec_wrongPhase hi hp) (exec_wrongPhase hroi hp) (exec_wrongPhase hk hp) rfl

theorem fillRoi_runsAs (x y w h : Nat) (white : Bool) (s : State) :
    RunsAs (.fillRoi x y w h white)
      [.roiSet (s.cfg.slot .roi) x y w h, .fillVal (s.cfg.slot .fill) (fillByte s.cfg white)] s :=
  runsAs_roiSet_then (fillValOp (s.cfg.slot .fill) (fillByte s.cfg white)) rfl rfl (blind_fillValOp _ _)
    (fun hr => exec_fillRoi_ready hr x y w h white) (fun _ => rfl) fun _ hu => exec_fillVal_ready hu _ (fillByte_cases _ _)

theorem copyRoi_runsAs (x y w h : Nat) (src : Option Byte) (s : State) :
    RunsAs (.copyRoi x y w h src)
      [.roiSet (s.cfg.slot .roi) x y w h, .copySlot (s.cfg.slot .copyDst) (src.getD s.cfg.copyDefaultSrc)] s :=
  runsAs_roiSet_then (copySlotOp (s.cfg.slot .copyDst) (src.getD s.cfg.copyDefaultSrc)) rfl rfl (blind_copySlotOp _ _)
    (fun hr => exec_copyRoi_ready hr x y w h src) (fun _ => rfl) fun _ hu => exec_copySlot_ready hu _ _

/-- `FILL` is `FILL_ROI` of the whole panel (R351, R352). -/
theorem exec_fill (white : Bool) (s : State) :
    exec (.fill white) s = exec (.fillRoi 0 0 s.cfg.panelW s.cfg.panelH white) s := rfl

/-- Settles O54: five of the expansions are one request with the same meaning; the other three are the ROI frame and a
second command, which reads nothing of what the first one has answered. -/
theorem pseudoOperationsAreTheirExpansions : Obligations.PseudoOperationsAreTheirExpansions := by
  intro i js s h
  change RunsAs i js s
  cases i <;> cases h
  case eraseP => exact runsAs_one rfl rfl
  case updateP => exact runsAs_one rfl rfl
  case updateFlP => exact runsAs_one rfl rfl
  case updateFlinvP => exact runsAs_one rfl rfl
  case sendImagePi img => exact runsAs_one rfl rfl
  case fill white =>
    rw [RunsAs, exec_fill]
    exact fillRoi_runsAs _ _ _ _ white s
  case fillRoi x y w h white => exact fillRoi_runsAs x y w h white s
  case copyRoi x y w h src => exact copyRoi_runsAs x y w h src s

end Sys2Proof.Machine

/-!
PROOFS of the statements of 40_bit_image.md: the views of a Bit-Image Source (R206).
-/

namespace Sys2Proof.Machine

/-! ## The views of a source -/

theorem bis_wf_iff (bis : Bis) :
    bis.wf = true ↔ bis.w * bis.h % 8 = 0 ∧ bis.normal.length = bis.w * bis.h / 8 ∧
      bis.inverted = bis.normal.map (~~~·) := by
  simp [Bis.wf, and_assoc]

/-- Both views hold one bit per pixel, the complement being as long as the bytes it is taken of (R206). -/
theorem bisViewOf_length {bis : Bis} (hwf : bis.wf = true) (which : View) :
    (bisViewOf bis which).length = bis.w * bis.h / 8 := by
  obtain ⟨-, hnormal, hinverted⟩ := (bis_wf_iff bis).1 hwf
  cases which with
  | normal => exact hnormal
  | inverted => rw [bisViewOf, hinverted, List.length_map, hnormal]

theorem exec_bisView_ready {s : State} (hr : Ready s) (bis : Bis) (which : View) :
    exec (.bisView bis which) s = .next (answeredWith (.bytes (bisViewOf bis which)) s) :=
  admit_ready hr (respond (.bytes (bisViewOf bis which)))

/-- Settles O42: an admitted `BIS_VIEW` answers `bisViewOf`, whose length the source's type fixes. -/
theorem bisViewGivesTheView : Obligations.BisViewGivesTheView := by
  intro s bis which hr hwf
  refine ⟨bisViewOf bis which, exec_bisView_ready hr bis which, bisViewOf_length hwf which, ?_⟩
  cases which with
  | normal => rfl
  | inverted => rfl

end Sys2Proof.Machine

/-!
PROOFS of the statements of 30_encoding.md on frames: the encoder and the decoder undo each other (R150 to R167).
-/

namespace Sys2Proof.Machine

/-! ## Big-endian pairs (R37) -/

theorem be16_ofBe16 (hi lo : Byte) : be16 (ofBe16 hi lo) = [hi, lo] := by
  have hlo := lo.isLt
  have hdiv : ofBe16 hi lo / 256 = hi.toNat := by unfold ofBe16; omega
  have hmod : ofBe16 hi lo % 256 = lo.toNat := by unfold ofBe16; omega
  rw [be16, hdiv, hmod, BitVec.ofNat_toNat, BitVec.ofNat_toNat, BitVec.setWidth_eq, BitVec.setWidth_eq]

theorem ofBe16_lt (hi lo : Byte) : ofBe16 hi lo < 65536 := by
  have hhi := hi.isLt
  have hlo := lo.isLt
  unfold ofBe16
  omega

theorem ofBe16_be16 {v : Nat} (hv : v < 65536) :
    ofBe16 (BitVec.ofNat 8 (v / 256)) (BitVec.ofNat 8 (v % 256)) = v := by
  simp only [ofBe16, BitVec.toNat_ofNat]
  omega

/-! ## Windows (R159) -/

theorem roiEnd_cases (p : Params) : p.roiInclusive = true ∧ roiEnd p = 1 ∨ p.roiInclusive = false ∧ roiEnd p = 0 := by
  cases h : p.roiInclusive <;> simp [roiEnd, h]

theorem roiFields_eq_some {p : Params} {x y w h : Nat} (hin : p.roiInclusive = true → 0 < w ∧ 0 < h) (hx : x < 65536)
    (hxw : x + w - roiEnd p < 65536) (hy : y < 65536) (hyh : y + h - roiEnd p < 65536) :
    roiFields p x y w h = some (x, x + w - roiEnd p, y, y + h - roiEnd p) := by
  have hn : ¬(p.roiInclusive = true ∧ (w = 0 ∨ h = 0)) := by
    rintro ⟨hi, hz⟩
    have := hin hi
    omega
  rw [roiFields, if_neg hn, if_pos ⟨hx, hxw, hy, hyh⟩]

theorem decodeRoi_roiPayload {p : Params} {x y w h : Nat} {f : Nat × Nat × Nat × Nat}
    (hf : roiFields p x y w h = some f) (slot : Byte) :
    decodeRoi p slot (roiPayload f) = some (.roiSet slot x y w h) := by
  obtain ⟨rfl, hin, hx, hxw, hy, hyh⟩ := roiFields_some hf
  have hend := roiEnd_cases p
  have hle : x ≤ x + w - roiEnd p ∧ y ≤ y + h - roiEnd p := by
    rcases hend with ⟨hi, he⟩ | ⟨-, he⟩
    · have := hin hi
      omega
    · omega
  have hw : x + w - roiEnd p + roiEnd p - x = w ∧ y + h - roiEnd p + roiEnd p - y = h := by
    rcases hend with ⟨hi, he⟩ | ⟨-, he⟩
    · have := hin hi
      omega
    · omega
  simp only [roiPayload, be16, List.cons_append, List.nil_append, decodeRoi, ofBe16_be16 hx, ofBe16_be16 hxw,
    ofBe16_be16 hy, ofBe16_be16 hyh, if_pos hle, hw]

/-- A window that is read from a payload has that payload. -/
theorem encode_of_decodeRoi {p : Params} {slot : Byte} {payload : List Byte} {i : Instr}
    (h : decodeRoi p slot payload = some i) : encode p i = some (paramFrame p.opParam 0x0A slot payload) := by
  unfold decodeRoi at h
  split at h
  next a b c d e f g k =>
    split at h
    next hle =>
      cases h
      have hc := ofBe16_lt c d
      have hg := ofBe16_lt g k
      have hend := roiEnd_cases p
      have hw : ofBe16 a b + (ofBe16 c d + roiEnd p - ofBe16 a b) - roiEnd p = ofBe16 c d := by omega
      have hh : ofBe16 e f + (ofBe16 g k + roiEnd p - ofBe16 e f) - roiEnd p = ofBe16 g k := by omega
      rw [encode, roiFields_eq_some (fun hi => by simp [hi] at hend; omega) (by omega) (by omega) (by omega) (by omega),
        hw, hh]
      simp only [Option.map_some, roiPayload, be16_ofBe16, List.cons_append, List.nil_append]
    next => cases h
  next => cases h

/-! ## Parameterized commands (R158, R160 to R162) -/

theorem encode_of_decodeParam {p : Params} {sub slot : Byte} {payload : List Byte} {i : Instr}
    (h : decodeParam p sub slot payload = some i) : encode p i = some (paramFrame p.opParam sub slot payload) := by
  unfold decodeParam at h
  split at h
  next hsub =>
    rw [hsub]
    exact encode_of_decodeRoi h
  next =>
  split at h
  next hsub =>
    subst hsub
    split at h
    next v =>
      split at h
      next hv =>
        cases h
        rw [encode, if_pos hv]
      next => cases h
    next => cases h
  next =>
  split at h
  next hsub =>
    subst hsub
    split at h
    next => cases h; rfl
    next => cases h
  next =>
  split at h
  next hsub =>
    subst hsub
    split at h
    next => cases h; rfl
    next => cases h
  next => cases h

theorem decodeParam_of_other_subcode {p : Params} {sub slot : Byte} {payload : List Byte}
    (h : sub ≠ 0x0A ∧ sub ≠ 0x0B ∧ sub ≠ 0x0C ∧ sub ≠ 0x0D) : decodeParam p sub slot payload = none := by
  obtain ⟨hA, hB, hC, hD⟩ := h
  unfold decodeParam
  rw [if_neg hA, if_neg hB, if_neg hC, if_neg hD]

/-! ## Whole frames -/

/-- A frame of four bytes or more, its length byte holding the payload's byte count (R156). -/
theorem decode_counted (p : Params) (op sub slot : Byte) {payload : List Byte} (hl : payload.length ≤ 255) :
    decode p ([op, sub, slot, BitVec.ofNat 8 payload.length] ++ payload) = decodeLong p op sub slot payload := by
  have hlen : payload.length = (BitVec.ofNat 8 payload.length).toNat := by
    rw [BitVec.toNat_ofNat, Nat.mod_eq_of_lt (by omega)]
  rw [List.cons_append, List.cons_append, List.cons_append, List.cons_append, List.nil_append, decode, if_pos hlen]

theorem decode_paramFrame {p : Params} {sub slot : Byte} {payload : List Byte} {i : Instr} (hl : payload.length ≤ 255)
    (h : decodeParam p sub slot payload = some i) : decode p (paramFrame p.opParam sub slot payload) = .ok i := by
  rw [paramFrame, decode_counted p _ _ _ hl, decodeLong, if_pos rfl, h]

/-- An image packet decodes as itself where it is no parameterized command's frame (R167). -/
theorem decode_imageFrame {p : Params} {init : Byte} {payload : List Byte} (hl : payload.length ≤ 255)
    (h : p.opParam = 0x20 → decodeParam p init 0x00 payload = none) :
    decode p (imageFrame init payload) = .ok (.imgPkt init payload) := by
  have hnone : (if (0x20 : Byte) = p.opParam then decodeParam p init 0x00 payload else none) = none := by
    split
    next he => exact h he.symm
    next => rfl
  rw [imageFrame, decode_counted p _ _ _ hl, decodeLong, hnone]
  rfl

theorem roiPayload_length (f : Nat × Nat × Nat × Nat) : (roiPayload f).length = 8 := rfl

/-- Settles O1, by cases on the request; the window's fields give the window back (`decodeRoi_roiPayload`). -/
theorem decodeUndoesEncode : Obligations.DecodeUndoesEncode := by
  intro p i f h hco
  cases i
  case erase slot => cases h; rfl
  case updFull slot => cases h; simp [simpleFrame, decode, decodeSimple]
  case updFl slot => cases h; simp [simpleFrame, decode, decodeSimple, p.opUpdFull_ne_fl.symm]
  case updFlinv slot =>
    cases h
    simp [simpleFrame, decode, decodeSimple, p.opUpdFull_ne_flinv.symm, p.opUpdFl_ne_flinv.symm]
  case roiSet slot x y w k =>
    obtain ⟨g, hg, rfl⟩ := Option.map_eq_some_iff.1 h
    exact decode_paramFrame (by rw [roiPayload_length]; decide) (decodeRoi_roiPayload hg slot)
  case fillVal slot v =>
    obtain ⟨hv, hf⟩ := Option.ite_none_right_eq_some.1 h
    cases hf
    exact decode_paramFrame (by simp) (if_pos hv)
  case copySlot slot src => cases h; exact decode_paramFrame (by simp) rfl
  case dpReset slot => cases h; exact decode_paramFrame (Nat.zero_le _) rfl
  case imgPkt init payload =>
    obtain ⟨hl, hf⟩ := Option.ite_none_right_eq_some.1 h
    cases hf
    exact decode_imageFrame hl fun hop => decodeParam_of_other_subcode (hco init payload rfl hop)
  case statusRead => cases h; rfl
  all_goals cases h

/-! ## Every decoded sequence is a frame -/

theorem encode_of_decodeSimple {p : Params} {op sub slot : Byte} {i : Instr}
    (h : decodeSimple p op sub slot = .ok i) : encode p i = some [op, sub, slot] := by
  unfold decodeSimple at h
  split at h
  next he =>
    obtain ⟨rfl, rfl⟩ := he
    cases h
    rfl
  next =>
  split at h
  next hsub =>
    subst hsub
    split at h
    next ho => cases h; rw [ho]; rfl
    next =>
    split at h
    next ho => cases h; rw [ho]; rfl
    next =>
    split at h
    next ho => cases h; rw [ho]; rfl
    next => cases h
  next => cases h

theorem encode_of_decodeLong {p : Params} {op sub slot : Byte} {payload : List Byte} {i : Instr}
    (hl : payload.length ≤ 255) (h : decodeLong p op sub slot payload = .ok i) :
    encode p i = some ([op, sub, slot, BitVec.ofNat 8 payload.length] ++ payload) := by
  unfold decodeLong at h
  split at h
  next j hj =>
    cases h
    obtain ⟨rfl, hparam⟩ := Option.ite_none_right_eq_some.1 hj
    exact encode_of_decodeParam hparam
  next =>
    split at h
    next hop =>
      obtain ⟨rfl, rfl⟩ := hop
      cases h
      rw [encode, if_pos hl, imageFrame]
    next => cases h

theorem encode_of_decode {p : Params} {f : List Byte} {i : Instr} (h : decode p f = .ok i) : encode p i = some f := by
  unfold decode at h
  split at h
  next a b =>
    split at h
    next hz =>
      obtain ⟨rfl, rfl⟩ := hz
      cases h
      rfl
    next => cases h
  next => exact encode_of_decodeSimple h
  next op sub slot len payload =>
    split at h
    next hl =>
      have hlen : BitVec.ofNat 8 payload.length = len := by rw [hl, BitVec.ofNat_toNat, BitVec.setWidth_eq]
      have := encode_of_decodeLong (by have := len.isLt; omega) h
      rwa [hlen] at this
    next => cases h
  next => cases h

/-- An image packet's frame always decodes: as the packet, or as the parameterized command it coincides with (R167). -/
theorem decode_imageFrame_ok (p : Params) (init : Byte) {payload : List Byte} (hl : payload.length ≤ 255) :
    ∃ j, decode p (imageFrame init payload) = .ok j := by
  by_cases hco : p.opParam = 0x20 ∧ ∃ j, decodeParam p init 0x00 payload = some j
  · obtain ⟨hop, j, hj⟩ := hco
    have := decode_paramFrame hl hj
    rw [hop] at this
    exact ⟨j, this⟩
  · exact ⟨_, decode_imageFrame hl fun hop => Option.eq_none_iff_forall_ne_some.2 fun j hj => hco ⟨hop, j, hj⟩⟩

/-- Settles O2: the decoder is taken apart branch by branch; conversely O1 gives every frame but the image packets', which
`decode_imageFrame_ok` gives. -/
theorem encodeUndoesDecode : Obligations.EncodeUndoesDecode := by
  refine ⟨fun p f i h => encode_of_decode h, fun p i f h => ?_⟩
  have hok : ∃ j, decode p f = .ok j := by
    by_cases hi : ∃ init payload, i = .imgPkt init payload
    · obtain ⟨init, payload, rfl⟩ := hi
      obtain ⟨hl, hf⟩ := Option.ite_none_right_eq_some.1 h
      cases hf
      exact decode_imageFrame_ok p init hl
    · exact ⟨i, decodeUndoesEncode p i f h fun init payload he => absurd ⟨init, payload, he⟩ hi⟩
  obtain ⟨j, hj⟩ := hok
  exact ⟨j, hj, encode_of_decode hj⟩

/-- The frame of a request other than an image packet decodes to it. -/
theorem decode_of_encode {p : Params} {i : Instr} {f : List Byte} (hi : ∀ init payload, i ≠ .imgPkt init payload)
    (h : encode p i = some f) : decode p f = .ok i :=
  decodeUndoesEncode p i f h fun init payload he => absurd he (hi init payload)

/-- Settles O3: each word is the frame that the encoder gives the request. -/
theorem specWordsDecode : Obligations.SpecWordsDecode := by
  intro p
  refine ⟨decode_of_encode nofun rfl, decode_of_encode nofun rfl, decode_of_encode nofun rfl,
    decode_of_encode nofun rfl, ?_, ?_, decode_of_encode nofun rfl, decode_of_encode nofun rfl,
    decode_of_encode nofun rfl, ?_, decode_of_encode nofun rfl⟩
  · intro hex
    exact decode_of_encode nofun (by simp [encode, roiFields, roiEnd, hex]; rfl)
  · intro hinc
    exact decode_of_encode nofun (by simp [encode, roiFields, roiEnd, hinc]; rfl)
  · refine decodeUndoesEncode p _ _ rfl fun init payload he _ => ?_
    cases he
    decide

end Sys2Proof.Machine

/-!
PROOFS of the statements about every request and every step (10_state.md, 60_exceptions.md, 70_reset_and_hazards.md): how a
request can end is said once (`Ends`), and each statement reads it off that.
-/

namespace Sys2Proof.Machine

/-! ## Construction (R450 to R452) -/

/-- What a construction leaves: every field of `S`, by whether both collaborators were acquired. -/
structure Built (ok : Bool) (s t : State) : Prop where
  phase : t.phase = if ok then .operational else .failed
  fault : t.fault = none
  initXfer : t.initXfer = false
  lastUpdate : t.lastUpdate = if ok = false ∨ s.cfg.tsReset = .never then .never else .time t.clock
  cs : t.cs = .deselected
  lastWait : t.lastWait = none
  trace : t.trace = []
  responses : t.responses = s.responses ++ [.bool ok]
  cfg : t.cfg = s.cfg
  clock : s.clock ≤ t.clock
  clockOfFailed : ok = false → t.clock = s.clock
  requests : t.requests = s.requests
  history : t.history = archive s

theorem built_constructed (s : State) : Built true s (respond (.bool true) (constructed s)) := by
  unfold constructed
  cases h : s.cfg.tsReset with
  | never => exact ⟨rfl, rfl, rfl, by simp [h, newInstance], rfl, rfl, rfl, rfl, rfl, Nat.le_refl _, nofun, rfl, rfl⟩
  | atReset =>
    exact ⟨rfl, rfl, rfl, by simp [h, newInstance], rfl, rfl, rfl, rfl, rfl, le_readClock s, nofun, rfl, rfl⟩

theorem built_failed (s : State) : Built false s (respond (.bool false) (newInstance .failed .never s)) :=
  ⟨rfl, rfl, rfl, rfl, rfl, rfl, rfl, rfl, rfl, Nat.le_refl _, fun _ => rfl, rfl, rfl⟩

/-- An acquisition draws from its own feed and changes nothing else, so it does not enter what is built. -/
theorem Built.of_acquires {ok : Bool} {s t : State} {a : Feed Bool} (h : Built ok { s with acquires := a } t) :
    Built ok s t :=
  ⟨h.phase, h.fault, h.initXfer, h.lastUpdate, h.cs, h.lastWait, h.trace, h.responses, h.cfg, h.clock, h.clockOfFailed,
    h.requests, h.history⟩

theorem acquireBoth_fst (s : State) : (acquireBoth s).1 = ((acquire s).1 && (acquire (acquire s).2).1) := by
  cases h : (acquire s).1 <;> simp [acquireBoth, h]

theorem constructOp_acquired {s : State} (h : (acquireBoth s).1 = true) :
    constructOp s = respond (.bool true) (constructed (acquireBoth s).2) := if_pos h

theorem constructOp_missing {s : State} (h : (acquireBoth s).1 = false) :
    constructOp s = respond (.bool false) (newInstance .failed .never (acquireBoth s).2) := if_neg (by simp [h])

theorem built_constructOp (s : State) : Built (acquireBoth s).1 s (constructOp s) := by
  cases h : (acquireBoth s).1 with
  | true =>
    rw [constructOp_acquired h, acquireBoth_eq]
    exact (built_constructed _).of_acquires
  | false =>
    rw [constructOp_missing h, acquireBoth_eq]
    exact (built_failed _).of_acquires

theorem exec_construct_idle {s : State} (hp : s.phase ≠ .operational) :
    exec .construct s = .next (constructOp s) := by
  simp only [exec, execConstruct, if_neg hp]

theorem exec_construct_operational {s : State} (hp : s.phase = .operational) :
    exec .construct s = .next (refusedWith .fState s) := by
  simp only [exec, execConstruct, if_pos hp]
  rfl

/-- Settles O8: `built_constructOp` with both collaborators acquired. -/
theorem constructBuildsAnInstance : Obligations.ConstructBuildsAnInstance := by
  intro s hp ha₁ ha₂
  have hb := built_constructOp s
  rw [acquireBoth_fst, ha₁, ha₂] at hb
  exact ⟨_, exec_construct_idle hp, hb.phase, hb.fault, hb.initXfer, by simpa using hb.lastUpdate, hb.cs, hb.lastWait,
    hb.trace, hb.responses, hb.cfg, hb.clock, hb.requests, hb.history⟩

/-- Settles O9: `built_constructOp` with one of them missing. -/
theorem constructFailsCleanly : Obligations.ConstructFailsCleanly := by
  refine ⟨fun s hp ha => ?_, fun s hp => exec_construct_operational hp⟩
  have hfail : (acquireBoth s).1 = false := by
    rw [acquireBoth_fst, Bool.and_eq_false_iff]
    exact ha
  have hb := built_constructOp s
  rw [hfail] at hb
  exact ⟨_, exec_construct_idle hp, hb.phase, hb.fault, hb.initXfer, by simpa using hb.lastUpdate, hb.cs, hb.lastWait,
    hb.trace, hb.responses, hb.cfg, hb.clockOfFailed rfl, hb.requests⟩

/-! ## Teardown (R453) -/

theorem exec_teardown_operational {s : State} (hp : s.phase = .operational) :
    exec .teardown s = .next (teardownOp s) := by
  simp only [exec, execTeardown, if_pos hp]

theorem exec_teardown_refused {s : State} (hp : s.phase ≠ .operational) :
    exec .teardown s = .next (refusedWith .fState s) := by
  simp only [exec, execTeardown, if_neg hp]
  rfl

/-- Settles O10, by the phase. -/
theorem teardownReleasesTheInstance : Obligations.TeardownReleasesTheInstance :=
  ⟨fun _ hp => exec_teardown_operational hp, fun _ hp => exec_teardown_refused hp⟩

/-! ## How a request can end -/

/-- The ways a request takes a state `s` to a state `t`. -/
inductive Ends (i : Instr) (s t : State) : Prop
  /-- the code already recorded, answered again (R413) -/
  | again (c : FaultCode) (recorded : s.fault = some c) (eq : t = answeredWith (.fault c) s)
  /-- refused with a code (R410) -/
  | refused (c : FaultCode) (eq : t = refusedWith c s)
  /-- admitted, with its effect -/
  | effect (r : Response) (evs : List Event) (ready : Ready s) (eff : Effect i s t r evs)
  /-- a teardown (R453) -/
  | torn (instr : i = .teardown) (eq : t = teardownOp s)
  /-- a construction (R450, R452) -/
  | built (ok : Bool) (instr : i = .construct) (inst : Built ok s t)

theorem lifecycle_cases {i : Instr} (hi : isLifecycle i = true) : i = .construct ∨ i = .teardown := by
  cases i
  case construct => exact .inl rfl
  case teardown => exact .inr rfl
  all_goals cases hi

theorem exec_ends (i : Instr) (s : State) : ∃ t, exec i s = .next t ∧ Ends i s t := by
  cases hi : isLifecycle i with
  | false =>
    obtain ⟨body, hb⟩ := exec_admits i hi s
    refine ⟨_, hb, ?_⟩
    rcases exec_outcomes i hi s _ hb with ⟨c, -, hf, e⟩ | ⟨c, e⟩ | ⟨hr, r, evs, he⟩
    · exact .again c hf e
    · exact .refused c e
    · exact .effect r evs hr he
  | true =>
    by_cases hp : s.phase = .operational
    · rcases lifecycle_cases hi with rfl | rfl
      · exact ⟨_, exec_construct_operational hp, .refused _ rfl⟩
      · exact ⟨_, exec_teardown_operational hp, .torn rfl rfl⟩
    · rcases lifecycle_cases hi with rfl | rfl
      · exact ⟨_, exec_construct_idle hp, .built _ rfl (built_constructOp s)⟩
      · exact ⟨_, exec_teardown_refused hp, .refused _ rfl⟩

theorem ends_of_exec {i : Instr} {s t : State} (h : exec i s = .next t) : Ends i s t := by
  obtain ⟨u, hu, he⟩ := exec_ends i s
  rw [hu] at h
  cases h
  exact he

/-! ## Admission and faults (R410, R413, R421, R422) -/

/-- Settles O12: admission looks at the phase first. -/
theorem wrongPhaseIsRefused : Obligations.WrongPhaseIsRefused := fun _ _ hi hp => exec_wrongPhase hi hp

/-- Settles O13: admission looks at the recorded fault second. -/
theorem recordedFaultAnswersAgain : Obligations.RecordedFaultAnswersAgain := fun _ _ _ hi hp hf => exec_recorded hi hp hf

/-- Settles O11: of the ways a request can end only a construction leaves no fault where one was recorded; after a
teardown the phase admits a construction (O8). -/
theorem onlyANewInstanceClearsAFault : Obligations.OnlyANewInstanceClearsAFault := by
  refine ⟨fun i s t h hs ht => ?_, fun s t hp h ha₁ ha₂ => ?_⟩
  · cases ends_of_exec h with
    | again c hf e =>
      rw [e] at ht
      exact absurd ht hs
    | refused c e =>
      rw [e] at ht
      cases ht
    | effect r evs hr he => exact absurd (he.ext.fault.symm.trans ht) hs
    | torn hi e =>
      rw [e] at ht
      exact absurd ht hs
    | built ok hi hb => exact hi
  · rw [exec_teardown_operational hp] at h
    cases h
    obtain ⟨u, hu, hphase, hfault, -, -, -, -, htrace, -⟩ := constructBuildsAnInstance _ (by simp [teardownOp]) ha₁ ha₂
    exact ⟨u, hu, ⟨hphase, hfault⟩, htrace⟩

theorem fitsRequest_fault (i : Instr) (c : FaultCode) : fitsRequest i (.fault c) = true := by
  cases i <;> rfl

/-- Settles O14, by cases on how the request ends. -/
theorem eachRequestGetsOneResponse : Obligations.EachRequestGetsOneResponse := by
  intro i s
  obtain ⟨t, ht, he⟩ := exec_ends i s
  cases he with
  | again c hf e => exact ⟨t, .fault c, ht, by rw [e]; rfl, fitsRequest_fault i c⟩
  | refused c e => exact ⟨t, .fault c, ht, by rw [e]; rfl, fitsRequest_fault i c⟩
  | effect r evs hr he => exact ⟨t, r, ht, he.ext.responses, he.fits⟩
  | torn hi e => exact ⟨t, .unit, ht, by rw [e]; rfl, by rw [hi]; rfl⟩
  | built ok hi hb => exact ⟨t, .bool ok, ht, hb.responses, by rw [hi]; rfl⟩

/-- The response that was added is told by the responses it ends. -/
theorem response_unique {s t : State} {r r' : Response} (h : t.responses = s.responses ++ [r])
    (h' : t.responses = s.responses ++ [r']) : r = r' := by
  simpa using h.symm.trans h'

/-- Settles O15: only a recorded fault and a refusal answer a code, and both leave the state as before. -/
theorem faultsLeaveTheStateAsBefore : Obligations.FaultsLeaveTheStateAsBefore := by
  intro i s t c h hr
  cases ends_of_exec h with
  | again c' hf e =>
    cases response_unique hr (by rw [e]; rfl : t.responses = s.responses ++ [.fault c'])
    rw [e, refusedWith, ← hf]
    rfl
  | refused c' e =>
    cases response_unique hr (by rw [e]; rfl : t.responses = s.responses ++ [.fault c'])
    exact e
  | effect r evs _ he => exact absurd (response_unique he.ext.responses hr) (he.answers c)
  | torn hi e => cases response_unique hr (by rw [e]; rfl : t.responses = s.responses ++ [.unit])
  | built ok hi hb => cases response_unique hr hb.responses

/-! ## Who writes what (10_state.md, section 3) -/

/-- Settles O16, by cases on how the request ends; an effect names the writers of `last_update` and `init_xfer`. -/
theorem fieldsHaveTheirWriters : Obligations.FieldsHaveTheirWriters := by
  intro i s t h
  cases ends_of_exec h with
  | again c hf e =>
    subst e
    exact ⟨absurd rfl, absurd rfl, absurd rfl, rfl, rfl, Nat.le_refl _, fun _ => ⟨rfl, [], (List.append_nil _).symm⟩⟩
  | refused c e =>
    subst e
    exact ⟨absurd rfl, absurd rfl, absurd rfl, rfl, rfl, Nat.le_refl _, fun _ => ⟨rfl, [], (List.append_nil _).symm⟩⟩
  | effect r evs hr he =>
    refine ⟨absurd he.ext.phase, fun hne => ?_, fun hne => ?_, he.ext.cfg, he.ext.requests, he.ext.clock,
      fun _ => ⟨he.ext.history, evs, he.ext.trace⟩⟩
    · rcases he.lastUpdate with ⟨hu, -⟩ | ⟨hu, -⟩
      · exact absurd hu hne
      · exact .inl hu
    · rcases he.initXfer with hx | hx
      · exact absurd hx hne
      · exact .inl hx
  | torn hi e =>
    subst hi e
    exact ⟨fun _ => rfl, absurd rfl, absurd rfl, rfl, rfl, Nat.le_refl _,
      fun _ => ⟨rfl, [], (List.append_nil _).symm⟩⟩
  | built ok hi hb =>
    subst hi
    exact ⟨fun _ => rfl, fun _ => .inr rfl, fun _ => .inr rfl, hb.cfg, hb.requests, hb.clock, absurd rfl⟩

/-- Settles O17, by cases on how the request ends; no pure request is a construction or a teardown. -/
theorem pureRequestsOnlyAnswer : Obligations.PureRequestsOnlyAnswer := by
  intro i s t hp h
  cases ends_of_exec h with
  | again c hf e => exact .inl ⟨_, e⟩
  | refused c e => exact .inr ⟨c, e⟩
  | effect r evs hr he => exact .inl ⟨r, he.onlyAnswers hp⟩
  | torn hi e =>
    subst hi
    cases hp
  | built ok hi hb =>
    subst hi
    cases hp

/-- Settles O19: only an effect appends events, and it counts them. -/
theorem transactionsAreBounded : Obligations.TransactionsAreBounded := by
  intro i s t hne h
  cases ends_of_exec h with
  | again c hf e => exact ⟨[], by rw [e]; exact (List.append_nil _).symm, Nat.zero_le _, Nat.zero_le _⟩
  | refused c e => exact ⟨[], by rw [e]; exact (List.append_nil _).symm, Nat.zero_le _, Nat.zero_le _⟩
  | effect r evs hr he => exact ⟨evs, he.ext.trace, he.sends, he.exchanges⟩
  | torn hi e => exact ⟨[], by rw [e]; exact (List.append_nil _).symm, Nat.zero_le _, Nat.zero_le _⟩
  | built ok hi hb => exact absurd hi hne

/-! ## What is written and never read (R78, R80) -/

theorem acquireBoth_veil (lw : Option WaitOutcome) (tr : List Event) (hi : List (List Event)) (rs : List Response)
    (s : State) : acquireBoth (veil lw tr hi rs s) = ((acquireBoth s).1, veil lw tr hi rs (acquireBoth s).2) := by
  have hacq : acquire (veil lw tr hi rs s) = ((acquire s).1, veil lw tr hi rs (acquire s).2) := rfl
  unfold acquireBoth
  dsimp only
  rw [hacq]
  dsimp only
  split <;> rfl

theorem constructed_veil (lw : Option WaitOutcome) (tr : List Event) (hi : List (List Event)) (rs : List Response)
    (s : State) : constructed (veil lw tr hi rs s) =
      { constructed s with history := archive (veil lw tr hi rs s), responses := rs } := by
  have hcfg : (veil lw tr hi rs s).cfg = s.cfg := rfl
  unfold constructed
  rw [hcfg]
  cases s.cfg.tsReset <;> rfl

/-- A construction reads the old trace for the past traces only. -/
theorem constructOp_veil (lw : Option WaitOutcome) (tr : List Event) (s : State) :
    ∃ hi, constructOp (veil lw tr s.history s.responses s) = { constructOp s with history := hi } := by
  have hresp : (acquireBoth s).2.responses = s.responses := by rw [acquireBoth_eq]
  refine ⟨archive (veil lw tr s.history s.responses (acquireBoth s).2), ?_⟩
  have hveil := acquireBoth_veil lw tr s.history s.responses s
  cases ha : (acquireBoth s).1 with
  | true =>
    have hc : (constructed (acquireBoth s).2).responses = s.responses := by
      rcases constructed_cases (acquireBoth s).2 with h | h <;> rw [h] <;> exact hresp
    rw [constructOp_acquired ha, constructOp_acquired (by rw [hveil, ha]), hveil, constructed_veil]
    simp only [respond, hc]
  | false =>
    rw [constructOp_missing ha, constructOp_missing (by rw [hveil, ha]), hveil]
    simp only [respond, newInstance, veil, hresp]

/-- A refusal appends no event, to either trace. -/
theorem refused_veil (c : FaultCode) (lw : Option WaitOutcome) (tr : List Event) (s : State) :
    ∃ evs, (refusedWith c s).trace = s.trace ++ evs ∧
      (refusedWith c (veil lw tr s.history s.responses s)).trace = tr ++ evs :=
  ⟨[], by simp [refusedWith], by simp [refusedWith, veil]⟩

/-- Settles O18: an admitted request's body is blind (`exec_blind`); a teardown and a construction keep the trace they are
given, the construction among the past traces. -/
theorem traceAndLastWaitAreNeverRead : Obligations.TraceAndLastWaitAreNeverRead := by
  intro i s t lw tr h
  change ∃ t', exec i (veil lw tr s.history s.responses s) = .next t' ∧ _
  cases hi : isLifecycle i with
  | false =>
    obtain ⟨body, hblind, hs, hv⟩ := exec_blind i hi s
    rw [hs] at h
    obtain ⟨lw', evs, rs', hv', ha⟩ := admit_blind body hblind s t lw tr s.history s.responses h
    refine ⟨_, (hv _ _ _ _).trans hv', ?_, fun _ => ⟨ha.history.symm, evs, ha.trace, rfl⟩⟩
    rw [← ha.responses]
    rfl
  | true =>
    by_cases hp : s.phase = .operational
    · have hp' : (veil lw tr s.history s.responses s).phase = .operational := hp
      rcases lifecycle_cases hi with rfl | rfl
      · cases (exec_construct_operational hp).symm.trans h
        exact ⟨_, exec_construct_operational hp', rfl, absurd rfl⟩
      · cases (exec_teardown_operational hp).symm.trans h
        exact ⟨_, exec_teardown_operational hp', rfl,
          fun _ => ⟨rfl, [], by simp [teardownOp], by simp [teardownOp, veil]⟩⟩
    · have hp' : (veil lw tr s.history s.responses s).phase ≠ .operational := hp
      rcases lifecycle_cases hi with rfl | rfl
      · cases (exec_construct_idle hp).symm.trans h
        obtain ⟨past, hc⟩ := constructOp_veil lw tr s
        exact ⟨_, exec_construct_idle hp', by rw [hc], absurd rfl⟩
      · cases (exec_teardown_refused hp).symm.trans h
        exact ⟨_, exec_teardown_refused hp', rfl, fun _ => ⟨rfl, refused_veil _ lw tr s⟩⟩

/-! ## The step and its invariant -/

theorem step_of_request {s : State} {i : Instr} {rest : List Instr} (hs : s.requests = i :: rest) :
    step s = if i.wf then exec i { s with requests := rest } else .fault .illFormedRequest := by
  simp only [step, fetch, hs]

theorem step_idle {s : State} (hs : s.requests = []) : step s = .next s := by
  simp only [step, fetch, hs, idle]

/-- Settles O4: a placed word's request is at the head of the port. -/
theorem stepRunsTheHostsRequest : Obligations.StepRunsTheHostsRequest := by
  refine ⟨fun s i rest hs hw => by rw [step_of_request hs, if_pos hw], fun s nbits w i hd hw => ?_⟩
  have hplaced : s.withFetchWord nbits w = offer i s := by rw [State.withFetchWord, hd]
  rw [hplaced, step_of_request (offer_requests i s), if_pos hw]
  rfl

/-- Settles O5, by the two other ways a step can go. -/
theorem stepWithoutARequest : Obligations.StepWithoutARequest :=
  ⟨fun _ hs => step_idle hs, fun s i rest hs hw => by rw [step_of_request hs, if_neg (by simp [hw])]⟩

/-- What a construction writes to `last_update` (R26, R450), as the statement on reset spells it out. -/
theorem stampAtReset_eq (p : Params) (t : Nat) :
    stampAtReset p t = if p.tsReset = .never then .never else .time t := by
  unfold stampAtReset
  cases p.tsReset <;> rfl

/-- Settles O6; only the stamp depends on a parameter. -/
theorem resetHoldsTheSpecsValues : Obligations.ResetHoldsTheSpecsValues :=
  ⟨rfl, rfl, rfl, stampAtReset_eq _ _, rfl, rfl, rfl⟩

/-- Settles O7: the one stamp a reset can hold is its own clock's reading. -/
theorem resetMeetsInvariant : Obligations.ResetMeetsInvariant := by
  refine ⟨rfl, fun u hu => ?_, nofun, fun _ => rfl⟩
  change stampAtReset Config.params Config.clockAtReset = .time u at hu
  rw [stampAtReset_eq] at hu
  split at hu
  · cases hu
  · cases hu
    exact Nat.le_refl _

/-- A construction leaves an empty trace, and a stamp, where it leaves one, that is the clock's last reading. -/
theorem Built.inv {ok : Bool} {s t : State} (h : Built ok s t) : Inv t := by
  refine ⟨h.cs, fun u hu => ?_, by rw [h.trace]; nofun, fun _ => h.trace⟩
  rw [h.lastUpdate] at hu
  split at hu
  · cases hu
  · cases hu
    exact Nat.le_refl _

/-- An admitted request runs in `Operational`, appends legal events, and stamps a reading of its own. -/
theorem Effect.keeps_inv {i : Instr} {s t : State} {r : Response} {evs : List Event} (he : Effect i s t r evs)
    (hr : Ready s) (hs : Inv s) : Inv t where
  deselected := he.cs.elim (fun hc => hc.trans hs.deselected) id
  stampPast := by
    intro u hu
    rcases he.lastUpdate with ⟨hl, -⟩ | ⟨-, v, hl, -, hv⟩
    · exact (hs.stampPast u (hl.symm.trans hu)).trans he.ext.clock
    · cases hl.symm.trans hu
      exact hv
  legal := by
    rw [he.ext.trace, he.ext.cfg]
    exact legal_append hs.legal he.legal
  unbuilt := by
    rw [he.ext.phase, hr.1]
    nofun

theorem exec_keeps_inv {i : Instr} {s t : State} (h : exec i s = .next t) (hs : Inv s) : Inv t := by
  cases ends_of_exec h with
  | again c hf e => exact e ▸ ⟨hs.deselected, hs.stampPast, hs.legal, hs.unbuilt⟩
  | refused c e => exact e ▸ ⟨hs.deselected, hs.stampPast, hs.legal, hs.unbuilt⟩
  | effect r evs hr he => exact he.keeps_inv hr hs
  | torn hi e => exact e ▸ ⟨rfl, hs.stampPast, hs.legal, nofun⟩
  | built ok hi hb => exact hb.inv

/-- Settles O20: a step waits, or runs a request, which keeps the invariant however it ends. -/
theorem stepKeepsInvariant : Obligations.StepKeepsInvariant := by
  intro s t hs h
  cases hreq : s.requests with
  | nil =>
    rw [step_idle hreq] at h
    cases h
    exact hs
  | cons i rest =>
    rw [step_of_request hreq] at h
    split at h
    · exact exec_keeps_inv h ⟨hs.deselected, hs.stampPast, hs.legal, hs.unbuilt⟩
    · cases h

end Sys2Proof.Machine

/-!
PROOFS of the statements of 41_framer.md and 45_sequences.md: the framer's commands and the orchestrator's sequences of them.
-/

namespace Sys2Proof.Machine

theorem Quiet.trans {s t u : State} (h : Quiet s t) (k : Quiet t u) : Quiet s u :=
  ⟨k.initXfer.trans h.initXfer, k.lastUpdate.trans h.lastUpdate, k.cs⟩

theorem Quiet.respond {s t : State} (h : Quiet s t) (r : Response) : Quiet s (respond r t) :=
  ⟨h.initXfer, h.lastUpdate, h.cs⟩

/-! ## Simple commands (R230, R231, R233, R354 to R357) -/

/-- Everything the body of an erase can do (R231). -/
theorem eraseOp_spec (slot : Byte) (s : State) :
    ∃ t o w, eraseOp slot s = t ∧ Extends s t (.txn .send [0x20, 0x0E, slot] [] :: w) [] ∧
      WaitTrace s.cfg s.cfg.tLong o s.mark t.mark w ∧ Quiet s t ∧ t.panel = s.panel := by
  obtain ⟨o, t, w, h, hw, hs, -⟩ := waitForBusy_spec s.cfg.tLong (send (simpleFrame 0x20 0x0E slot) s)
  exact ⟨t, o, w, congrArg Prod.snd h, (extends_send _ s).andThen hs.ext, hw, ⟨hs.initXfer, hs.lastUpdate, hs.cs⟩,
    hs.panel⟩

/-- Settles O21, by `eraseOp_spec`. -/
theorem eraseSendsItsFrameAndWaits : Obligations.EraseSendsItsFrameAndWaits := by
  intro s slot hr
  obtain ⟨t, o, w, rfl, he, hw, hq, hp⟩ := eraseOp_spec slot s
  exact ⟨_, o, w, exec_erase_ready hr slot, he.andRespond _, hw, hq.respond _, hp⟩

/-- Settles O52, by `eraseOp_spec` with the parameter's slot. -/
theorem erasePSendsTheEraseFrame : Obligations.ErasePSendsTheEraseFrame := by
  intro s hr
  obtain ⟨t, o, w, rfl, he, hw, hq, hp⟩ := eraseOp_spec s.cfg.slotErase s
  exact ⟨_, o, w, exec_eraseP_ready hr, he.andRespond _, hw, hq.respond _, hp⟩

/-- What the statements say of a request whose body is an update operation. -/
theorem exec_update_spec {i : Instr} {op slot : Byte} {s : State}
    (h : exec i s = .next (respond .unit (updateCmd op slot s))) :
    ∃ t o w, exec i s = .next t ∧ Extends s t (.txn .send [op, 0x01, slot] [] :: w) [.unit] ∧
      WaitTrace s.cfg s.cfg.tLong o ⟨(readClock s).1, s.lastWait⟩ t.mark w ∧ t.lastUpdate = .time (readClock s).1 ∧
      (readClock s).1 ≤ t.clock ∧ t.initXfer = s.initXfer ∧ t.cs = .deselected ∧ t.panel = s.panel := by
  obtain ⟨t, o, w, rfl, hw, he, hu, hc, hx, hcs, hp⟩ := updateCmd_spec op slot s
  exact ⟨_, o, w, h, he.andRespond _, hw, hu, hc, hx, hcs, hp⟩

/-- Settles O22: each of the three is one update operation with its own opcode. -/
theorem updatesSendStampAndWait : Obligations.UpdatesSendStampAndWait := by
  rintro s slot hr i op (⟨rfl, rfl⟩ | ⟨rfl, rfl⟩ | ⟨rfl, rfl⟩)
  · exact exec_update_spec (exec_updFull_ready hr slot)
  · exact exec_update_spec (exec_updFl_ready hr slot)
  · exact exec_update_spec (exec_updFlinv_ready hr slot)

/-- Settles O53: each of the three is one update operation with the parameter's slot. -/
theorem updatePseudoOperationsSendTheirFrames : Obligations.UpdatePseudoOperationsSendTheirFrames := by
  rintro s hr i op (⟨rfl, rfl⟩ | ⟨rfl, rfl⟩ | ⟨rfl, rfl⟩)
  · exact exec_update_spec (exec_updateP_ready hr)
  · exact exec_update_spec (exec_updateFlP_ready hr)
  · exact exec_update_spec (exec_updateFlinvP_ready hr)

/-! ## Parameterized commands (R234 to R238) -/

/-- Everything a parameterized command can do (R234). -/
theorem paramCmd_spec (sub slot : Byte) (payload : List Byte) (T : Nat) (s : State) :
    ∃ t c evs, (paramCmd sub slot payload T s).2 = t ∧ Extends s t evs [] ∧
      CommandTrace s.cfg (paramFrame s.cfg.opParam sub slot payload) T c s.mark t.mark evs ∧ Quiet s t := by
  obtain ⟨c, t, evs, h, hc, he, hq, -⟩ := command_spec (paramFrame s.cfg.opParam sub slot payload) T s
  exact ⟨t, c, evs, congrArg Prod.snd h, he, hc, hq⟩

/-- What the statements say of a request whose body is one parameterized command. -/
theorem exec_param_spec {i : Instr} {s : State} {sub slot : Byte} {payload : List Byte} {T : Nat}
    (h : exec i s = .next (respond .unit (paramCmd sub slot payload T s).2)) :
    ∃ t c evs, exec i s = .next t ∧ Extends s t evs [.unit] ∧
      CommandTrace s.cfg (paramFrame s.cfg.opParam sub slot payload) T c s.mark t.mark evs ∧ Quiet s t := by
  obtain ⟨t, c, evs, rfl, he, hc, hq⟩ := paramCmd_spec sub slot payload T s
  exact ⟨_, c, evs, h, he.andRespond _, hc, hq.respond _⟩

theorem roiCheck_of_some {p : Params} {x y w h : Nat} {f : Nat × Nat × Nat × Nat} (hf : roiFields p x y w h = some f) :
    roiCheck p x y w h = .ok f := by
  rw [roiCheck, hf]

theorem roiCheck_of_none {p : Params} {x y w h : Nat} (hf : roiFields p x y w h = none) :
    roiCheck p x y w h = .error .fRange := by
  rw [roiCheck, hf]

theorem roiFields_eq_none {p : Params} {x y w h : Nat}
    (hn : ¬((p.roiInclusive = true → 0 < w ∧ 0 < h) ∧ x < 65536 ∧ x + w - roiEnd p < 65536 ∧ y < 65536 ∧
      y + h - roiEnd p < 65536)) : roiFields p x y w h = none :=
  Option.eq_none_iff_forall_ne_some.2 fun _ hf => hn (roiFields_some hf).2

/-- Settles O23: `roiFields` decides, and the command carries its fields. -/
theorem roiSetSendsTheWindow : Obligations.RoiSetSendsTheWindow := by
  intro s slot x y w h hr
  have hexec := exec_roiSet_ready hr slot x y w h
  refine ⟨fun ⟨hin, hx, hxw, hy, hyh⟩ => ?_, fun hn => ?_⟩
  · rw [checked_ok (roiCheck_of_some (roiFields_eq_some hin hx hxw hy hyh))] at hexec
    exact exec_param_spec hexec
  · rwa [checked_error (roiCheck_of_none (roiFields_eq_none hn))] at hexec

theorem exec_fillVal_refused {s : State} (hr : Ready s) (slot : Byte) {v : Byte} (hv : ¬(v = 0x00 ∨ v = 0xFF)) :
    exec (.fillVal slot v) s = .next (refusedWith .fValue s) := by
  have hc : fillCheck v = .error .fValue := if_neg fun h => hv ((isFillByte_iff v).1 h)
  exact (admit_ready hr _).trans (congrArg _ (checked_error hc _ s))

/-- Settles O24: `fillCheck` decides between the command and the refusal. -/
theorem fillValSendsOneOfTwoValues : Obligations.FillValSendsOneOfTwoValues := fun _ slot _ hr =>
  ⟨fun hv => exec_param_spec (exec_fillVal_ready hr slot hv), fun hv => exec_fillVal_refused hr slot hv⟩

/-- Settles O25: one parameterized command, with no check before it. -/
theorem copySlotSendsBothSlots : Obligations.CopySlotSendsBothSlots := fun _ slot src hr =>
  exec_param_spec (exec_copySlot_ready hr slot src)

/-- Settles O26: one parameterized command, with no check before it. -/
theorem dpResetSendsOnce : Obligations.DpResetSendsOnce := fun _ slot hr => exec_param_spec (exec_dpReset_ready hr slot)

/-! ## Image packets (R241) -/

theorem exec_imgPkt_ready {s : State} (hr : Ready s) (init : Byte) {payload : List Byte} (hl : payload.length ≤ 255) :
    exec (.imgPkt init payload) s =
      .next (respond (.bool (imgPktOp init payload s).1) (imgPktOp init payload s).2) := by
  have hc : payloadCheck payload = .ok payload := if_neg (by omega)
  exact (admit_ready hr _).trans (congrArg _ (checked_ok hc _ s))

theorem exec_imgPkt_refused {s : State} (hr : Ready s) (init : Byte) {payload : List Byte}
    (hl : 255 < payload.length) : exec (.imgPkt init payload) s = .next (refusedWith .fLen s) := by
  have hc : payloadCheck payload = .error .fLen := if_pos hl
  exact (admit_ready hr _).trans (congrArg _ (checked_error hc _ s))

/-- Settles O27: `payloadCheck` decides between the retried command and the refusal. -/
theorem imgPktRetriesUntilSuccess : Obligations.ImgPktRetriesUntilSuccess := by
  refine fun s init payload hr => ⟨fun hl => ?_, fun hl => exec_imgPkt_refused hr init hl⟩
  obtain ⟨ok, t, evs, h, ht, he, hx, hset⟩ := imgPktOp_spec init payload s
  have hexec := exec_imgPkt_ready hr init hl
  rw [h] at hexec
  exact ⟨_, ok, evs, hexec, he.andRespond _, ht, ⟨hx, hset.lastUpdate, hset.cs⟩⟩

/-! ## Image packets with scripted draws (95_test_vectors.md V1.3) -/

theorem extends_waitCleared (s : State) : Extends s (waitCleared s) [] [] :=
  ⟨by simp, by simp, rfl, rfl, rfl, rfl, rfl, rfl, Nat.le_refl _⟩

/-- A frame, its wait and its status read, where the line is inactive and the panel answers with `a`, `b`: one sample, one
exchange, and the class of the pair. -/
theorem command_scripted (frame : List Byte) (T : Nat) {s : State} {ls : List Level} {a b : Byte} {bs : List Byte}
    {c : StatusClass} (hl : s.line.script = inactiveLevel s.cfg :: ls) (hp : s.panel.script = a :: b :: bs)
    (hc : answered (classifyPair a b) = some c) :
    ∃ u, statusReadOp (waitForBusy T (send frame s)).2 = (c, u) ∧ u.line.script = ls ∧ u.panel.script = bs ∧
      Extends s u ([.txn .send frame [], .pinRead .busy (inactiveLevel s.cfg), exchangeEvent (a, b)] ++ statusLog c)
        [] := by
  have hl' : (readClock (send frame s)).2.line.script = inactiveLevel s.cfg :: ls := hl
  obtain ⟨-, hline, hsample⟩ := sample_scripted hl'
  have hp' : (waitCleared (sample (readClock (send frame s)).2).2).panel.script = a :: b :: bs := hp
  obtain ⟨-, hpanel, hexchange⟩ := exchange_scripted hp'
  refine ⟨_, ?_, ?_, ?_, ((((extends_send frame s).andThen (extends_readClock _)).andThen hsample).andThen
    (extends_waitCleared _)).andThen (hexchange.andThen (extends_statusEnd c _))⟩
  · rw [waitForBusy_cleared (s := send frame s) hl]
    exact statusLoop_answered hp' hc
  · rw [statusEnd_line]
    exact hline
  · rw [statusEnd_panel]
    exact hpanel

theorem imgPktLoop_success {frame : List Byte} {n : Nat} {s u : State}
    (h : statusReadOp (waitForBusy s.cfg.tShort (send frame s)).2 = (.success, u)) :
    imgPktLoop frame (n + 1) s = (true, u) := by
  rw [imgPktLoop, h]
  rfl

theorem imgPktLoop_retry {frame : List Byte} {n : Nat} {s u : State} {c : StatusClass} (hc : c ≠ .success)
    (h : statusReadOp (waitForBusy s.cfg.tShort (send frame s)).2 = (c, u)) :
    imgPktLoop frame (n + 1) s = imgPktLoop frame n u := by
  rw [imgPktLoop, h]
  exact if_neg hc

/-- Settles O28: two attempts answered with the specific error B, then one answered with success. -/
theorem imgPktSucceedsAfterTwoRetries : Obligations.ImgPktSucceedsAfterTwoRetries := by
  intro s init payload ls bs hr hlen hl hp
  obtain ⟨u₁, h₁, hl₁, hp₁, e₁⟩ := command_scripted (imageFrame init payload) s.cfg.tShort (c := .errB) hl hp rfl
  rw [← e₁.cfg] at hl₁
  obtain ⟨u₂, h₂, hl₂, hp₂, e₂⟩ := command_scripted (imageFrame init payload) u₁.cfg.tShort (c := .errB) hl₁ hp₁ rfl
  rw [← e₂.cfg] at hl₂
  obtain ⟨u₃, h₃, hl₃, hp₃, e₃⟩ := command_scripted (imageFrame init payload) u₂.cfg.tShort (c := .success) hl₂ hp₂ rfl
  have hexec := exec_imgPkt_ready hr init hlen
  rw [imgPktOp, imgPktLoop_retry (c := .errB) nofun h₁, imgPktLoop_retry (c := .errB) nofun h₂, imgPktLoop_success h₃] at hexec
  have e := (e₁.andThen (e₂.andThen e₃)).andRespond (.bool true)
  rw [e₂.cfg, e₁.cfg] at e
  exact ⟨_, hexec, hp₃, hl₃, e⟩

/-! ## Sequences (R351 to R353, R358) -/

/-- The ROI frame, then a second parameterized command, whatever the first one's status. -/
theorem roiSetOp_then_paramCmd (f : Nat × Nat × Nat × Nat) (sub slot : Byte) (payload : List Byte) (s : State) :
    ∃ t m c₁ e₁ c₂ e₂,
      (paramCmd sub slot payload (roiSetOp (s.cfg.slot .roi) f s).cfg.tMedium (roiSetOp (s.cfg.slot .roi) f s)).2 = t ∧
      Extends s t (e₁ ++ e₂) [] ∧
      CommandTrace s.cfg (paramFrame s.cfg.opParam 0x0A (s.cfg.slot .roi) (roiPayload f)) s.cfg.tMedium c₁ s.mark m e₁ ∧
      CommandTrace s.cfg (paramFrame s.cfg.opParam sub slot payload) s.cfg.tMedium c₂ m t.mark e₂ ∧ Quiet s t := by
  obtain ⟨u, c₁, e₁, hu, he₁, hc₁, hq₁⟩ := paramCmd_spec 0x0A (s.cfg.slot .roi) (roiPayload f) s.cfg.tMedium s
  obtain ⟨t, c₂, e₂, ht, he₂, hc₂, hq₂⟩ := paramCmd_spec sub slot payload u.cfg.tMedium u
  rw [he₁.cfg] at hc₂
  rw [roiSetOp, hu]
  exact ⟨t, u.mark, c₁, e₁, c₂, e₂, ht, he₁.andThen he₂, hc₁, hc₂, hq₁.trans hq₂⟩

/-- What the statements say of a request that checks its window, sends the ROI frame and then a second command. -/
theorem exec_roi_then_spec {i : Instr} {s : State} {x y w h : Nat} {sub slot : Byte} {payload : List Byte}
    {run : Nat × Nat × Nat × Nat → State → State} (hi : exec i s = .next (checked (roiCheck s.cfg x y w h) run s))
    (hrun : ∀ f, run f s = respond .unit (paramCmd sub slot payload (roiSetOp (s.cfg.slot .roi) f s).cfg.tMedium
      (roiSetOp (s.cfg.slot .roi) f s)).2) :
    (∀ f, roiFields s.cfg x y w h = some f →
      ∃ t m c₁ e₁ c₂ e₂, exec i s = .next t ∧ Extends s t (e₁ ++ e₂) [.unit] ∧
        CommandTrace s.cfg (paramFrame s.cfg.opParam 0x0A (s.cfg.slot .roi) (roiPayload f)) s.cfg.tMedium c₁ s.mark m
          e₁ ∧
        CommandTrace s.cfg (paramFrame s.cfg.opParam sub slot payload) s.cfg.tMedium c₂ m t.mark e₂ ∧ Quiet s t) ∧
      (roiFields s.cfg x y w h = none → exec i s = .next (refusedWith .fRange s)) := by
  refine ⟨fun f hf => ?_, fun hn => ?_⟩
  · obtain ⟨t, m, c₁, e₁, c₂, e₂, rfl, he, hc₁, hc₂, hq⟩ := roiSetOp_then_paramCmd f sub slot payload s
    rw [checked_ok (roiCheck_of_some hf), hrun] at hi
    exact ⟨_, m, c₁, e₁, c₂, e₂, hi, he.andRespond _, hc₁, hc₂, hq.respond _⟩
  · rwa [checked_error (roiCheck_of_none hn)] at hi

/-- The fill byte as R350's table has it: 0x00 exactly where the colour and the inversion agree. -/
theorem fillByte_eq (p : Params) (white : Bool) :
    fillByte p white = if white = p.fillInvert then 0x00 else 0xFF := by
  unfold fillByte
  cases white <;> cases p.fillInvert <;> rfl

/-- Settles O50: `FILL` is `FILL_ROI` of the whole panel. -/
theorem fillSetsTheWindowThenFills : Obligations.FillSetsTheWindowThenFills := by
  intro s x y w h white v hr hv i hi
  rw [← fillByte_eq] at hv
  subst hv
  have hexec : exec i s =
      .next (checked (roiCheck s.cfg x y w h) (fun f s => respond .unit (fillSeq f white s)) s) := by
    rcases hi with rfl | ⟨rfl, rfl, rfl, rfl, rfl⟩
    · exact exec_fillRoi_ready hr x y w h white
    · rw [exec_fill, exec_fillRoi_ready hr]
  exact exec_roi_then_spec hexec fun _ => rfl

/-- Settles O51: the source slot is the given one or the default. -/
theorem copyRoiSetsTheWindowThenCopies : Obligations.CopyRoiSetsTheWindowThenCopies := by
  intro s x y w h src b hr hb
  have hsrc : src.getD s.cfg.copyDefaultSrc = b := by
    rcases hb with rfl | ⟨rfl, rfl⟩ <;> rfl
  subst hsrc
  exact exec_roi_then_spec (exec_copyRoi_ready hr x y w h src) fun _ => rfl

end Sys2Proof.Machine

/-!
PROOFS of the statements of 42_status.md and 43_busy_timing.md: status reads, the busy query, and the two waits.
-/

namespace Sys2Proof.Machine

/-! ## Status reads (R272) -/

/-- Settles O30, by `statusReadOp_spec`. -/
theorem statusReadRetriesTheReadOnly : Obligations.StatusReadRetriesTheReadOnly := by
  intro s hr
  obtain ⟨c, t, evs, h, ht, he, hu⟩ := statusReadOp_spec s
  have hexec := exec_statusRead_ready hr
  rw [h] at hexec
  exact ⟨_, c, evs, hexec, he.andRespond _, ht, hu.initXfer, hu.lastUpdate, hu.cs, hu.lastWait, hu.clock, hu.ticks,
    hu.line⟩

/-- Not-ready answers are read again, one exchange each. -/
theorem statusLoop_notReadys {qs : List (Byte × Byte)} (hq : ∀ q ∈ qs, classifyPair q.1 q.2 = .notReady) (n : Nat)
    {rest : List Byte} {s : State} (hp : s.panel.script = qs.flatMap (fun a => [a.1, a.2]) ++ rest) :
    ∃ u, statusLoop (n + qs.length) s = statusLoop n u ∧ u.panel.script = rest ∧
      Extends s u (qs.map exchangeEvent) [] := by
  induction qs generalizing s with
  | nil => exact ⟨s, rfl, hp, extends_refl s⟩
  | cons q qs ih =>
    obtain ⟨hnr, hqs⟩ := List.forall_mem_cons.1 hq
    have hp' : s.panel.script = q.1 :: q.2 :: (qs.flatMap (fun a => [a.1, a.2]) ++ rest) := by simpa using hp
    obtain ⟨-, hrest, he⟩ := exchange_scripted hp'
    obtain ⟨u, h, hu, he'⟩ := ih hqs hrest
    exact ⟨u, (statusLoop_notReady hp' hnr).trans h, hu, he.andThen he'⟩

/-- Settles O31: the not-ready pairs are read first; what is left of the three exchanges decides. -/
theorem statusReadFollowsThePanel : Obligations.StatusReadFollowsThePanel := by
  refine fun s qs bs hr hq => ⟨fun q c hlen hc hp => ?_, fun hlen hp => ?_⟩
  · obtain ⟨u, h, hu, he⟩ := statusLoop_notReadys hq (2 - qs.length + 1) hp
    rw [show 2 - qs.length + 1 + qs.length = 3 by omega, statusLoop_answered hu hc] at h
    obtain ⟨-, hrest, he'⟩ := exchange_scripted hu
    have hexec := exec_statusRead_ready hr
    rw [statusReadOp, h] at hexec
    refine ⟨_, hexec, by simpa using hrest, ?_⟩
    exact (he.andThen (he'.andThen (extends_statusEnd c _))).andRespond (.status c)
  · obtain ⟨u, h, hu, he⟩ := statusLoop_notReadys hq 0 hp
    rw [hlen, statusLoop] at h
    have hexec := exec_statusRead_ready hr
    rw [statusReadOp, h] at hexec
    exact ⟨_, hexec, hu, (he.andThen (extends_logEvent .statusFail u)).andRespond (.status .generic)⟩

/-! ## The busy query (R292 to R294) -/

/-- Settles O32: the query reads the clock at or after the last update, so `busyAnswer_iff` applies. -/
theorem isBusyFiltersTheLine : Obligations.IsBusyFiltersTheLine := by
  intro s hr hpast
  obtain ⟨t, l, u, h, -, rfl, hle, he, hx, hu, hc, hw, hp, -⟩ := isBusyQuery_spec s
  have hexec := exec_isBusy_ready hr
  rw [h] at hexec
  have hiff := busyAnswer_iff (p := s.cfg) (q := (l, u.clock)) fun v hv => (hpast v hv).trans hle
  exact ⟨_, l, _, hexec, he.andRespond _, hiff, hx, hu, hc, hw, hp⟩

/-- Every request of the update family is one update operation. -/
theorem exec_isUpdate {i : Instr} {s : State} (hr : Ready s) (hi : isUpdate i = true) :
    ∃ op slot, exec i s = .next (respond .unit (updateCmd op slot s)) := by
  cases i
  case updFull slot => exact ⟨_, _, exec_updFull_ready hr slot⟩
  case updFl slot => exact ⟨_, _, exec_updFl_ready hr slot⟩
  case updFlinv slot => exact ⟨_, _, exec_updFlinv_ready hr slot⟩
  case updateP => exact ⟨_, _, exec_updateP_ready hr⟩
  case updateFlP => exact ⟨_, _, exec_updateFlP_ready hr⟩
  case updateFlinvP => exact ⟨_, _, exec_updateFlinvP_ready hr⟩
  all_goals cases hi

theorem Extends.ready {s t : State} {evs : List Event} {rs : List Response} (h : Extends s t evs rs) (hr : Ready s) :
    Ready t :=
  ⟨h.phase.trans hr.1, h.fault.trans hr.2⟩

/-- A busy query answers what R293 makes of the level it sampled and of the clock at its end. -/
theorem exec_isBusy_answers {t v : State} {l : Level} (hr : Ready t) (h : exec .isBusy t = .next v)
    (hl : v.trace = t.trace ++ [.pinRead .busy l]) :
    t.clock ≤ v.clock ∧ v.responses = t.responses ++ [.bool (busyAnswer t.cfg t.lastUpdate v.clock l)] := by
  obtain ⟨c, l', u, hq, -, rfl, hle, he, -⟩ := isBusyQuery_spec t
  rw [exec_isBusy_ready hr, hq] at h
  cases h
  have hll : l' = l := by simpa using he.trace.symm.trans hl
  subst hll
  exact ⟨hle, (he.andRespond _).responses⟩

/-- Settles O33: the update's stamp lies between the two clocks, and the query's answer is `busyAnswer` from it. -/
theorem updateStartsTheBlackout : Obligations.UpdateStartsTheBlackout := by
  intro i s t v l hr hi ht hv hl
  obtain ⟨op, slot, hexec⟩ := exec_isUpdate hr hi
  obtain ⟨t', o, w, ht', he, -, hu, hle, -⟩ := exec_update_spec hexec
  cases ht'.symm.trans ht
  obtain ⟨hc, hans⟩ := exec_isBusy_answers (he.ready hr) hv hl
  rw [hu, he.cfg] at hans
  have hiff := busyAnswer_iff (p := s.cfg) (lastUpdate := .time (readClock s).1) (q := (l, v.clock)) fun u hu => by
    cases hu
    exact hle.trans hc
  refine ⟨(readClock s).1, hu, le_readClock s, hle.trans hc, fun hlt => ?_, fun hge hline => ?_, fun hge => ?_⟩
  · rw [hans, hiff.2 ⟨_, rfl, .inl (by have := hle.trans hc; show v.clock - _ < _; omega)⟩]
  · have hnot : busyAnswer s.cfg (.time (readClock s).1) v.clock l = false := by
      rw [← Bool.not_eq_true, hiff]
      rintro ⟨u, hu, hlt | ⟨hact, -⟩⟩
      · cases hu
        dsimp only at hlt
        omega
      · have hne : lineActive s.cfg (activeLevel s.cfg) = false := by
          rw [← show l = activeLevel s.cfg from hact, hline, lineActive_inactive]
        rw [lineActive_active] at hne
        cases hne
    rw [hans, hnot]
  · rw [hans, busyAnswer_late _ _ _ _ hge]

/-! ## Waits (R295, R296) -/

/-- Settles O34, by `waitForBusy_spec`. -/
theorem waitBusyPollsUntilClearOrBound : Obligations.WaitBusyPollsUntilClearOrBound := by
  intro s T hr
  obtain ⟨o, t, w, h, hw, hs, hT⟩ := waitForBusy_spec T s
  have hexec := exec_waitBusy_ready hr T
  rw [h] at hexec
  exact ⟨_, o, w, hexec, hs.ext.andRespond _, hw, hs.lastWait, hT, hs.initXfer, hs.lastUpdate, hs.cs, hs.panel⟩

theorem waitLoop_cleared {T start n : Nat} {s : State} {ls : List Level}
    (hl : s.line.script = inactiveLevel s.cfg :: ls) :
    waitLoop T start (n + 1) s = (.cleared, waitCleared (sample s).2) := by
  rw [waitLoop, (sample_scripted hl).1, lineActive_inactive]
  rfl

theorem waitLoop_timedOut {T start n : Nat} {s : State} {ls : List Level}
    (hl : s.line.script = activeLevel s.cfg :: ls) (ht : start + T ≤ (readClock (sample s).2).1) :
    waitLoop T start (n + 1) s = (.timedOut, waitTimedOut (readClock (sample s).2).2) := by
  rw [waitLoop, (sample_scripted hl).1, lineActive_active]
  exact if_pos (show T ≤ (readClock (sample s).2).1 - start by omega)

/-- A wait whose first samples are active and whose readings, by the advances `ds`, come before the deadline: the loop
goes on after one poll each, with an iteration left. -/
theorem waitForBusy_polls {s : State} {T d : Nat} {ds ts : List Nat} {ls : List Level}
    (hl : s.line.script = List.replicate ds.length (activeLevel s.cfg) ++ ls) (ht : s.ticks.script = d :: (ds ++ ts))
    (hd : ∀ k, k < ds.length → (ds.take (k + 1)).sum + k * s.cfg.tPoll < T) :
    ∃ n u, waitForBusy T s = waitLoop T (s.clock + d) (n + 1) u ∧ Extends s u (polls s.cfg ds.length) [] ∧
      u.clock = s.clock + d + ds.sum + ds.length * s.cfg.tPoll ∧ u.line.script = ls ∧ u.ticks.script = ts := by
  obtain ⟨hstart, hticks⟩ := readClock_scripted ht
  have hlen : ds.length ≤ T := by
    rcases Nat.eq_zero_or_pos ds.length with hz | hpos
    · omega
    · have hlast := hd (ds.length - 1) (by omega)
      have := Nat.le_mul_of_pos_right (ds.length - 1) s.cfg.tPoll_pos
      omega
  obtain ⟨u, h, he, hc, hline, hts⟩ := waitLoop_polls T (readClock s).1 ds (T - ds.length + 1) (readClock s).2 ls ts hl
    hticks (Nat.le_refl _) fun k hk => by
      have := hd k hk
      simp only [readClock_clock, readClock_cfg]
      omega
  refine ⟨T - ds.length, u, ?_, (extends_readClock s).andThen he, by rw [hc, readClock_clock, hstart]; rfl, hline, hts⟩
  rw [show T - ds.length + 1 + ds.length = T + 1 by omega, hstart] at h
  rw [waitForBusy, hstart, h]

/-- The polls that a wait's bound leaves room for all come before the deadline of a clock that only sleeps advance. -/
theorem zeros_before_deadline {p T k : Nat} (hp : 1 ≤ p) (hk : k ≤ (T + p - 1) / p) :
    ∀ j, j < (List.replicate k 0).length → ((List.replicate k 0).take (j + 1)).sum + j * p < T := by
  intro j hj
  rw [List.length_replicate] at hj
  have hmul := (Nat.le_div_iff_mul_le hp).1 (show j + 1 ≤ (T + p - 1) / p by omega)
  rw [Nat.add_mul] at hmul
  rw [List.take_replicate, List.sum_replicate]
  simp
  omega

/-- A wait clears at the first inactive sample, whatever the clock. -/
theorem exec_waitBusy_clears {s : State} {T d : Nat} {ds ts : List Nat} {ls : List Level} (hr : Ready s)
    (hl : s.line.script = List.replicate ds.length (activeLevel s.cfg) ++ inactiveLevel s.cfg :: ls)
    (ht : s.ticks.script = d :: (ds ++ ts))
    (hd : ∀ k, k < ds.length → (ds.take (k + 1)).sum + k * s.cfg.tPoll < T) :
    ∃ t, exec (.waitBusy T) s = .next t ∧
      Extends s t (polls s.cfg ds.length ++ [.pinRead .busy (inactiveLevel s.cfg)]) [.wait .cleared] ∧
      t.lastWait = some .cleared ∧ t.clock = s.clock + d + ds.sum + ds.length * s.cfg.tPoll := by
  obtain ⟨n, u, h, he, hc, hline, -⟩ := waitForBusy_polls hl ht hd
  rw [← he.cfg] at hline
  obtain ⟨-, -, hs⟩ := sample_scripted hline
  rw [he.cfg] at hs
  have hexec := exec_waitBusy_ready hr T
  rw [h, waitLoop_cleared hline] at hexec
  exact ⟨_, hexec, (he.andThen (hs.andThen (extends_waitCleared _))).andRespond _, rfl, hc⟩

/-- Settles O35: the second clause is the first with no advance before any reading. -/
theorem waitBusyClearsWithTheLine : Obligations.WaitBusyClearsWithTheLine := by
  refine ⟨fun s T d ds ts ls hr hl ht hd => exec_waitBusy_clears hr hl ht hd, fun s T k ls ts hr hk hl ht => ?_⟩
  have h := exec_waitBusy_clears (d := 0) (ds := List.replicate k 0) hr (by rw [List.length_replicate, hl])
    (by rw [ht, List.replicate_succ, List.cons_append]) (zeros_before_deadline s.cfg.tPoll_pos hk)
  simpa using h

theorem extends_waitTimedOut (s : State) : Extends s (waitTimedOut s) [.log .waitTimeout] [] :=
  ⟨rfl, by simp, rfl, rfl, rfl, rfl, rfl, rfl, Nat.le_refl _⟩

/-- A wait on an active line times out at the first reading at or past its deadline, whatever the clock. -/
theorem exec_waitBusy_timesOut {s : State} {T d e : Nat} {ds ts : List Nat} {ls : List Level} (hr : Ready s)
    (hl : s.line.script = List.replicate (ds.length + 1) (activeLevel s.cfg) ++ ls)
    (ht : s.ticks.script = d :: (ds ++ e :: ts))
    (hd : ∀ k, k < ds.length → (ds.take (k + 1)).sum + k * s.cfg.tPoll < T)
    (hT : T ≤ ds.sum + e + ds.length * s.cfg.tPoll) :
    ∃ t, exec (.waitBusy T) s = .next t ∧
      Extends s t (polls s.cfg ds.length ++ [.pinRead .busy (activeLevel s.cfg), .log .waitTimeout])
        [.wait .timedOut] ∧
      t.lastWait = some .timedOut ∧ t.clock = s.clock + d + ds.sum + e + ds.length * s.cfg.tPoll := by
  rw [List.replicate_succ', List.append_assoc] at hl
  obtain ⟨n, u, h, he, hc, hline, hts⟩ := waitForBusy_polls hl ht hd
  rw [← he.cfg] at hline
  obtain ⟨-, -, hs⟩ := sample_scripted hline
  rw [he.cfg] at hs
  have hread : (readClock (sample u).2).1 = s.clock + d + ds.sum + e + ds.length * s.cfg.tPoll := by
    rw [(readClock_scripted (s := (sample u).2) hts).1, sample_clock, hc]
    omega
  have hexec := exec_waitBusy_ready hr T
  rw [h, waitLoop_timedOut hline (by omega)] at hexec
  exact ⟨_, hexec, (he.andThen (hs.andThen ((extends_readClock _).andThen (extends_waitTimedOut _)))).andRespond _, rfl,
    hread⟩

/-- Settles O36: the second clause is the first with no advance before any reading, the sleeps alone reaching the
deadline. -/
theorem waitBusyTimesOutAtItsBound : Obligations.WaitBusyTimesOutAtItsBound := by
  refine ⟨fun s T d e ds ts ls hr hl ht hd hT => exec_waitBusy_timesOut hr hl ht hd hT,
    fun s T m ls ts hr hm hl ht => ?_⟩
  have hticks : s.ticks.script = 0 :: (List.replicate m 0 ++ 0 :: ts) := by
    rw [ht, List.replicate_succ, List.replicate_succ', List.cons_append, List.append_assoc]
    rfl
  have hT : T ≤ m * s.cfg.tPoll := by
    have hdiv := Nat.div_add_mod (T + s.cfg.tPoll - 1) s.cfg.tPoll
    have hmod := Nat.mod_lt (T + s.cfg.tPoll - 1) s.cfg.tPoll_pos
    rw [← hm, Nat.mul_comm] at hdiv
    omega
  have h := exec_waitBusy_timesOut (ds := List.replicate m 0) hr (by rw [List.length_replicate, hl]) hticks
    (zeros_before_deadline s.cfg.tPoll_pos hm.le) (by simpa using hT)
  simpa using h

/-! ## The wait for a free panel (R297, R298) -/

/-- Settles O37: the answers of `waitUntilFree_spec` are R293's, since every query reads the clock at or after the last
update. -/
theorem waitFreeEndsWhenNotBusy : Obligations.WaitFreeEndsWhenNotBusy := by
  intro s hr hpast
  obtain ⟨o, m, w, qs, q, t, h, hw, hlw, he, hbusy, hfree, hq, hreads, hm, hpair, hbound, hx, hu, hc, hp⟩ :=
    waitUntilFree_spec s
  have hexec := exec_waitFree_ready hr
  rw [h] at hexec
  have hiff : ∀ r ∈ qs ++ [q], busyAnswer s.cfg s.lastUpdate r.2 r.1 = true ↔ BusyAt s.cfg s.lastUpdate r :=
    fun r hr => busyAnswer_iff fun u hu => (hpast u hu).trans (hm.trans (hreads r hr))
  refine ⟨_, o, m, w, qs, q, hexec, he.andRespond _, hw, hlw, fun r hr => ?_, ?_, hq, hreads, hpair, fun hn => ?_, ?_, hx,
    hu, hc, hp⟩
  · exact (hiff r (List.mem_append_left _ hr)).1 (hbusy r hr)
  · rw [← hiff q (by simp), hfree]
    decide
  · by_contra hne
    obtain ⟨u, hu', -⟩ := hbound hne
    cases hn.symm.trans hu'
  · rcases List.eq_nil_or_concat qs with rfl | ⟨qs', r, rfl⟩
    · exact Nat.zero_le _
    · obtain ⟨u, hu', hlt⟩ := hbound (by simp)
      have hle := hpast u hu'
      have := poll_bound s.cfg.tFreeSleep_pos (k := (qs'.concat r).length - 1) (T := max s.cfg.tGuard s.cfg.tCap) (by omega)
      simpa using this

end Sys2Proof.Machine

/-!
PROOFS of the statements of 40_bit_image.md: new, cleared and composed images, and new Bit-Image Sources.
-/

namespace Sys2Proof.Machine

/-! ## New images (R200, R201) -/

theorem exec_imgNew_ready {s : State} (hr : Ready s) (w h : Nat) :
    exec (.imgNew w h) s =
      .next (checked (imgNewCheck w h) (fun _ s => respond (.image (newImage s.cfg w h)) s) s) :=
  admit_ready hr _

theorem imgNewCheck_range {w h : Nat} (hr : w ≥ 65536 ∨ h ≥ 65536) : imgNewCheck w h = .error .fRange := if_pos hr

theorem imgNewCheck_geometry {w h : Nat} (hw : w < 65536) (hh : h < 65536) (hg : w * h % 8 ≠ 0) :
    imgNewCheck w h = .error .fGeometry := by
  rw [imgNewCheck, if_neg (by omega), if_pos hg]

theorem imgNewCheck_ok {w h : Nat} (hw : w < 65536) (hh : h < 65536) (hg : w * h % 8 = 0) :
    imgNewCheck w h = .ok () := by
  rw [imgNewCheck, if_neg (by omega), if_neg (by omega)]

theorem header_getD (p : Params) (w h : Nat) {i : Nat} (hi : i < 16) :
    (header p w h).getD i 0 = headerByte p w h i := by
  simp [header, headerLen, hi]

theorem header_width (p : Params) {w : Nat} (hw : w < 65536) (h : Nat) :
    ofBe16 ((header p w h).getD p.hdrXOff 0) ((header p w h).getD (p.hdrXOff + 1) 0) = w := by
  have hin := p.hdrX_in
  rw [header_getD p w h (by omega), header_getD p w h (by omega)]
  simp [headerByte, ofBe16_be16 hw]

theorem header_height (p : Params) (w : Nat) {h : Nat} (hh : h < 65536) :
    ofBe16 ((header p w h).getD p.hdrYOff 0) ((header p w h).getD (p.hdrYOff + 1) 0) = h := by
  have hin := p.hdrY_in
  have hdis := p.hdr_disjoint
  have h₁ : p.hdrYOff ≠ p.hdrXOff := by omega
  have h₂ : p.hdrYOff ≠ p.hdrXOff + 1 := by omega
  have h₃ : p.hdrYOff + 1 ≠ p.hdrXOff := by omega
  rw [header_getD p w h (by omega), header_getD p w h (by omega)]
  simp [headerByte, h₁, h₂, h₃, ofBe16_be16 hh]

theorem newImage_header (p : Params) (w h : Nat) : (newImage p w h).bytes.take 16 = (header p w h).map writtenByte :=
  List.take_left' (by simp [header_length])

theorem newImage_length (p : Params) (w h : Nat) : (newImage p w h).bytes.length = 16 + w * h / 8 := by
  simp [newImage, header_length]

theorem newImage_pixel (p : Params) (w h : Nat) {k : Nat} (hk : 16 ≤ k) (hlt : k < 16 + w * h / 8) :
    (newImage p w h).bytes[k]? = some unwrittenByte := by
  have hlen : ((header p w h).map writtenByte).length = 16 := by simp [header_length]
  rw [newImage, List.getElem?_append_right (by omega), List.getElem?_replicate, if_pos (by omega)]

/-- Settles O38, by the checks in their order; the header's fields read back as written. -/
theorem imgNewGivesAHeaderAndUnwrittenPixels : Obligations.ImgNewGivesAHeaderAndUnwrittenPixels := by
  intro s w h hr
  have hexec := exec_imgNew_ready hr w h
  refine ⟨fun hrange => ?_, fun hw hh hg => ?_, fun hw hh hg => ?_⟩
  · rwa [checked_error (imgNewCheck_range hrange)] at hexec
  · rwa [checked_error (imgNewCheck_geometry hw hh hg)] at hexec
  · rw [checked_ok (imgNewCheck_ok hw hh hg)] at hexec
    refine ⟨newImage s.cfg w h, hexec, rfl, rfl, newImage_length _ w h, fun k hk hlt => ?_, header s.cfg w h,
      header_length _ w h, newImage_header _ w h, header_width _ hw h, header_height _ w hh⟩
    rw [newImage_length] at hlt
    exact newImage_pixel _ w h hk hlt

/-! ## Cleared images (R203) -/

theorem exec_imgClear_ready {s : State} (hr : Ready s) (img : PanelImage) (white : Bool) :
    exec (.imgClear img white) s = .next (answeredWith (.image (clearImage img white)) s) :=
  admit_ready hr (respond (.image (clearImage img white)))

/-- One byte per eight pixels fits behind the header. -/
theorem pixels_fit {img : PanelImage} (hwf : img.wf = true) (b : BufByte) :
    headerLen + (List.replicate (img.w * img.h / 8) b).length ≤ img.bytes.length := by
  obtain ⟨-, -, -, hlen, -, -⟩ := (panelImage_wf_iff img).1 hwf
  rw [List.length_replicate, hlen, headerLen]

/-- Settles O39: a clear is one splice behind the header. -/
theorem imgClearSetsEveryPixelByte : Obligations.ImgClearSetsEveryPixelByte := by
  intro s img white hr hwf
  have hfit := pixels_fit hwf (writtenByte (if white then 0xFF else 0x00))
  refine ⟨clearImage img white, exec_imgClear_ready hr img white, rfl, rfl, splice_length _ _ _ hfit,
    fun k hk => splice_other _ _ _ k hfit (.inl hk), fun k hk hlt => ?_⟩
  obtain ⟨i, rfl⟩ : ∃ i, k = headerLen + i := ⟨k - 16, by rw [headerLen]; omega⟩
  obtain ⟨-, -, -, hlen, -, -⟩ := (panelImage_wf_iff img).1 hwf
  have hi : i < img.w * img.h / 8 := by
    rw [headerLen] at hlt
    omega
  exact (splice_same _ _ _ i hfit (by rwa [List.length_replicate])).trans ((List.getElem?_replicate).trans (if_pos hi))

/-! ## Composed images (R204) -/

/-- The pixels that a composite has written after `sy` whole rows and `n` pixels of the next one. -/
def Drawn (bw x y sy n px py : Nat) : Prop :=
  x ≤ px ∧ y ≤ py ∧ (py < y + sy ∧ px < x + bw ∨ py = y + sy ∧ px < x + n)

/-- A composite of the view `v` into `img`, so far: the source's pixels where they were written, every other pixel as
before. -/
structure Painted (v : List Byte) (bw x y : Nat) (img : PanelImage) (sy n : Nat) (im : PanelImage) : Prop where
  w : im.w = img.w
  h : im.h = img.h
  wf : im.wf = true
  inside : ∀ px py, px < img.w → py < img.h → Drawn bw x y sy n px py →
    pixelAt im px py = some (viewBit v (pixelIndex bw (px - x) (py - y)))
  outside : ∀ px py, px < img.w → py < img.h → ¬Drawn bw x y sy n px py → pixelAt im px py = pixelAt img px py

section
variable {v : List Byte} {bw x y sy n : Nat} {img im : PanelImage}

theorem painted_start (hwf : img.wf = true) : Painted v bw x y img 0 0 img := by
  refine ⟨rfl, rfl, hwf, fun px py _ _ hd => ?_, fun _ _ _ _ _ => rfl⟩
  unfold Drawn at hd
  omega

/-- Two pixel counts that name the same pixels. -/
theorem Painted.congr {sy' n' : Nat} (h : Painted v bw x y img sy n im)
    (hd : ∀ px py, Drawn bw x y sy n px py ↔ Drawn bw x y sy' n' px py) : Painted v bw x y img sy' n' im :=
  ⟨h.w, h.h, h.wf, fun px py hx hy hdr => h.inside px py hx hy ((hd px py).2 hdr),
    fun px py hx hy hdr => h.outside px py hx hy fun hdr' => hdr ((hd px py).1 hdr')⟩

/-- The next pixel of a row. -/
theorem Painted.setPixel (h : Painted v bw x y img sy n im) (hx : x + n < img.w) (hy : y + sy < img.h) :
    Painted v bw x y img sy (n + 1) (setPixel im (x + n) (y + sy) (viewBit v (pixelIndex bw n sy))) := by
  have hother : ∀ px py, px < img.w → ¬(x + n = px ∧ y + sy = py) →
      pixelAt (Machine.setPixel im (x + n) (y + sy) (viewBit v (pixelIndex bw n sy))) px py = pixelAt im px py :=
    fun px py hpx hne => pixelAt_setPixel_other im _ _ px py _ (by rwa [h.w]) (by rwa [h.w]) hne
  refine ⟨h.w, h.h, setPixel_wf _ _ _ _ h.wf, fun px py hpx hpy hd => ?_, fun px py hpx hpy hd => ?_⟩
  · by_cases heq : x + n = px ∧ y + sy = py
    · obtain ⟨rfl, rfl⟩ := heq
      rw [pixelAt_setPixel_same _ _ _ _ (pixel_in_bounds im h.wf _ _ (by rwa [h.w]) (by rw [h.h]; exact hy)),
        Nat.add_sub_cancel_left, Nat.add_sub_cancel_left]
    · rw [hother px py hpx heq]
      refine h.inside px py hpx hpy ?_
      unfold Drawn at hd ⊢
      omega
  · have hne : ¬(x + n = px ∧ y + sy = py) := fun heq => hd (by unfold Drawn; omega)
    rw [hother px py hpx hne]
    refine h.outside px py hpx hpy fun hd' => hd ?_
    unfold Drawn at hd' ⊢
    omega

/-- The first `n` pixels of a row, in order. -/
theorem Painted.rowPrefix (h : Painted v bw x y img sy 0 im) (hy : y + sy < img.h) (n : Nat) (hx : x + n ≤ img.w) :
    Painted v bw x y img sy n
      ((List.range n).foldl
        (fun im sx => Machine.setPixel im (x + sx) (y + sy) (viewBit v (pixelIndex bw sx sy))) im) := by
  induction n with
  | zero => exact h
  | succ n ih =>
    rw [List.range_succ, List.foldl_append]
    exact (ih (by omega)).setPixel hx hy

/-- A whole row. -/
theorem Painted.row (h : Painted v bw x y img sy 0 im) (hx : x + bw ≤ img.w) (hy : y + sy < img.h) :
    Painted v bw x y img (sy + 1) 0 (compositeRow v bw x y sy im) :=
  (h.rowPrefix hy bw hx).congr fun px py => by unfold Drawn; omega

/-- The first `n` rows, in order. -/
theorem painted_rows (hwf : img.wf = true) (hx : x + bw ≤ img.w) (n : Nat) (hy : y + n ≤ img.h) :
    Painted v bw x y img n 0 ((List.range n).foldl (fun im sy => compositeRow v bw x y sy im) img) := by
  induction n with
  | zero => exact painted_start hwf
  | succ n ih =>
    rw [List.range_succ, List.foldl_append]
    exact (ih (by omega)).row hx hy

end

/-- A composite that fits writes the source's rectangle. -/
theorem compositeImage_painted (p : Params) {img : PanelImage} {bis : Bis} {x y : Nat} (hwf : img.wf = true)
    (hx : x + bis.w ≤ img.w) (hy : y + bis.h ≤ img.h) :
    Painted (bisViewOf bis p.compositeView) bis.w x y img bis.h 0 (compositeImage p img bis x y) :=
  painted_rows hwf hx bis.h hy

theorem compositeImage_header (p : Params) (img : PanelImage) (bis : Bis) (x y : Nat) :
    ∀ k, k < 16 → (compositeImage p img bis x y).bytes[k]? = img.bytes[k]? :=
  compositeImage_keeps (P := fun im => ∀ k, k < 16 → im.bytes[k]? = img.bytes[k]?)
    (fun im px py v h k hk => (setPixel_header im px py k v hk).trans (h k hk)) p img bis x y fun _ _ => rfl

theorem compositeCheck_range {img : PanelImage} {bis : Bis} {x y : Nat}
    (hr : x + bis.w > img.w ∨ y + bis.h > img.h) : compositeCheck img bis x y = .error .fRange := if_pos hr

theorem compositeCheck_ok {img : PanelImage} {bis : Bis} {x y : Nat} (hx : x + bis.w ≤ img.w)
    (hy : y + bis.h ≤ img.h) : compositeCheck img bis x y = .ok () := if_neg (by omega)

theorem bisViewOf_eq (bis : Bis) (which : View) :
    bisViewOf bis which = if which = .normal then bis.normal else bis.inverted := by
  cases which <;> rfl

theorem exec_imgComposite_ready {s : State} (hr : Ready s) (img : PanelImage) (bis : Bis) (x y : Nat) :
    exec (.imgComposite img bis x y) s =
      .next (checked (compositeCheck img bis x y)
        (fun _ s => respond (.image (compositeImage s.cfg img bis x y)) s) s) :=
  admit_ready hr _

/-- Settles O40: the pixels drawn after all rows are the source's rectangle. -/
theorem imgCompositeOverwritesTheRectangle : Obligations.ImgCompositeOverwritesTheRectangle := by
  intro s img bis x y hr
  have hexec := exec_imgComposite_ready hr img bis x y
  refine ⟨fun hrange => ?_, fun hwf _ hx hy => ?_⟩
  · rwa [checked_error (compositeCheck_range hrange)] at hexec
  · rw [checked_ok (compositeCheck_ok hx hy)] at hexec
    have hp := compositeImage_painted s.cfg hwf hx hy
    refine ⟨_, bisViewOf bis s.cfg.compositeView, hexec, bisViewOf_eq _ _, hp.w, hp.h, hp.wf,
      compositeImage_header s.cfg img bis x y, fun px py hpx hpy => ?_⟩
    split
    next hin =>
      refine hp.inside px py hpx hpy ?_
      unfold Drawn
      omega
    next hout =>
      refine hp.outside px py hpx hpy fun hd => hout ?_
      unfold Drawn at hd
      omega

/-! ## New Bit-Image Sources (R205) -/

theorem exec_bisNew_ready {s : State} (hr : Ready s) (w h : Nat) (raw : List Byte) :
    exec (.bisNew w h raw) s =
      .next (checked (bisNewCheck w h raw) (fun _ s => respond (.bis (newBis w h raw)) s) s) :=
  admit_ready hr _

theorem bisNewCheck_geometry {w h : Nat} {raw : List Byte} (hg : w * h % 8 ≠ 0) :
    bisNewCheck w h raw = .error .fGeometry := if_pos hg

theorem bisNewCheck_overrun {w h : Nat} {raw : List Byte} (hg : w * h % 8 = 0) (hl : raw.length < w * h / 8) :
    bisNewCheck w h raw = .error .fOverrun := by
  rw [bisNewCheck, if_neg (by omega), if_pos hl]

theorem bisNewCheck_ok {w h : Nat} {raw : List Byte} (hg : w * h % 8 = 0) (hl : w * h / 8 ≤ raw.length) :
    bisNewCheck w h raw = .ok () := by
  rw [bisNewCheck, if_neg (by omega), if_neg (by omega)]

/-- A byte of a list that a view takes byte for byte from the first `n` raw bytes. -/
theorem getD_map_take {raw : List Byte} {n i : Nat} (f : Byte → Byte) (hi : i < n) (hn : n ≤ raw.length) :
    ((raw.take n).map f).getD i 0 = f (raw.getD i 0) := by
  have hraw : i < raw.length := by omega
  simp [hi, hraw]

/-- Settles O41, by the checks in their order; each view's byte is a function of the raw byte. -/
theorem bisNewReversesAndComplements : Obligations.BisNewReversesAndComplements := by
  intro s w h raw hr
  have hexec := exec_bisNew_ready hr w h raw
  refine ⟨fun hg => ?_, fun hg hshort => ?_, fun hg hlen => ?_⟩
  · rwa [checked_error (bisNewCheck_geometry hg)] at hexec
  · rwa [checked_error (bisNewCheck_overrun hg hshort)] at hexec
  · rw [checked_ok (bisNewCheck_ok hg hlen)] at hexec
    refine ⟨newBis w h raw, hexec, rfl, rfl, by simpa [newBis] using hlen, by simpa [newBis] using hlen,
      fun i k hi hk => ⟨?_, ?_⟩⟩
    · rw [newBis, getD_map_take rev8 hi hlen, rev8_bit _ k hk]
    · rw [newBis, getD_map_take (fun b => notByte (rev8 b)) hi hlen, notByte, BitVec.getLsbD_not, rev8_bit _ k hk]
      simp [hk]

end Sys2Proof.Machine

/-!
PROOFS of the statements of 44_packetizer.md: splitting, the image transfers, their refusals, and the clamp of the ROI
transfer.
-/

namespace Sys2Proof.Machine

/-! ## Splitting (R320) -/

theorem exec_pktSplit_ready {s : State} (hr : Ready s) (len plen : Nat) :
    exec (.pktSplit len plen) s = .next (checked (pktSplitCheck len plen) (fun l s => respond (.packets l) s) s) :=
  admit_ready hr _

theorem pktSplitCheck_zero (len : Nat) : pktSplitCheck len 0 = .error .fPlen := rfl

theorem pktSplitCheck_pos (len : Nat) {plen : Nat} (h : 0 < plen) :
    pktSplitCheck len plen = .ok (pktSplitList len plen) := if_neg (by omega)

theorem pktSplitList_length (len plen : Nat) : (pktSplitList len plen).length = len / plen + 1 := by
  simp [pktSplitList]

theorem pktSplitList_full {len plen k : Nat} (hk : k < len / plen) :
    (pktSplitList len plen)[k]? = some (k * plen, plen) := by
  simp [pktSplitList, List.getElem?_append_left, hk]

theorem pktSplitList_last (len plen : Nat) :
    (pktSplitList len plen)[len / plen]? = some (len / plen * plen, len % plen) := by
  simp [pktSplitList]

/-- Settles O43: `pktSplitList`, entry by entry. -/
theorem pktSplitCountsAndPlacesPackets : Obligations.PktSplitCountsAndPlacesPackets := by
  intro s len plen hr
  have hexec := exec_pktSplit_ready hr len plen
  refine ⟨fun hz => ?_, fun hpos => ?_⟩
  · subst hz
    rwa [checked_error (pktSplitCheck_zero len)] at hexec
  · rw [checked_ok (pktSplitCheck_pos len hpos)] at hexec
    exact ⟨_, hexec, pktSplitList_length len plen, fun k hk => pktSplitList_full hk, pktSplitList_last len plen⟩

/-- The first `n` full packets hold the first `n * plen` bytes. -/
theorem full_packets_flatten (data : List Byte) (plen n : Nat) :
    ((List.range n).map fun k => slice data (k * plen) plen).flatten = data.take (n * plen) := by
  induction n with
  | zero => simp
  | succ n ih =>
    rw [List.range_succ, List.map_append, List.flatten_append, ih, Nat.add_mul, Nat.one_mul, List.take_add]
    simp [slice]

/-- Settles O44: the full packets hold the bytes up to the last one's offset, and the last one holds the rest. -/
theorem packetsTileTheBuffer : Obligations.PacketsTileTheBuffer := by
  intro data plen _
  have hlast : slice data (data.length / plen * plen) (data.length % plen) =
      data.drop (data.length / plen * plen) := by
    have := Nat.div_add_mod' data.length plen
    rw [slice, List.take_of_length_le]
    rw [List.length_drop]
    omega
  calc ((imageFrames data plen).map fun f => f.drop 4).flatten
      = ((pktSplitList data.length plen).map fun c => slice data c.1 c.2).flatten := by
        rw [imageFrames, List.map_map]
        rfl
    _ = ((List.range (data.length / plen)).map fun k => slice data (k * plen) plen).flatten ++
          slice data (data.length / plen * plen) (data.length % plen) := by
        simp [pktSplitList, Function.comp_def]
    _ = data := by
        rw [full_packets_flatten, hlast, List.take_append_drop]

/-! ## `SEND_IMAGE` (R324) and `SEND_IMAGE_PI` (R325) -/

theorem memRead_overrun {buf : Buffer} {off n : Nat} (h : buf.length < off + n) : memRead buf off n = .error .fOverrun :=
  if_pos h

theorem memRead_unwritten {buf : Buffer} {off n : Nat} (h : off + n ≤ buf.length)
    (hu : ∃ b ∈ slice buf off n, b.isWritten = false) : memRead buf off n = .error .fUnwritten := by
  obtain ⟨b, hb, hw⟩ := hu
  have hall : ¬(slice buf off n).all BufByte.isWritten = true := fun hall => by
    rw [List.all_eq_true.1 hall b hb] at hw
    cases hw
  rw [memRead, if_neg (by omega), if_neg hall]

/-- The bytes that a read from the start gives, and that all of them are written, as the statements put it. -/
theorem memRead_take {buf : Buffer} {len : Nat} (hl : len ≤ buf.length) (hw : ∀ b ∈ buf.take len, b.isWritten = true) :
    memRead buf 0 len = .ok ((buf.take len).map BufByte.val) :=
  (memRead_ok_iff _ _ _ _).2 ⟨by omega, hw, rfl⟩

/-- With a packet length that fits its length byte the buffer alone decides (R324, R414). -/
theorem sendImageCheck_eq_memRead {buf : Buffer} {len plen : Nat} (h₀ : 0 < plen) (h₁ : plen ≤ 255) :
    sendImageCheck buf len plen = memRead buf 0 len := by
  rw [sendImageCheck, if_neg (by omega), if_neg (by omega)]

theorem exec_sendImage_ready {s : State} (hr : Ready s) (buf : Buffer) (len plen : Nat) :
    exec (.sendImage buf len plen) s = .next (sendImageBody buf len plen s) :=
  admit_ready hr _

theorem exec_sendImage_refused {s : State} (hr : Ready s) {buf : Buffer} {len plen : Nat} {c : FaultCode}
    (hc : sendImageCheck buf len plen = .error c) : exec (.sendImage buf len plen) s = .next (refusedWith c s) :=
  (exec_sendImage_ready hr buf len plen).trans (congrArg _ (checked_error hc _ s))

/-- Everything the body of `SEND_IMAGE` does with the bytes its checks have read. -/
theorem sendImageBody_spec {buf : Buffer} {len plen : Nat} {data : List Byte} (s : State)
    (hc : sendImageCheck buf len plen = .ok data) :
    ∃ t okR oks m e₁ e₂, sendImageBody buf len plen s = t ∧ Extends s t (e₁ ++ e₂) [.bool (oks.all id)] ∧
      RetryTrace s.cfg [s.cfg.opParam, 0x0D, s.cfg.slot .dpReset, 0x00] s.cfg.tLong .dpResetFail 3 okR s.mark m e₁ ∧
      PacketsTrace s.cfg (imageFrames data plen) oks m t.mark e₂ ∧
      t.initXfer = true ∧ t.lastUpdate = s.lastUpdate ∧ t.cs = .deselected ∧ t.lastWait ≠ none := by
  obtain ⟨okR, oks, m, t, e₁, e₂, h, hret, hpkt, he, hx, hset⟩ := sendImageOp_spec data plen s
  have hbody : sendImageBody buf len plen s = respond (.bool (oks.all id)) t := by
    rw [sendImageBody, checked_ok hc, h]
  exact ⟨_, okR, oks, m, e₁, e₂, hbody, he.andRespond _, hret, hpkt, hx, hset.lastUpdate, hset.cs, hset.lastWait⟩

/-- Settles O45, by the checks in their order. -/
theorem sendImageIsAllOrNothing : Obligations.SendImageIsAllOrNothing := by
  intro s buf len plen hr
  refine ⟨fun hz => exec_sendImage_refused hr (if_pos hz), fun hbig => exec_sendImage_refused hr ?_,
    fun h₀ h₁ hover => exec_sendImage_refused hr ?_, fun h₀ h₁ hl hu => exec_sendImage_refused hr ?_,
    fun h₀ h₁ hl hw => ?_⟩
  · rw [sendImageCheck, if_neg (by omega), if_pos hbig]
  · rw [sendImageCheck_eq_memRead h₀ h₁, memRead_overrun (by omega)]
  · rw [sendImageCheck_eq_memRead h₀ h₁]
    exact memRead_unwritten (by omega) hu
  · have hc := (sendImageCheck_eq_memRead h₀ h₁).trans (memRead_take hl hw)
    obtain ⟨t, okR, oks, m, e₁, e₂, rfl, h⟩ := sendImageBody_spec s hc
    exact ⟨_, okR, oks, m, e₁, e₂, exec_sendImage_ready hr buf len plen, h⟩

/-- `SEND_IMAGE_PI` is `SEND_IMAGE` of the whole image in packets of the default length (R325). -/
theorem exec_sendImagePi (img : PanelImage) (s : State) :
    exec (.sendImagePi img) s = exec (.sendImage img.bytes (imageLen img) s.cfg.defaultPacketLen) s := rfl

/-- Settles O46: an image's own length is its buffer's. -/
theorem sendImagePiSendsTheWholeImage : Obligations.SendImagePiSendsTheWholeImage := by
  intro s img hr hwf
  obtain ⟨-, -, -, hlen, -, -⟩ := (panelImage_wf_iff img).1 hwf
  have hall : img.bytes.take (imageLen img) = img.bytes := by rw [imageLen, headerLen, ← hlen, List.take_length]
  obtain ⟨-, -, -, hunwritten, hsend⟩ :=
    sendImageIsAllOrNothing s img.bytes (imageLen img) s.cfg.defaultPacketLen hr
  rw [hall] at hunwritten hsend
  rw [exec_sendImagePi]
  exact ⟨hsend s.cfg.defaultPacketLen_pos s.cfg.defaultPacketLen_le hlen.ge,
    hunwritten s.cfg.defaultPacketLen_pos s.cfg.defaultPacketLen_le hlen.ge⟩

/-! ## A declared length (R208, R472) -/

/-- Settles O55: the declared length counts a header that no view has; both sends are O45's. -/
theorem bisDeclaredLengthOverrunsItsViews : Obligations.BisDeclaredLengthOverrunsItsViews := by
  intro s bis which v plen hr hwf h₀ h₁ hv
  have hview : v = bisViewOf bis which := by
    rw [exec_bisView_ready hr] at hv
    simpa [answeredWith, eq_comm] using hv
  have hlen : v.length = bis.w * bis.h / 8 := by rw [hview, bisViewOf_length hwf]
  have hdecl : bisLen bis = v.length + 16 := by rw [hlen, bisLen, headerLen, Nat.add_comm]
  have hbuf : (v.map fun b => (⟨b, 0xFF⟩ : BufByte)).length = v.length := List.length_map _
  obtain ⟨-, -, hover, -, -⟩ := sendImageIsAllOrNothing s (v.map fun b => ⟨b, 0xFF⟩) (bisLen bis) plen hr
  obtain ⟨-, -, -, -, hsend⟩ := sendImageIsAllOrNothing s (v.map fun b => ⟨b, 0xFF⟩) v.length plen hr
  refine ⟨rfl, hdecl, hover h₀ h₁ (by omega), ?_⟩
  have htake : (v.map fun b => (⟨b, 0xFF⟩ : BufByte)).take v.length = v.map fun b => ⟨b, 0xFF⟩ := by
    rw [List.take_of_length_le hbuf.le]
  have hval : (v.map fun b => (⟨b, 0xFF⟩ : BufByte)).map BufByte.val = v := by
    simp [Function.comp_def]
  rw [htake, hval] at hsend
  obtain ⟨t, okR, oks, m, e₁, e₂, hexec, he, hret, hpkt, -⟩ := hsend h₀ h₁ hbuf.ge fun b hb => by
    obtain ⟨c, -, rfl⟩ := List.mem_map.1 hb
    exact writtenByte_isWritten c
  exact ⟨t, okR, oks, m, e₁, e₂, hexec, he, hret, hpkt⟩

/-! ## `SEND_IMAGE_ROI` (R326, R327) -/

theorem roiPlen_fits {w : Nat} (h₀ : 0 < w) (h₁ : w < 512) : 0 < roiPlen w ∧ roiPlen w ≤ 255 := by
  unfold roiPlen
  split <;> omega

theorem roiPlen_overflows {w : Nat} (h : 512 ≤ w) : 255 < roiPlen w := by
  rw [roiPlen, if_pos (by omega)]
  omega

section
variable {p : Params} {buf : Buffer} {x y w h : Nat}

theorem sendRoiCheck_clamp (hy : p.roiClampH < y) : sendRoiCheck p buf x y w h = .error .fRange := if_pos hy

theorem sendRoiCheck_plen (hy : y ≤ p.roiClampH) (hw : w = 0) : sendRoiCheck p buf x y w h = .error .fPlen := by
  subst hw
  rw [sendRoiCheck, if_neg (by omega)]
  rfl

theorem sendRoiCheck_len (hy : y ≤ p.roiClampH) (hw : 512 ≤ w) : sendRoiCheck p buf x y w h = .error .fLen := by
  have := roiPlen_overflows hw
  rw [sendRoiCheck, if_neg (by omega), if_neg (by omega), if_pos this]

/-- Past the clamp and the packet length, the window's fields and then the buffer decide (R327, R414). -/
theorem sendRoiCheck_window (hy : y ≤ p.roiClampH) (hw₀ : 0 < w) (hw₁ : w < 512)
    (hf : roiFields p x y w (roiClamp p y h) = none) : sendRoiCheck p buf x y w h = .error .fRange := by
  have := roiPlen_fits hw₀ hw₁
  rw [sendRoiCheck, if_neg (by omega), if_neg (by omega), if_neg (by omega), roiCheck_of_none hf]

theorem sendRoiCheck_unwritten (hy : y ≤ p.roiClampH) (hw₀ : 0 < w) (hw₁ : w < 512) {f : Nat × Nat × Nat × Nat}
    (hf : roiFields p x y w (roiClamp p y h) = some f) (hu : ∃ b ∈ buf, b.isWritten = false) :
    sendRoiCheck p buf x y w h = .error .fUnwritten := by
  have := roiPlen_fits hw₀ hw₁
  have hread : memRead buf 0 buf.length = .error .fUnwritten :=
    memRead_unwritten (by omega) (by rwa [slice_all])
  rw [sendRoiCheck, if_neg (by omega), if_neg (by omega), if_neg (by omega), roiCheck_of_some hf, hread]

theorem sendRoiCheck_passes (hy : y ≤ p.roiClampH) (hw₀ : 0 < w) (hw₁ : w < 512) {f : Nat × Nat × Nat × Nat}
    (hf : roiFields p x y w (roiClamp p y h) = some f) (hw : ∀ b ∈ buf, b.isWritten = true) :
    sendRoiCheck p buf x y w h = .ok (f, buf.map BufByte.val) := by
  have := roiPlen_fits hw₀ hw₁
  have hread : memRead buf 0 buf.length = .ok (buf.map BufByte.val) :=
    (memRead_ok_iff _ _ _ _).2 ⟨by omega, by rwa [slice_all], by rw [slice_all]⟩
  rw [sendRoiCheck, if_neg (by omega), if_neg (by omega), if_neg (by omega), roiCheck_of_some hf, hread]

end

/-- `SEND_IMAGE_ROI` past its checks, and its response. -/
def sendRoiBody (w retry : Nat) (c : (Nat × Nat × Nat × Nat) × List Byte) (s : State) : State :=
  respond (.bool (sendRoiOp c.1 c.2 (roiPlen w) retry s).1) (sendRoiOp c.1 c.2 (roiPlen w) retry s).2

theorem exec_sendImageRoi_ready {s : State} (hr : Ready s) (buf : Buffer) (x y w h retry : Nat) :
    exec (.sendImageRoi buf x y w h retry) s =
      .next (checked (sendRoiCheck s.cfg buf x y w h) (sendRoiBody w retry) s) :=
  admit_ready hr _

theorem exec_sendImageRoi_refused {s : State} (hr : Ready s) {buf : Buffer} {x y w h : Nat} (retry : Nat)
    {c : FaultCode} (hc : sendRoiCheck s.cfg buf x y w h = .error c) :
    exec (.sendImageRoi buf x y w h retry) s = .next (refusedWith c s) :=
  (exec_sendImageRoi_ready hr buf x y w h retry).trans (congrArg _ (checked_error hc _ s))

/-- Settles O48, one check after the other. -/
theorem sendImageRoiRefusesInOrder : Obligations.SendImageRoiRefusesInOrder := by
  refine fun s buf x y w h retry hr => ⟨fun hy => ?_, fun hy hw => ?_, fun hy hw => ?_, fun hy hw₀ hw₁ hf => ?_,
    fun hy hw₀ hw₁ hf hu => ?_⟩ <;> refine exec_sendImageRoi_refused hr retry ?_
  · exact sendRoiCheck_clamp hy
  · exact sendRoiCheck_plen hy hw
  · exact sendRoiCheck_len hy hw
  · exact sendRoiCheck_window hy hw₀ hw₁ hf
  · obtain ⟨f, hf⟩ := Option.isSome_iff_exists.1 hf
    exact sendRoiCheck_unwritten hy hw₀ hw₁ hf hu

/-- Settles O47: past the checks, `sendRoiOp_spec` gives the passes. -/
theorem sendImageRoiIsAnySuccess : Obligations.SendImageRoiIsAnySuccess := by
  intro s buf x y w h retry f hr hy hw₀ hw₁ hf hw
  obtain ⟨ok, t, evs, hop, he, hx, hset, hpass⟩ := sendRoiOp_spec f (buf.map BufByte.val) (roiPlen w) retry s
  have hexec := exec_sendImageRoi_ready hr buf x y w h retry
  rw [checked_ok (sendRoiCheck_passes hy hw₀ hw₁ hf hw), sendRoiBody, hop] at hexec
  exact ⟨_, ok, evs, hexec, he.andRespond _, hx, hset.lastUpdate, hset.cs, hset.lastWait, hpass⟩

/-! ## What is sent: the frames of each event sequence -/

theorem not_mem_of_sends_zero {evs : List Event} (h : sends evs = 0) (tx rx : List Byte) :
    .txn .send tx rx ∉ evs := fun hm => by
  have := List.countP_eq_zero.1 h _ hm
  exact this rfl

theorem commandTrace_send {p : Params} {frame tx rx : List Byte} {T : Nat} {c : StatusClass} {a b : Mark}
    {evs : List Event} (h : CommandTrace p frame T c a b evs) (hm : .txn .send tx rx ∈ evs) : tx = frame := by
  obtain ⟨o, w, st, rfl, hw, hst⟩ := h
  rcases List.mem_cons.1 hm with heq | hm
  · cases heq
    rfl
  · rcases List.mem_append.1 hm with hm | hm
    · exact absurd hm (not_mem_of_sends_zero (waitTrace_counts hw).1 tx rx)
    · exact absurd hm (not_mem_of_sends_zero (statusTrace_counts hst).1 tx rx)

theorem retryTrace_send {p : Params} {frame tx rx : List Byte} {T : Nat} {k : LogKind} {n : Nat} {ok : Bool} {a b : Mark}
    {evs : List Event} (h : RetryTrace p frame T k n ok a b evs) (hm : .txn .send tx rx ∈ evs) : tx = frame := by
  induction n generalizing a evs with
  | zero =>
    obtain ⟨-, rfl, -⟩ := h
    cases List.mem_singleton.1 hm
  | succ n ih =>
    obtain ⟨c, m, cmd, rest, rfl, hc, hrest⟩ := h
    rcases List.mem_append.1 hm with hm | hm
    · exact commandTrace_send hc hm
    · rcases hrest with ⟨-, -, rfl, -⟩ | ⟨-, hr⟩
      · cases hm
      · exact ih hr hm

theorem packetsTrace_send {p : Params} {frames : List (List Byte)} {tx rx : List Byte} {oks : List Bool} {a b : Mark}
    {evs : List Event} (h : PacketsTrace p frames oks a b evs) (hm : .txn .send tx rx ∈ evs) : tx ∈ frames := by
  induction frames generalizing a oks evs with
  | nil =>
    obtain ⟨-, rfl, -⟩ := h
    cases hm
  | cons f frames ih =>
    obtain ⟨ok, rest, m, e₁, e₂, rfl, rfl, hf, hfs⟩ := h
    rcases List.mem_append.1 hm with hm | hm
    · exact List.mem_cons.2 (.inl (retryTrace_send hf hm))
    · exact List.mem_cons_of_mem _ (ih hfs hm)

/-- Of the frames a pass sends, only the ROI frame carries the ROI subcode: every image packet has initByte 0x01. -/
theorem roiPassTrace_roi_send {p : Params} {f : Nat × Nat × Nat × Nat} {data : List Byte} {plen : Nat} {oks : List Bool}
    {a b : Mark} {evs : List Event} {tx rx : List Byte} (h : RoiPassTrace p f data plen oks a b evs)
    (hm : .txn .send tx rx ∈ evs) (hsub : tx.getD 1 0 = 0x0A) :
    tx = paramFrame p.opParam 0x0A p.slotRoi (roiPayload f) := by
  obtain ⟨c, m, e₁, e₂, rfl, hc, hpkts⟩ := h
  rcases List.mem_append.1 hm with hm | hm
  · exact commandTrace_send hc hm
  · obtain ⟨d, -, rfl⟩ := List.mem_map.1 (packetsTrace_send hpkts hm)
    exact absurd hsub (by simp [imageFrame])

/-! ## The clamp (R328) -/

theorem roiClamp_le {p : Params} {y : Nat} (hy : y ≤ p.roiClampH) (h : Nat) : y + roiClamp p y h ≤ p.roiClampH := by
  unfold roiClamp
  split <;> omega

/-- The last two bytes of an ROI frame are its Y-max field (R159). -/
theorem roiFrame_yMax (op slot : Byte) (f : Nat × Nat × Nat × Nat) (hf : f.2.2.2 < 65536) :
    ofBe16 ((paramFrame op 0x0A slot (roiPayload f)).getD 10 0) ((paramFrame op 0x0A slot (roiPayload f)).getD 11 0) =
      f.2.2.2 :=
  ofBe16_be16 hf

/-- The Y-max field of a clamped window that R159 does not refuse. -/
theorem clamped_yMax_le {p : Params} {x y w h : Nat} {f : Nat × Nat × Nat × Nat} (hy : y ≤ p.roiClampH)
    (hf : roiFields p x y w (roiClamp p y h) = some f) : f.2.2.2 < 65536 ∧ f.2.2.2 + roiEnd p ≤ p.roiClampH := by
  obtain ⟨rfl, hin, -, -, -, hyh⟩ := roiFields_some hf
  refine ⟨hyh, ?_⟩
  have hle := roiClamp_le hy h
  rcases roiEnd_cases p with ⟨hi, he⟩ | ⟨-, he⟩
  · have := hin hi
    dsimp only
    omega
  · dsimp only
    omega

/-- Settles O49: only an admitted request past its checks sends anything; its window is clamped, and in either pass only
the ROI frame carries the ROI subcode. -/
theorem roiTransferNeverPassesTheClamp : Obligations.RoiTransferNeverPassesTheClamp := by
  intro s t buf x y w h retry evs tx rx hexec htr hm hsub
  have silent : t.trace ≠ s.trace := fun h => by
    rw [List.append_right_eq_self.1 (htr.symm.trans h)] at hm
    cases hm
  rcases exec_outcomes _ rfl s t hexec with ⟨c, -, -, rfl⟩ | ⟨c, rfl⟩ | ⟨hr, -⟩
  · exact absurd rfl silent
  · exact absurd rfl silent
  · rw [exec_sendImageRoi_ready hr] at hexec
    cases hc : sendRoiCheck s.cfg buf x y w h with
    | error c =>
      rw [checked_error hc] at hexec
      cases hexec
      exact absurd rfl silent
    | ok fd =>
      obtain ⟨f, data⟩ := fd
      obtain ⟨hy, -, -, hf, -, -⟩ := sendRoiCheck_ok hc
      obtain ⟨ok, u, evs', hop, he, -, -, hpass⟩ := sendRoiOp_spec f data (roiPlen w) retry s
      rw [checked_ok hc, sendRoiBody, hop] at hexec
      cases hexec
      obtain rfl : evs = evs' := List.append_cancel_left (htr.symm.trans he.trace)
      have htx : tx = paramFrame s.cfg.opParam 0x0A s.cfg.slotRoi (roiPayload f) := by
        rcases hpass with ⟨oks, h₁, -⟩ | ⟨-, oks₁, oks₂, m, e₁, e₂, rfl, h₁, -, h₂, -⟩
        · exact roiPassTrace_roi_send h₁ hm hsub
        · rcases List.mem_append.1 hm with hm | hm
          · exact roiPassTrace_roi_send h₁ hm hsub
          · exact roiPassTrace_roi_send h₂ hm hsub
      obtain ⟨hlt, hle⟩ := clamped_yMax_le hy hf
      rw [htx, roiFrame_yMax _ _ _ hlt]
      exact hle

end Sys2Proof.Machine
